-- ==== Sys2Proof/Word.lean ====
section
/-! DEFINITION. The machine word of the block (spec/00_scope.md R4: W = 32 bits, fixed) and the byte a
host serialises it into (spec/20_memory.md R89). -/

namespace Sys2Proof

/-- Every word is 32 bits unless a width is stated (R4, R8). -/
abbrev Word := BitVec 32

/-- A byte of a serialised word (R89). -/
abbrev Byte := BitVec 8

end Sys2Proof
end

