-- ==== Sys2Proof/Syntax.lean ====
section
/-! DEFINITION. The commands of the block: one constructor per row of spec/opcode_table.json
(spec/30_encoding.md R122, R123). An operand field is kept as the number the word holds (R127), so a
command whose operand is out of range (R126) is still a term: the machine refuses it with E_OPERAND. -/

namespace Sys2Proof

/-- A share-vector register number V0..V15 (R127: zero-extended 4-bit index). -/
abbrev VReg := Fin 16

/-- A public register number X0..X15 (R127). -/
abbrev XReg := Fin 16

/-- The field N, 5 bits: RGET's word count, or the refresh flag of SSBOX and MHALF (R121, R127). -/
abbrev Imm := Fin 32

/-- The 17 commands of R123. -/
inductive Instr
  /-- NOP (R291). -/
  | nop
  /-- SADD vD, vA, vB (R161). -/
  | sadd (vd va vb : VReg)
  /-- SMUL vD, vA, vB (R162). -/
  | smul (vd va vb : VReg)
  /-- SREF vD, vA (R163). -/
  | sref (vd va : VReg)
  /-- SPUB vD, vA, xK (R164). -/
  | spub (vd va : VReg) (xk : XReg)
  /-- SMOV vD, vA (R165). -/
  | smov (vd va : VReg)
  /-- SLREF vD, vA (R166). -/
  | slref (vd va : VReg)
  /-- SFRESH vD (R167). -/
  | sfresh (vd : VReg)
  /-- SSBOX vD, r (R245). -/
  | ssbox (vd : VReg) (n : Imm)
  /-- SLBOX vD, vA (R246). -/
  | slbox (vd va : VReg)
  /-- MINIT (R247). -/
  | minit
  /-- MHALF r (R248). -/
  | mhalf (n : Imm)
  /-- MKEY (R249). -/
  | mkey
  /-- MPERM (R250). -/
  | mperm
  /-- RINIT (R208). -/
  | rinit
  /-- RGET xK, n (R209). -/
  | rget (xk : XReg) (n : Imm)
  /-- RSTEP (R210). -/
  | rstep
  deriving DecidableEq, Repr

end Sys2Proof
end

