-- ==== Sys2Proof/WellFormed.lean ====
section
/-! DEFINITION. The operand ranges of spec/30_encoding.md R126: what makes a command well formed. The
machine's own check is `Machine.operandBad` (Machine/Operands.lean), which a command meets at issue. -/

namespace Sys2Proof

/-- The operands are in range. "The cases are exactly: SSBOX with VD > 12 (it uses VD..VD+3) or N > 1;
SLBOX with VD > 14 or VA > 14 (it uses a register pair); MHALF with N > 1; RGET with N = 0, N > 16, or
XK + N > 16. Every other combination of 4-bit register fields is in range." (R126) -/
def Instr.wf : Instr → Bool
  | .nop => true
  | .sadd _ _ _ => true
  | .smul _ _ _ => true
  | .sref _ _ => true
  | .spub _ _ _ => true
  | .smov _ _ => true
  | .slref _ _ => true
  | .sfresh _ => true
  | .ssbox vd n => decide (vd.val ≤ 12) && decide (n.val ≤ 1)
  | .slbox vd va => decide (vd.val ≤ 14) && decide (va.val ≤ 14)
  | .minit => true
  | .mhalf n => decide (n.val ≤ 1)
  | .mkey => true
  | .mperm => true
  | .rinit => true
  | .rget xk n => decide (1 ≤ n.val) && decide (n.val ≤ 16) && decide (xk.val + n.val ≤ 16)
  | .rstep => true

end Sys2Proof
end

