-- ==== Sys2Proof/Decode.lean ====
section
/-! DEFINITION. The command word (spec/30_encoding.md R120-R129): its fields, the formats, the opcode
map, the decoder, and after it the encoder written from the same tables; the byte order a host
serialises a word in (spec/20_memory.md R89); the assembler's text of a command and the
pseudo-instructions (R128, R129). -/

namespace Sys2Proof

/-- The fields of the command word (R121). -/
structure Fields where
  op  : BitVec 5 := 0
  vd  : BitVec 4 := 0
  va  : BitVec 4 := 0
  vb  : BitVec 4 := 0
  xk  : BitVec 4 := 0
  n   : BitVec 5 := 0
  res : BitVec 6 := 0
  deriving DecidableEq, Repr

/-- The fields at their bit positions (R121): OP [31:27], VD [26:23], VA [22:19], VB [18:15],
XK [14:11], N [10:6], RES [5:0]. -/
def fieldsOf (w : Word) : Fields where
  op  := w.extractLsb' 27 5
  vd  := w.extractLsb' 23 4
  va  := w.extractLsb' 19 4
  vb  := w.extractLsb' 15 4
  xk  := w.extractLsb' 11 4
  n   := w.extractLsb' 6 5
  res := w.extractLsb' 0 6

/-- The command formats (R122). -/
inductive Format
  | n | r3 | r2 | r1 | rp | sb | h | c
  deriving DecidableEq, Repr

/-- "every field its format does not name, and RES always, must be zero" (R122). -/
def unusedZero (fmt : Format) (f : Fields) : Bool :=
  f.res == 0 &&
  match fmt with
  | .n  => f.vd == 0 && f.va == 0 && f.vb == 0 && f.xk == 0 && f.n == 0
  | .r3 => f.xk == 0 && f.n == 0
  | .r2 => f.vb == 0 && f.xk == 0 && f.n == 0
  | .r1 => f.va == 0 && f.vb == 0 && f.xk == 0 && f.n == 0
  | .rp => f.vb == 0 && f.n == 0
  | .sb => f.va == 0 && f.vb == 0 && f.xk == 0
  | .h  => f.vd == 0 && f.va == 0 && f.vb == 0 && f.xk == 0
  | .c  => f.vd == 0 && f.va == 0 && f.vb == 0

/-- The fixed-bit mask of a format: OP and every field that must be zero (R122). -/
def fixedMask : Format → Word
  | .n  => 0xFFFFFFFF
  | .r3 => 0xF8007FFF
  | .r2 => 0xF807FFFF
  | .r1 => 0xF87FFFFF
  | .rp => 0xF80787FF
  | .sb => 0xF87FF83F
  | .h  => 0xFFFFF83F
  | .c  => 0xFFFF803F

/-- The opcode map (R123): the format of the opcode and the command its fields name. `none` is a
reserved opcode: 0x0A..0x0F, 0x14..0x17 and 0x1B..0x1F (R125). -/
def opcodeMap (op : Nat) (f : Fields) : Option (Format × Instr) :=
  match op with
  | 0x00 => some (.n,  .nop)
  | 0x01 => some (.r3, .sadd f.vd.toFin f.va.toFin f.vb.toFin)
  | 0x02 => some (.r3, .smul f.vd.toFin f.va.toFin f.vb.toFin)
  | 0x03 => some (.r2, .sref f.vd.toFin f.va.toFin)
  | 0x04 => some (.rp, .spub f.vd.toFin f.va.toFin f.xk.toFin)
  | 0x05 => some (.r2, .smov f.vd.toFin f.va.toFin)
  | 0x06 => some (.r2, .slref f.vd.toFin f.va.toFin)
  | 0x07 => some (.r1, .sfresh f.vd.toFin)
  | 0x08 => some (.sb, .ssbox f.vd.toFin f.n.toFin)
  | 0x09 => some (.r2, .slbox f.vd.toFin f.va.toFin)
  | 0x10 => some (.n,  .minit)
  | 0x11 => some (.h,  .mhalf f.n.toFin)
  | 0x12 => some (.n,  .mkey)
  | 0x13 => some (.n,  .mperm)
  | 0x18 => some (.n,  .rinit)
  | 0x19 => some (.c,  .rget f.xk.toFin f.n.toFin)
  | 0x1A => some (.n,  .rstep)
  | _    => none

/-- Why a word is no command (R124), or why bytes are no word. -/
inductive DecodeError
  /-- OP is not in the map (R124, R125). -/
  | reservedOpcode (op : BitVec 5)
  /-- A bit of a field the format does not use, or of RES, is 1 (R124). -/
  | unusedField (fmt : Format)
  /-- Fewer than four bytes: no command word (R120: every command is exactly one 32-bit word). -/
  | truncated
  deriving DecidableEq, Repr

/-- The decoder: "each word either decodes to exactly one mnemonic of rule R123 with all unused bits
zero, or is illegal" (R124). It reads the word alone (R120). -/
def decode (w : Word) : Except DecodeError Instr :=
  match opcodeMap (fieldsOf w).op.toNat (fieldsOf w) with
  | none => .error (.reservedOpcode (fieldsOf w).op)
  | some (fmt, i) => if unusedZero fmt (fieldsOf w) then .ok i else .error (.unusedField fmt)

/-- A field at its bit position: `x << k` as a word (R128). -/
def fieldAt {m : Nat} (x : BitVec m) (k : Nat) : Word := x.setWidth 32 <<< k

/-- A word from its four serialised bytes, least significant first: byte k is bits [8k+7:8k] (R89). -/
def wordOfBytes (b0 b1 b2 b3 : Byte) : Word :=
  fieldAt b3 24 ||| fieldAt b2 16 ||| fieldAt b1 8 ||| fieldAt b0 0

/-- The four bytes of a word, byte 0 first (R89). -/
def bytesOfWord (w : Word) : List Byte :=
  [w.extractLsb' 0 8, w.extractLsb' 8 8, w.extractLsb' 16 8, w.extractLsb' 24 8]

/-- Decoding a serialised command and what follows it; total on any bytes. -/
def decodeBytes : List Byte → Except DecodeError (Instr × List Byte)
  | b0 :: b1 :: b2 :: b3 :: rest =>
    match decode (wordOfBytes b0 b1 b2 b3) with
    | .ok i => .ok (i, rest)
    | .error e => .error e
  | _ => .error .truncated

/-- The word whose fields are `f`: "OP << 27 | VD << 23 | VA << 19 | VB << 15 | XK << 11 | N << 6" (R128),
with RES in [5:0] (R121). -/
def assemble (f : Fields) : Word :=
  fieldAt f.op 27 ||| fieldAt f.vd 23 ||| fieldAt f.va 19 ||| fieldAt f.vb 15 |||
    fieldAt f.xk 11 ||| fieldAt f.n 6 ||| fieldAt f.res 0

/-- The fields of a command: its opcode and the fields its format names, every other field zero
(R122, R123). -/
def fieldsFor : Instr → Fields
  | .nop           => { op := 0x00 }
  | .sadd vd va vb => { op := 0x01, vd := .ofFin vd, va := .ofFin va, vb := .ofFin vb }
  | .smul vd va vb => { op := 0x02, vd := .ofFin vd, va := .ofFin va, vb := .ofFin vb }
  | .sref vd va    => { op := 0x03, vd := .ofFin vd, va := .ofFin va }
  | .spub vd va xk => { op := 0x04, vd := .ofFin vd, va := .ofFin va, xk := .ofFin xk }
  | .smov vd va    => { op := 0x05, vd := .ofFin vd, va := .ofFin va }
  | .slref vd va   => { op := 0x06, vd := .ofFin vd, va := .ofFin va }
  | .sfresh vd     => { op := 0x07, vd := .ofFin vd }
  | .ssbox vd n    => { op := 0x08, vd := .ofFin vd, n := .ofFin n }
  | .slbox vd va   => { op := 0x09, vd := .ofFin vd, va := .ofFin va }
  | .minit         => { op := 0x10 }
  | .mhalf n       => { op := 0x11, n := .ofFin n }
  | .mkey          => { op := 0x12 }
  | .mperm         => { op := 0x13 }
  | .rinit         => { op := 0x18 }
  | .rget xk n     => { op := 0x19, xk := .ofFin xk, n := .ofFin n }
  | .rstep         => { op := 0x1A }

/-- The encoder: the command word of a command, which is also what a command fault records in ERRINFO
(R300). -/
def encode (i : Instr) : Word := assemble (fieldsFor i)

/-- The format of a command (R122, R123). -/
def formatOf : Instr → Format
  | .nop => .n | .sadd _ _ _ => .r3 | .smul _ _ _ => .r3 | .sref _ _ => .r2 | .spub _ _ _ => .rp
  | .smov _ _ => .r2 | .slref _ _ => .r2 | .sfresh _ => .r1 | .ssbox _ _ => .sb | .slbox _ _ => .r2
  | .minit => .n | .mhalf _ => .h | .mkey => .n | .mperm => .n
  | .rinit => .n | .rget _ _ => .c | .rstep => .n

/-- The command the decoder reads from a table row's bits: the word is laid out as the host serialises
it (R89) and given to `decodeBytes`. -/
def decodeTableWord (nbits w : Nat) : Option Instr :=
  match decodeBytes (bytesOfWord (BitVec.ofNat 32 (w % 2 ^ nbits))) with
  | .ok (i, _) => some i
  | .error _ => none

/-- A share-vector register as the assembler writes it: v0..v15 (R128). -/
def asmV (r : VReg) : String := "v" ++ toString r.val

/-- A public register as the assembler writes it: x0..x15 (R128). -/
def asmX (r : XReg) : String := "x" ++ toString r.val

/-- The assembler's text of a command: a mnemonic, then operands separated by commas (R128). -/
def asmText : Instr → String
  | .nop           => "NOP"
  | .sadd vd va vb => "SADD " ++ asmV vd ++ ", " ++ asmV va ++ ", " ++ asmV vb
  | .smul vd va vb => "SMUL " ++ asmV vd ++ ", " ++ asmV va ++ ", " ++ asmV vb
  | .sref vd va    => "SREF " ++ asmV vd ++ ", " ++ asmV va
  | .spub vd va xk => "SPUB " ++ asmV vd ++ ", " ++ asmV va ++ ", " ++ asmX xk
  | .smov vd va    => "SMOV " ++ asmV vd ++ ", " ++ asmV va
  | .slref vd va   => "SLREF " ++ asmV vd ++ ", " ++ asmV va
  | .sfresh vd     => "SFRESH " ++ asmV vd
  | .ssbox vd n    => "SSBOX " ++ asmV vd ++ ", " ++ toString n.val
  | .slbox vd va   => "SLBOX " ++ asmV vd ++ ", " ++ asmV va
  | .minit         => "MINIT"
  | .mhalf n       => "MHALF " ++ toString n.val
  | .mkey          => "MKEY"
  | .mperm         => "MPERM"
  | .rinit         => "RINIT"
  | .rget xk n     => "RGET " ++ asmX xk ++ ", " ++ toString n.val
  | .rstep         => "RSTEP"

/-- MROUND: one double round (R129). -/
def pseudoMround : List Instr := [.mhalf 1, .mhalf 0, .mkey]

/-- KLREF: the fixed-key re-sharing of the masked key, cipher lane 0 first (R129). -/
def pseudoKlref : List Instr := [.slref 4 4, .slref 5 5, .slref 6 6, .slref 7 7]

/-- KFRESH: a fresh masked key, cipher lane 0 first (R129). -/
def pseudoKfresh : List Instr := [.sfresh 4, .sfresh 5, .sfresh 6, .sfresh 7]

/-- One step of the co-simulator's batch in block commands: RSTEP, then KLREF when the fixed-key flag
is set and KFRESH when it is not (spec/60_exceptions.md R332). -/
def batchStep (fixedKey : Bool) : List Instr :=
  .rstep :: (if fixedKey then pseudoKlref else pseudoKfresh)

/-- The commands of a whole batch of N encryptions: "for i in 1..N-1" and one more at the end make N
steps (R332, for N >= 1). -/
def batchCommands (fixedKey : Bool) : Nat → List Instr
  | 0 => []
  | n + 1 => batchStep fixedKey ++ batchCommands fixedKey n

end Sys2Proof
end

