-- ==== Sys2Proof/Config.lean ====
section
/-! DEFINITION. The four parameters spec/00_scope.md R4 marks OPEN: NL, PERM, SEED_INIT and RATE_POS.
They are fixed for the block's lifetime (R6) and a model "takes them as arguments": each is a constant
with no body, so no proof can see its value, and every statement holds whatever the value is
(notes/assumptions/1.md, 2.md). -/

namespace Sys2Proof

/-- The PRNG parameters of R4, as one argument of the operations that draw: the core transition PERM
(R5), the seeding map SEED_INIT (R202) and the positions RATE_POS read into the tape (R204). The
operations of Machine/Prng.lean take it as an argument, so the same text runs on the stubs of
spec/95_test_vectors.md and on the block's own opaque parameters. -/
structure Prng where
  /-- PERM: 16 words to 16 words, total and deterministic (R5); flat index k = 4r + c. -/
  perm : Vector Word 16 → Vector Word 16
  /-- SEED_INIT: the 4-word raw seed to a 16-word core state (R202, D14). -/
  seedInit : Vector Word 4 → Vector Word 16
  /-- RATE_POS: the 8 core positions read into the tape, in order (R204). -/
  ratePos : Vector (Fin 16) 8

/-- PERM, the opaque PRNG core transition (R4, R5). -/
opaque Config.perm : Vector Word 16 → Vector Word 16

/-- SEED_INIT, the opaque seeding map (R4, R202). -/
opaque Config.seedInit : Vector Word 4 → Vector Word 16

/-- The list RATE_POS is taken from (see `Config.ratePos`). -/
opaque Config.rateRaw : Vector (Fin 16) 8

/-- NL - 1, so that NL is one of 1..16 (R4). -/
opaque Config.laneRaw : Fin 16

/-- NL, the number of engine lanes: 1 <= NL <= 16 (R4). -/
def Config.nl : Nat := Config.laneRaw.val + 1

/-- "8 distinct indices of 0..15 in increasing order" (R4, R204). -/
def Config.increasing (p : Vector (Fin 16) 8) : Bool :=
  decide (∀ j : Fin 7, p[j.val]'(by omega) < p[j.val + 1]'(by omega))

/-- RATE_POS (R4, R204): `rateRaw` where that list is strictly increasing. Every strictly increasing
list is the value for some `rateRaw` and no other list is, so the constant ranges over exactly the
lists R204 admits; the other branch only gives the constant a value of that kind when `rateRaw` is
none (notes/assumptions/2.md). -/
def Config.ratePos : Vector (Fin 16) 8 :=
  if Config.increasing Config.rateRaw then Config.rateRaw
  else Vector.ofFn fun j => ⟨j.val, by omega⟩

/-- The block's own PRNG parameters. -/
def Config.prng : Prng where
  perm := Config.perm
  seedInit := Config.seedInit
  ratePos := Config.ratePos

end Sys2Proof
end

