-- ==== Sys2Proof/Machine/State.lean ====
section
/-! DEFINITION. The state of the block (spec/10_state.md), the host's accesses to its port, and the state
after reset (R55, spec/70_reset_and_hazards.md R351). The block has no program counter, no general
registers, no flags beyond STATUS and no memory (R10, R49, R50, R80). -/

namespace Sys2Proof.Machine

/-- A share-vector register: 8 words, a sharing of order D in words 0..D-1 (R31). -/
abbrev ShareVec := Vector Word 8

/-- The banked state of one engine lane (R30). -/
structure Lane where
  /-- V0..V15 (R31, R32). -/
  v    : Vector ShareVec 16
  /-- X0..X15, the public words (R33). -/
  x    : Vector Word 16
  /-- SEED[0..3], the raw seed (R34). -/
  seed : Vector Word 4
  /-- CORE, the PRNG core state, flat index k = 4r + c (R36). -/
  core : Vector Word 16
  /-- TAPE[0..15] (R38). -/
  tape : Vector Word 16
  /-- TK[e][c], the tweak schedule: 3 entries of 4 words (R39). -/
  tk   : Vector (Vector Word 4) 3
  deriving DecidableEq, Repr

/-- CFG (R40): bits [31:9] are ignored on write and read 0, so they hold nothing. -/
structure Cfg where
  /-- D, bits [3:0]: the masking order; 0 before configuration. -/
  d      : BitVec 4
  /-- RND, bits [7:4]: the round count ROUNDS, normalised; 0 before configuration. -/
  rnd    : BitVec 4
  /-- RNG_DIS, bit [8]: draws return zero words (R205). -/
  rngDis : Bool
  deriving DecidableEq, Repr

/-- The error codes of STATUS.ERR, by name (spec/60_exceptions.md R300); codes 13..255 are never
produced. -/
inductive ErrCode
  /-- 0: no fault taken. -/
  | none
  /-- 1: E_ILLEGAL. -/
  | illegal
  /-- 2: E_OPERAND. -/
  | operand
  /-- 3: E_NOCFG. -/
  | noCfg
  /-- 4: E_NODP. -/
  | noDp
  /-- 5: E_EXIT. -/
  | exit
  /-- 6: E_SCHED. -/
  | sched
  /-- 7: E_TAPE. -/
  | tape
  /-- 8: E_CFG_ORDER. -/
  | cfgOrder
  /-- 9: E_CFG_ROUNDS. -/
  | cfgRounds
  /-- 10: E_CFG_LOCKED. -/
  | cfgLocked
  /-- 11: E_PORT. -/
  | port
  /-- 12: E_LANE. -/
  | lane
  deriving DecidableEq, Repr

/-- STATUS (R41): bits [7:5] and [31:16] read 0, so they hold nothing. PRNG_RUN is the PRNG mode of R35,
stored here only. -/
structure Status where
  /-- bit [0]: a CFG write has been accepted. -/
  cfgValid : Bool
  /-- bit [1]: the PRNG mode, UNINIT (false) or RUN (true). -/
  prngRun  : Bool
  /-- bit [2]: MINIT or MPERM has run since reset. -/
  dpInit   : Bool
  /-- bit [3]: the last MPERM stopped at the early-exit marker. -/
  early    : Bool
  /-- bit [4]: a fault has been taken. -/
  fault    : Bool
  /-- bits [15:8]: the code of the first fault. -/
  err      : ErrCode
  deriving DecidableEq, Repr

/-- EXIT, the early-exit marker (R42): bits [3:2] and [31:8] are ignored on write and read 0. -/
structure ExitMarker where
  /-- EN, bit [0]. -/
  en    : Bool
  /-- HALF, bit [1]: false the first half-round, true the second. -/
  half  : Bool
  /-- ROUND, bits [7:4], 0-based. -/
  round : BitVec 4
  deriving DecidableEq, Repr

/-- One thing the host does to the block (R330): a port access at a byte address of the 4096-byte port
(R80), of some width in bits (R81 takes 32 only); a 32-bit port access to a V word named by its register
and word number, since R31 lets the host read and write every V word and R82 gives V8..V15 no address of
their own (notes/assumptions/14.md); or the external reset input (R350). -/
inductive Access
  /-- A port read of `bits` bits at `addr`. -/
  | read (addr : BitVec 12) (bits : Nat)
  /-- A port write of `bits` bits at `addr`; `w` is the word written when `bits` is 32. -/
  | write (addr : BitVec 12) (bits : Nat) (w : Word)
  /-- A read of word `i` of `V[r]` in the lane the window shows (R31). -/
  | readV (r : VReg) (i : Fin 8)
  /-- A write of word `i` of `V[r]` in the lane the window shows (R31). -/
  | writeV (r : VReg) (i : Fin 8) (w : Word)
  /-- The reset input is asserted. -/
  | reset
  deriving DecidableEq, Repr

/-- The whole state. `port` and `reply` are the model's own view of the host port, not registers of the
block: the accesses the host has yet to make, oldest first, and the word the last access returned
(notes/assumptions/3.md). -/
structure State where
  /-- The NL engine lanes, lane 0 first (R30). -/
  lanes     : List Lane
  cfg       : Cfg
  status    : Status
  exit      : ExitMarker
  /-- ERRINFO (R43). -/
  errinfo   : Word
  /-- CMD_COUNT (R44). -/
  cmdCount  : Word
  /-- PERM_COUNT (R45). -/
  permCount : Word
  /-- LANESEL, bits [3:0] (R46); bits [31:4] read 0. -/
  laneSel   : BitVec 4
  /-- RC, the 8-bit round-constant LFSR (R51). -/
  rc        : BitVec 8
  /-- OFF, the tweak-schedule cursor (R52). -/
  off       : Word
  /-- CURSOR, 5 bits, the index of the next tape word (R37). -/
  cursor    : BitVec 5
  /-- The host's accesses still to come, oldest first (R91: one at a time, in issue order). -/
  port      : List Access
  /-- The word the last access returned to the host: `some` after a read, `none` after a write or a
  reset, which return nothing (R330). -/
  reply     : Option Word
  deriving DecidableEq, Repr

/-- A reason to stop the machine with a fault: there is none. Every error of the block is a state of the
block (R310, R311) and is taken as a next state, so no meaning answers `fault`: safe. -/
inductive Fault
  deriving DecidableEq, Repr

/-- A reason to refuse a command. -/
inductive Refusal
  /-- Raised by an arm of `exec` whose command has no meaning yet (no arm does): safe. -/
  | notModelled (mnemonic : String)
  deriving DecidableEq, Repr

/-- A lane at reset: every word 0 (R55, R351). -/
def resetLane : Lane where
  v    := Vector.replicate 16 (Vector.replicate 8 0)
  x    := Vector.replicate 16 0
  seed := Vector.replicate 4 0
  core := Vector.replicate 16 0
  tape := Vector.replicate 16 0
  tk   := Vector.replicate 3 (Vector.replicate 4 0)

/-- A block of `nl` lanes right after reset: "No state of the block is left unspecified at reset" (R55,
R351). The host has issued nothing yet. -/
def resetOf (nl : Nat) : State where
  lanes     := List.replicate nl resetLane
  cfg       := { d := 0, rnd := 0, rngDis := false }
  status    := { cfgValid := false, prngRun := false, dpInit := false, early := false,
                 fault := false, err := .none }
  exit      := { en := false, half := false, round := 0 }
  errinfo   := 0
  cmdCount  := 0
  permCount := 0
  laneSel   := 0
  rc        := 0
  off       := 0
  cursor    := 0
  port      := []
  reply     := none

/-- The block right after reset, with its NL lanes (R4, R55). -/
def State.reset : State := resetOf Config.nl

end Sys2Proof.Machine
end

