-- ==== Sys2Proof/Machine/Flags.lean ====
section
/-! DEFINITION. The registers software sees as words, assembled from their fields and taken apart again:
STATUS with its error code, CFG, EXIT, ID (spec/10_state.md R40-R42, R47; spec/60_exceptions.md R300).
STATUS holds the block's only flags (R50). -/

namespace Sys2Proof.Machine

/-- The number of an error code (R300). -/
def ErrCode.code : ErrCode → BitVec 8
  | .none => 0
  | .illegal => 1
  | .operand => 2
  | .noCfg => 3
  | .noDp => 4
  | .exit => 5
  | .sched => 6
  | .tape => 7
  | .cfgOrder => 8
  | .cfgRounds => 9
  | .cfgLocked => 10
  | .port => 11
  | .lane => 12

/-- A flag at its bit position. -/
def flagAt (b : Bool) (k : Nat) : Word := fieldAt (BitVec.ofBool b) k

/-- STATUS as a word (R41). -/
def Status.word (t : Status) : Word :=
  fieldAt t.err.code 8 ||| flagAt t.fault 4 ||| flagAt t.early 3 ||| flagAt t.dpInit 2 |||
    flagAt t.prngRun 1 ||| flagAt t.cfgValid 0

/-- CFG as a word (R40). -/
def Cfg.word (c : Cfg) : Word :=
  flagAt c.rngDis 8 ||| fieldAt c.rnd 4 ||| fieldAt c.d 0

/-- EXIT as a word (R42). -/
def ExitMarker.word (e : ExitMarker) : Word :=
  fieldAt e.round 4 ||| flagAt e.half 1 ||| flagAt e.en 0

/-- EXIT from a written word: "EXIT <- {24'b0, w[7:4], 2'b0, w[1:0]}" (R85). -/
def exitOfWord (w : Word) : ExitMarker where
  en    := w.getLsbD 0
  half  := w.getLsbD 1
  round := w.extractLsb' 4 4

/-- ID of a block of `nl` lanes: NL [7:0], DMAX = 8 [11:8], the largest ROUNDS = 6 [15:12], NV = 16
[23:16], the edition 0x07 [31:24] (R47). -/
def idWord (nl : Nat) : Word :=
  fieldAt 0x07#8 24 ||| fieldAt 16#8 16 ||| fieldAt 6#4 12 ||| fieldAt 8#4 8 |||
    fieldAt (BitVec.ofNat 8 nl) 0

/-- The masking order D (R40). -/
def State.order (s : State) : Nat := s.cfg.d.toNat

/-- The round count ROUNDS (R40). -/
def State.rounds (s : State) : Nat := s.cfg.rnd.toNat

/-- The number of engine lanes NL of this block (R4, R30). -/
def State.nl (s : State) : Nat := s.lanes.length

/-- The block's one output signal: the level `fault` = STATUS.FAULT (R310, R320). -/
def State.faultLine (s : State) : Bool := s.status.fault

end Sys2Proof.Machine
end

