-- ==== Sys2Proof/Machine/Operands.lean ====
section
/-! DEFINITION. The operand forms of the commands: share-vector registers (read whole, written in words
0..D-1 only), groups of consecutive share-vector registers, public registers, tape and schedule words,
and the range checks a command's operands meet at issue (spec/30_encoding.md R126, R127;
spec/10_state.md R31-R39; spec/41_masking.md R160). Each is written for one engine lane (R12). -/

namespace Sys2Proof.Machine

/-- Word i of a share-vector, 0 past its eight words. -/
def share (s : ShareVec) (i : Nat) : Word :=
  if h : i < 8 then s[i] else 0

/-- XOR a word into share i; nothing for an i past the eight words. -/
def xorShare (s : ShareVec) (i : Nat) (w : Word) : ShareVec :=
  if h : i < 8 then s.set i (s[i] ^^^ w) else s

/-- "Only words 0..D-1 of the destination are written" (R160(b)): `new` in words below `d`, `old` in the
others. -/
def mergeShares (d : Nat) (new old : ShareVec) : ShareVec :=
  Vector.ofFn fun i => if i.val < d then new[i] else old[i]

/-- Write the share-vectors `new` into consecutive registers from number `base` up, words 0..D-1 of each
(R160(b)). One register is a group of one; SLBOX writes two and SSBOX four (R126). -/
def Lane.writeGroup (d base : Nat) (new : List ShareVec) (lane : Lane) : Lane :=
  { lane with
    v := Vector.ofFn fun r =>
      if base ≤ r.val then
        match new[r.val - base]? with
        | some n => mergeShares d n lane.v[r]
        | none => lane.v[r]
      else lane.v[r] }

/-- The register `k` above `r`, for a group operand VD..VD+3 or a pair V, V+1. The range check R126
comes first, so it never passes V15. -/
def regAbove (r : VReg) (k : Nat) : VReg := Fin.ofNat 16 (r.val + k)

/-- Write words from `k` up into the public registers X (RGET, R209). -/
def Lane.writePublic (k : XReg) (new : List Word) (lane : Lane) : Lane :=
  { lane with
    x := Vector.ofFn fun j =>
      if k.val ≤ j.val then (new[j.val - k.val]?).getD lane.x[j] else lane.x[j] }

/-- TAPE[k] (R38), 0 past the sixteen words, which no draw asks for (R201). -/
def Lane.tapeWord (lane : Lane) (k : Nat) : Word :=
  if h : k < 16 then lane.tape[k] else 0

/-- TK[e][c] (R39), for e = 0, 1, 2. "e = 3 never occurs" (R249): it reads as 0 in states that no run
reaches (notes/assumptions/6.md). -/
def Lane.tweakWord (lane : Lane) (e : Nat) (c : Fin 4) : Word :=
  if h : e < 3 then lane.tk[e][c] else 0

/-- The operand ranges a command is refused for with E_OPERAND (R126). -/
def operandBad : Instr → Bool
  | .nop => false
  | .sadd _ _ _ => false
  | .smul _ _ _ => false
  | .sref _ _ => false
  | .spub _ _ _ => false
  | .smov _ _ => false
  | .slref _ _ => false
  | .sfresh _ => false
  | .ssbox vd n => decide (12 < vd.val) || decide (1 < n.val)
  | .slbox vd va => decide (14 < vd.val) || decide (14 < va.val)
  | .minit => false
  | .mhalf n => decide (1 < n.val)
  | .mkey => false
  | .mperm => false
  | .rinit => false
  | .rget xk n => n.val == 0 || decide (16 < n.val) || decide (16 < xk.val + n.val)
  | .rstep => false

end Sys2Proof.Machine
end

