-- ==== Sys2Proof/Machine/Gadgets.lean ====
section
/-! DEFINITION. The functions the commands compute, on the words of one lane: the masking gadgets of
spec/41_masking.md (R161-R167) and the functions of the masked datapath of spec/43_mperm.md
(R240-R244). A gadget that draws takes the words it draws as a list, in draw order (R11): a draw reads
no share, so the words can be drawn first (notes/assumptions/5.md). -/

namespace Sys2Proof.Machine

/-- The value of a sharing of order d: the XOR of its words 0..d-1 (R13). -/
def unmask (d : Nat) (s : ShareVec) : Word :=
  (List.range d).foldl (fun acc i => acc ^^^ share s i) 0

/-- Share-wise XOR (R161). -/
def shareXor (a b : ShareVec) : ShareVec := Vector.ofFn fun i => a[i] ^^^ b[i]

/-- The unordered pairs of shares in the order SMUL takes them: i ascending, then j ascending from i+1
(R162, D11). -/
def iswPairs (d : Nat) : List (Nat × Nat) :=
  (List.range d).flatMap fun i => (List.range' (i + 1) (d - 1 - i)).map fun j => (i, j)

/-- The random words an ISW multiplication draws: D·(D-1)/2 (R162, R168). -/
def iswDraws (d : Nat) : Nat := d * (d - 1) / 2

/-- One pair of the ISW multiplication with its random word r: t = (a[i] & b[j]) ^ r,
t2 = t ^ (a[j] & b[i]); r goes into out[i] and t2 into out[j] (R162). -/
def iswPair (a b : ShareVec) (out : ShareVec) (p : (Nat × Nat) × Word) : ShareVec :=
  let i := p.1.1
  let j := p.1.2
  let r := p.2
  let t := (share a i &&& share b j) ^^^ r
  let t2 := t ^^^ (share a j &&& share b i)
  xorShare (xorShare out i r) j t2

/-- ISW secure multiplication (R162) with its drawn words. -/
def isw (d : Nat) (a b : ShareVec) (ws : List Word) : ShareVec :=
  ((iswPairs d).zip ws).foldl (iswPair a b) (Vector.ofFn fun i => a[i] &&& b[i])

/-- The share pairs a refresh randomises, in draw order: for each distance, i = 0..D-1 with
(i + dist) mod D; distance 1 alone for D < 4, distances 1 then 3 for D >= 4 (R163, D12). -/
def refreshPairs (d : Nat) : List (Nat × Nat) :=
  (if d < 4 then [1] else [1, 3]).flatMap fun dist =>
    (List.range d).map fun i => (i, (i + dist) % d)

/-- The random words a refresh draws: D for D < 4, 2·D for D >= 4 (R163, R168). -/
def refreshDraws (d : Nat) : Nat := if d < 4 then d else 2 * d

/-- The SNI refresh (R163) with its drawn words: each is XORed into both shares of its pair. -/
def refresh (d : Nat) (s : ShareVec) (ws : List Word) : ShareVec :=
  ((refreshPairs d).zip ws).foldl (fun s p => xorShare (xorShare s p.1.1 p.2) p.1.2 p.2) s

/-- The lightweight refresh (R166) with its D-1 drawn words: word i into share i, and their XOR into the
last share. -/
def lightRefresh (d : Nat) (s : ShareVec) (ws : List Word) : ShareVec :=
  let r := ((List.range (d - 1)).zip ws).foldl
    (fun (q : ShareVec × Word) p => (xorShare q.1 p.1 p.2, q.2 ^^^ p.2)) (s, 0)
  xorShare r.1 (d - 1) r.2

/-- The fresh sharing made of the drawn words, share 0 first (R167, D13). -/
def freshShares (ws : List Word) : ShareVec :=
  Vector.ofFn fun i => (ws[i.val]?).getD 0

/-- 32-bit right rotation: `(x >> c) | (x << (32-c))` for 0 < c < 32 and `rotr(x, 0) = x` (R9). -/
def rotr (x : Word) (c : Nat) : Word :=
  if c = 0 then x else (x >>> c) ||| (x <<< (32 - c))

/-- Tweak expansion of the raw tweak t (R240). -/
def tweakExpand (t0 t1 t2 t3 : Word) : Vector (Vector Word 4) 3 :=
  #v[#v[t0, t1, t2, t3],
     #v[t0 ^^^ t2, t1 ^^^ t3, t0, t1],
     #v[t2, t3, t0 ^^^ t2, t1 ^^^ t3]]

/-- The round-constant LFSR update: `((x ^ (b << 3)) | (b << 4)) >> 1` with b = x & 1 (R241, D23). -/
def lfsrNext (x : BitVec 8) : BitVec 8 :=
  let b := x &&& 1
  ((x ^^^ (b <<< 3)) ||| (b <<< 4)) >>> 1

/-- The bit of RC injected into share zero of cipher lane c: bit 3-c as the value 0 or 1 (R242, D24). -/
def rcBit (rc : BitVec 8) (c : Fin 4) : Word :=
  ((rc >>> (3 - c.val)) &&& 1).zeroExtend 32

/-- Lbox on a pair of words (R244). -/
def lbox (x y : Word) : Word × Word :=
  let a := x ^^^ rotr x 12
  let b := y ^^^ rotr y 12
  let a := a ^^^ rotr a 3
  let b := b ^^^ rotr b 3
  let a := a ^^^ rotr x 17
  let b := b ^^^ rotr y 17
  let c := a ^^^ rotr a 31
  let d := b ^^^ rotr b 31
  let a := a ^^^ rotr d 26
  let b := b ^^^ rotr c 25
  let a := a ^^^ rotr c 15
  let b := b ^^^ rotr d 15
  (a, b)

/-- Lbox applied share by share to a pair of share-vectors: the first register of the result (R244,
R246). -/
def lboxFst (x y : ShareVec) : ShareVec := Vector.ofFn fun i => (lbox x[i] y[i]).1

/-- Lbox applied share by share to a pair of share-vectors: the second register of the result. -/
def lboxSnd (x y : ShareVec) : ShareVec := Vector.ofFn fun i => (lbox x[i] y[i]).2

/-- Four share-vectors, the operands or the results of the Sbox layer: a, b, c, d of R243. -/
structure Quad where
  a : ShareVec
  b : ShareVec
  c : ShareVec
  d : ShareVec

/-- The random words of a MaskedSbox: four multiplications, and the refresh when it is asked for (R243,
R245). -/
def sboxDraws (d : Nat) (ref : Bool) : Nat :=
  4 * iswDraws d + (if ref then refreshDraws d else 0)

/-- The masked Sbox layer with its drawn words (R243): the multiplications and the refresh run, and take
their words, in the order written; the refresh acts on y1 after the XOR with c and before y1 is used
(D26, D27). -/
def maskedSbox (d : Nat) (q : Quad) (ref : Bool) (ws : List Word) : Quad :=
  let k := iswDraws d
  let y1 := shareXor (isw d q.a q.b ws) q.c
  let ws := ws.drop k
  let y1 := if ref then refresh d y1 ws else y1
  let ws := if ref then ws.drop (refreshDraws d) else ws
  let y0 := shareXor (isw d q.d q.a ws) q.b
  let ws := ws.drop k
  let y3 := shareXor (isw d y1 q.d ws) q.a
  let ws := ws.drop k
  let y2 := shareXor (isw d y0 y1 ws) q.d
  { a := y0, b := y1, c := y2, d := y3 }

end Sys2Proof.Machine
end

