-- ==== Sys2Proof/Machine/Ops.lean ====
section
/-! DEFINITION. The shared operations of the block: updating every lane in lock-step, taking a fault and
the one way out of it, and the issue of a command with its checks in order (spec/60_exceptions.md
R304, R310-R313; spec/44_system.md R290, R292; spec/00_scope.md R12). -/

namespace Sys2Proof.Machine

/-- What a command or an access answers. -/
abbrev Result := Host.Outcome State Fault Refusal

/-- Every engine lane does the same (R12, R360). -/
def State.mapLanes (f : Lane → Lane) (s : State) : State :=
  { s with lanes := s.lanes.map f }

/-- Every engine lane does the same, each with its own drawn words (R12). -/
def State.zipLanes (f : Lane → List Word → Lane) (ws : List (List Word)) (s : State) : State :=
  { s with lanes := List.zipWith f s.lanes ws }

/-- Fault entry, `raise Fault(code, info)` (R310): the first fault is kept (R314), and the access or
command that raised it has no other effect (R312). The block has no handler and no vector. -/
def raiseFault (code : ErrCode) (info : Word) (s : State) : State :=
  if s.status.fault then s
  else { s with status := { s.status with fault := true, err := code }, errinfo := info }

/-- Reset, the only way out of the faulted state (R313, R350, R351): every register takes its reset value
and nothing survives. The block keeps its number of lanes, and the host the accesses it has yet to
make. -/
def resetBlock (s : State) : State :=
  { resetOf s.nl with port := s.port }

/-- What a command is checked for beside its operands (R303): whether it needs a configuration and an
initialised datapath, and the conditions of E_EXIT, E_SCHED and E_TAPE. -/
structure Checks where
  needsCfg : Bool := true
  needsDp  : Bool := false
  exit     : Bool := false
  sched    : Bool := false
  tape     : Bool := false

/-- The first check that applies, in the order of R304: E_OPERAND, E_NOCFG, E_NODP, E_EXIT, E_SCHED,
E_TAPE. -/
def firstFault (badOperand : Bool) (c : Checks) (t : Status) : Option ErrCode :=
  if badOperand then some .operand
  else if c.needsCfg && !t.cfgValid then some .noCfg
  else if c.needsDp && !t.dpInit then some .noDp
  else if c.exit then some .exit
  else if c.sched then some .sched
  else if c.tape then some .tape
  else none

/-- "incremented by one, modulo 2^32, after the Execute step of every issued command that does not fault"
(R292). -/
def countCommand (s : State) : State := { s with cmdCount := s.cmdCount + 1 }

/-- The issue of a decoded command (R290): refused with no effect while STATUS.FAULT = 1 (R304 step 1,
R311); otherwise the first check that applies is taken as a fault with the command word in ERRINFO
(R300, R312), and a command that passes them all is executed and counted. -/
def command (i : Instr) (c : Checks) (body : State → State) (s : State) : Result :=
  if s.status.fault then .next s
  else
    match firstFault (operandBad i) c s.status with
    | some e => .next (raiseFault e (encode i) s)
    | none => .next (countCommand (body s))

end Sys2Proof.Machine
end

