-- ==== Sys2Proof/Machine/Prng.lean ====
section
/-! DEFINITION. The PRNG and its tape (spec/42_prng.md): seeding, the refill, the draw primitive, and the
meanings of RINIT, RGET and RSTEP. The operations take the parameters PERM, SEED_INIT and RATE_POS as
an argument (R4); the meanings use the block's own. -/

namespace Sys2Proof.Machine

/-- Seed(), the leave-uninitialized step: CORE from SEED_INIT in every lane, CURSOR = 16, PRNG_RUN = 1
(R202). TAPE and PERM_COUNT do not change. -/
def seedPrng (P : Prng) (s : State) : State :=
  { s with
    lanes := s.lanes.map fun lane => { lane with core := P.seedInit lane.seed }
    cursor := 16
    status := { s.status with prngRun := true } }

/-- One lock-step PRNG step: PERM on every lane's CORE, and PERM_COUNT + 1 modulo 2^32 (R45, R203). -/
def stepCores (P : Prng) (s : State) : State :=
  { s with
    lanes := s.lanes.map fun lane => { lane with core := P.perm lane.core }
    permCount := s.permCount + 1 }

/-- The 8 words of a step into half h of the tape: TAPE[8h + j] is CORE[RATE_POS[j]] (R203). -/
def extractHalf (P : Prng) (h : Nat) (s : State) : State :=
  s.mapLanes fun lane =>
    { lane with
      tape := Vector.ofFn fun k =>
        if k.val / 8 = h then lane.core[P.ratePos[k.val % 8]'(Nat.mod_lt _ (by decide))]
        else lane.tape[k] }

/-- Refill(): two PRNG steps, each writing its half of the tape, then CURSOR = 0 (R203). -/
def refill (P : Prng) (s : State) : State :=
  let s := extractHalf P 0 (stepCores P s)
  let s := extractHalf P 1 (stepCores P s)
  { s with cursor := 0 }

/-- "if STATUS.PRNG_RUN = 0: Seed()", the first line of a draw and of RSTEP (R201, R210). -/
def ensureRunning (P : Prng) (s : State) : State :=
  if s.status.prngRun then s else seedPrng P s

/-- "while CURSOR >= 16: Refill()": a refill leaves CURSOR = 0, so it "runs at most once" (R201). -/
def refillAtEnd (P : Prng) (s : State) : State :=
  if 16 ≤ s.cursor.toNat then refill P s else s

/-- The state a draw reads the tape in: seeded if the PRNG is UNINIT, refilled if CURSOR >= 16 (R201). -/
def readyTape (P : Prng) (s : State) : State := refillAtEnd P (ensureRunning P s)

/-- Draw(n) (R201): n consecutive tape words for every lane, zeros instead when RNG_DIS = 1 (R205), and
CURSOR advanced by n. The words come lane by lane, in lane order. -/
def draw (P : Prng) (n : Nat) (s : State) : State × List (List Word) :=
  let s := readyTape P s
  ({ s with cursor := s.cursor + BitVec.ofNat 5 n },
   s.lanes.map fun lane => (List.range n).map fun k =>
     if s.cfg.rngDis then 0 else lane.tapeWord (s.cursor.toNat + k))

/-- `k` draws of one word each, in order: how the masking and datapath commands draw (R160(c), D10). Each
lane's words stand in draw order. -/
def drawWords (P : Prng) : Nat → State → State × List (List Word)
  | 0, s => (s, s.lanes.map fun _ => [])
  | k + 1, s =>
    let r := draw P 1 s
    let q := drawWords P k r.1
    (q.1, List.zipWith (· ++ ·) r.2 q.2)

/-- RINIT: back to the uninitialized state (R208): CORE, TAPE and CURSOR are zeroed; SEED, PERM_COUNT and
every other register keep their values. -/
def rinitBody (s : State) : State :=
  { s with
    lanes := s.lanes.map fun lane =>
      { lane with core := Vector.replicate 16 0, tape := Vector.replicate 16 0 }
    cursor := 0
    status := { s.status with prngRun := false } }

/-- The cursor a draw would start from, after the seed or refill it would cause: `c0` of R209. -/
def cursorAfterRefill (s : State) : Nat :=
  if s.status.prngRun && decide (s.cursor.toNat < 16) then s.cursor.toNat else 0

/-- RGET's execution: Draw(n), word k of each lane into its X[xK + k] (R209). -/
def rgetBody (P : Prng) (xk : XReg) (n : Nat) (s : State) : State :=
  let r := draw P n s
  r.1.zipLanes (fun lane ws => lane.writePublic xk ws) r.2

/-- RSTEP's execution: seed first if UNINIT, then one step; TAPE and CURSOR otherwise unchanged (R210). -/
def rstepBody (P : Prng) (s : State) : State :=
  stepCores P (ensureRunning P s)

/-- RINIT (R208). -/
def execRinit (s : State) : Result := command .rinit {} rinitBody s

/-- RGET (R209): E_TAPE when the tape holds fewer words than asked for past the cursor, before any state
change. -/
def execRget (xk : XReg) (n : Imm) (s : State) : Result :=
  command (.rget xk n) { tape := decide (16 < cursorAfterRefill s + n.val) }
    (rgetBody Config.prng xk n.val) s

/-- RSTEP (R210). -/
def execRstep (s : State) : Result := command .rstep {} (rstepBody Config.prng) s

end Sys2Proof.Machine
end

