-- ==== Sys2Proof/Machine/Masking.lean ====
section
/-! DEFINITION. The masking arithmetic commands (spec/41_masking.md). In every one the sources are read in
full before a destination word is written (R160(a)): the lane the body is given is the snapshot. -/

namespace Sys2Proof.Machine

/-- A command that draws `k` words, one at a time, and then does the same to every lane with that lane's
words (R12, R160(c)). -/
def drawThen (P : Prng) (k : Nat) (f : Lane → List Word → Lane) (s : State) : State :=
  let r := drawWords P k s
  r.1.zipLanes f r.2

/-- SADD: V[vD] <- V[vA] ^ V[vB], share-wise (R161). -/
def saddBody (vd va vb : VReg) (s : State) : State :=
  s.mapLanes fun lane => lane.writeGroup s.order vd [shareXor lane.v[va] lane.v[vb]]

/-- SMUL: V[vD] <- ISW(V[vA], V[vB]), drawing D·(D-1)/2 words (R162). -/
def smulBody (P : Prng) (vd va vb : VReg) (s : State) : State :=
  drawThen P (iswDraws s.order)
    (fun lane ws => lane.writeGroup s.order vd [isw s.order lane.v[va] lane.v[vb] ws]) s

/-- SREF: V[vD] <- the SNI refresh of V[vA] (R163). -/
def srefBody (P : Prng) (vd va : VReg) (s : State) : State :=
  drawThen P (refreshDraws s.order)
    (fun lane ws => lane.writeGroup s.order vd [refresh s.order lane.v[va] ws]) s

/-- SPUB: V[vD] <- V[vA] with X[xK] XORed into share zero (R164). -/
def spubBody (vd va : VReg) (xk : XReg) (s : State) : State :=
  s.mapLanes fun lane => lane.writeGroup s.order vd [xorShare lane.v[va] 0 lane.x[xk]]

/-- SMOV: V[vD] <- V[vA] (R165). -/
def smovBody (vd va : VReg) (s : State) : State :=
  s.mapLanes fun lane => lane.writeGroup s.order vd [lane.v[va]]

/-- SLREF: V[vD] <- the lightweight refresh of V[vA], drawing D-1 words (R166). -/
def slrefBody (P : Prng) (vd va : VReg) (s : State) : State :=
  drawThen P (s.order - 1)
    (fun lane ws => lane.writeGroup s.order vd [lightRefresh s.order lane.v[va] ws]) s

/-- SFRESH: V[vD] <- D drawn words, share 0 first (R167). -/
def sfreshBody (P : Prng) (vd : VReg) (s : State) : State :=
  drawThen P s.order (fun lane ws => lane.writeGroup s.order vd [freshShares ws]) s

/-- SADD (R161). -/
def execSadd (vd va vb : VReg) (s : State) : Result :=
  command (.sadd vd va vb) {} (saddBody vd va vb) s

/-- SMUL (R162). -/
def execSmul (vd va vb : VReg) (s : State) : Result :=
  command (.smul vd va vb) {} (smulBody Config.prng vd va vb) s

/-- SREF (R163). -/
def execSref (vd va : VReg) (s : State) : Result :=
  command (.sref vd va) {} (srefBody Config.prng vd va) s

/-- SPUB (R164). -/
def execSpub (vd va : VReg) (xk : XReg) (s : State) : Result :=
  command (.spub vd va xk) {} (spubBody vd va xk) s

/-- SMOV (R165). -/
def execSmov (vd va : VReg) (s : State) : Result :=
  command (.smov vd va) {} (smovBody vd va) s

/-- SLREF (R166). -/
def execSlref (vd va : VReg) (s : State) : Result :=
  command (.slref vd va) {} (slrefBody Config.prng vd va) s

/-- SFRESH (R167). -/
def execSfresh (vd : VReg) (s : State) : Result :=
  command (.sfresh vd) {} (sfreshBody Config.prng vd) s

end Sys2Proof.Machine
end

