-- ==== Sys2Proof/Machine/Datapath.lean ====
section
/-! DEFINITION. The masked permutation datapath commands (spec/43_mperm.md): the layers SSBOX and SLBOX,
the steps MINIT, MHALF and MKEY, and the whole encryption MPERM with its early exit. V0..V3 hold the
masked state, V4..V7 the masked key, X0..X3 the plaintext, X4..X7 the tweak (R32, R33). -/

namespace Sys2Proof.Machine

/-- The share-vectors of registers r, r+1, r+2, r+3. -/
def Lane.quadAt (lane : Lane) (r : VReg) : Quad where
  a := lane.v[r]
  b := lane.v[regAbove r 1]
  c := lane.v[regAbove r 2]
  d := lane.v[regAbove r 3]

/-- Write four share-vectors from register r up. -/
def Lane.writeQuad (d : Nat) (r : VReg) (q : Quad) (lane : Lane) : Lane :=
  lane.writeGroup d r [q.a, q.b, q.c, q.d]

/-- The masked Sbox layer on the four registers from `r` up, in place (R243, R245). -/
def sboxLayer (P : Prng) (r : VReg) (ref : Bool) (s : State) : State :=
  drawThen P (sboxDraws s.order ref)
    (fun lane ws => lane.writeQuad s.order r (maskedSbox s.order (lane.quadAt r) ref ws)) s

/-- SLBOX: the pair (V[vA], V[vA+1]) through Lbox, share by share, into (V[vD], V[vD+1]) (R246). -/
def slboxBody (vd va : VReg) (s : State) : State :=
  s.mapLanes fun lane =>
    let x := lane.v[va]
    let y := lane.v[regAbove va 1]
    lane.writeGroup s.order vd [lboxFst x y, lboxSnd x y]

/-- The Lbox layer of a half-round: pairwise on cipher lanes (0,1) and (2,3) (R248). -/
def lboxLayer (s : State) : State :=
  s.mapLanes fun lane =>
    let q := lane.quadAt 0
    lane.writeQuad s.order 0
      { a := lboxFst q.a q.b, b := lboxSnd q.a q.b, c := lboxFst q.c q.d, d := lboxSnd q.c q.d }

/-- XOR one word into share zero of each cipher lane c: `f c` into V[c][0]. -/
def Quad.addPublic (q : Quad) (f : Fin 4 → Word) : Quad where
  a := xorShare q.a 0 (f 0)
  b := xorShare q.b 0 (f 1)
  c := xorShare q.c 0 (f 2)
  d := xorShare q.d 0 (f 3)

/-- InjectRC(): bit 3-c of RC into bit 0 of share zero of cipher lane c (R242). -/
def injectRc (s : State) : State :=
  s.mapLanes fun lane =>
    lane.writeQuad s.order 0 ((lane.quadAt 0).addPublic fun c => rcBit s.rc c)

/-- RC <- LfsrNext(RC) (R241). -/
def advanceRc (s : State) : State := { s with rc := lfsrNext s.rc }

/-- What a half-round does after its Sbox layer: the Lbox, the constant injection with the RC value before
the update, and the LFSR update (R248). -/
def linearHalf (s : State) : State := advanceRc (injectRc (lboxLayer s))

/-- MINIT (R247): TK from the raw tweak X4..X7; the state is the key, share-wise, with TK0 and the
plaintext X0..X3 in share zero; RC = 0x08, OFF = 0x924, DP_INIT = 1. -/
def minitBody (s : State) : State :=
  { s with
    lanes := s.lanes.map fun lane =>
      let tk := tweakExpand lane.x[4] lane.x[5] lane.x[6] lane.x[7]
      let loaded : Lane := { lane with tk := tk }
      loaded.writeQuad s.order 0
        ((lane.quadAt 4).addPublic fun c => tk[0][c] ^^^ lane.x[Fin.ofNat 16 c.val])
    rc := 0x08
    off := 0x924
    status := { s.status with dpInit := true } }

/-- MHALF: one half-round, r the refresh flag (R248). -/
def mhalfBody (P : Prng) (ref : Bool) (s : State) : State :=
  linearHalf (sboxLayer P 0 ref s)

/-- MKEY (R249): OFF is shifted before it is read; the masked key is XORed in share-wise and the tweak
entry into share zero. -/
def mkeyBody (s : State) : State :=
  let off := s.off >>> 2
  let e := (off &&& 3).toNat
  { s with
    lanes := s.lanes.map fun lane =>
      let st := lane.quadAt 0
      let key := lane.quadAt 4
      let keyed : Quad :=
        { a := shareXor st.a key.a, b := shareXor st.b key.b,
          c := shareXor st.c key.c, d := shareXor st.d key.d }
      lane.writeQuad s.order 0 (keyed.addPublic fun c => lane.tweakWord e c)
    off := off }

/-- STATUS.EARLY <- b (R250, R251). -/
def setEarly (b : Bool) (s : State) : State :=
  { s with status := { s.status with early := b } }

/-- The marker names half-round `half` of round `r` (R250). -/
def ExitMarker.meets (m : ExitMarker) (r : Nat) (half : Bool) : Bool :=
  m.en && m.round.toNat == r && m.half == half

/-- `n` rounds of MPERM from round number `r` (R250): two half-rounds, the first with the refresh, then
the MKEY body. It returns right after the Sbox layer of the half-round the marker names, with EARLY
set (R251). The marker is the one read when MPERM started (R363). -/
def mpermRounds (P : Prng) (m : ExitMarker) : Nat → Nat → State → State
  | 0, _, s => s
  | n + 1, r, s =>
    let s := sboxLayer P 0 true s
    if m.meets r false then setEarly true s
    else
      let s := sboxLayer P 0 false (linearHalf s)
      if m.meets r true then setEarly true s
      else mpermRounds P m n (r + 1) (mkeyBody (linearHalf s))

/-- MPERM: the whole masked encryption (R250). -/
def mpermBody (P : Prng) (s : State) : State :=
  mpermRounds P s.exit s.rounds 0 (setEarly false (minitBody s))

/-- SSBOX (R245). -/
def execSsbox (vd : VReg) (n : Imm) (s : State) : Result :=
  command (.ssbox vd n) {} (sboxLayer Config.prng vd (n.val == 1)) s

/-- SLBOX (R246). -/
def execSlbox (vd va : VReg) (s : State) : Result :=
  command (.slbox vd va) {} (slboxBody vd va) s

/-- MINIT (R247). -/
def execMinit (s : State) : Result := command .minit {} minitBody s

/-- MHALF (R248): E_NODP while STATUS.DP_INIT = 0. -/
def execMhalf (n : Imm) (s : State) : Result :=
  command (.mhalf n) { needsDp := true } (mhalfBody Config.prng (n.val == 1)) s

/-- MKEY (R249): E_NODP while STATUS.DP_INIT = 0, E_SCHED when OFF = 0. -/
def execMkey (s : State) : Result :=
  command .mkey { needsDp := true, sched := s.off == 0 } mkeyBody s

/-- MPERM (R250): E_EXIT when EXIT.EN = 1 and EXIT.ROUND >= ROUNDS. -/
def execMperm (s : State) : Result :=
  command .mperm { exit := s.exit.en && decide (s.rounds ≤ s.exit.round.toNat) }
    (mpermBody Config.prng) s

end Sys2Proof.Machine
end

