-- ==== Sys2Proof/Machine/System.lean ====
section
/-! DEFINITION. The system command (spec/44_system.md): NOP, the one command legal before configuration. -/

namespace Sys2Proof.Machine

/-- NOP: "no state change other than CMD_COUNT"; it does not need STATUS.CFG_VALID (R291). -/
def execNop (s : State) : Result := command .nop { needsCfg := false } id s

end Sys2Proof.Machine
end

