-- ==== Sys2Proof/Machine/Dispatch.lean ====
section
/-! DEFINITION. The dispatch of a decoded command to its meaning (spec/44_system.md R290, Execute(w): "the
rule of w's mnemonic"). -/

namespace Sys2Proof.Machine

def exec (i : Instr) (s : State) : Host.Outcome State Fault Refusal :=
  match i with
  | .nop => Sys2Proof.Machine.execNop s
  | .sadd vd va vb => Sys2Proof.Machine.execSadd vd va vb s
  | .smul vd va vb => Sys2Proof.Machine.execSmul vd va vb s
  | .sref vd va => Sys2Proof.Machine.execSref vd va s
  | .spub vd va xk => Sys2Proof.Machine.execSpub vd va xk s
  | .smov vd va => Sys2Proof.Machine.execSmov vd va s
  | .slref vd va => Sys2Proof.Machine.execSlref vd va s
  | .sfresh vd => Sys2Proof.Machine.execSfresh vd s
  | .ssbox vd n => Sys2Proof.Machine.execSsbox vd n s
  | .slbox vd va => Sys2Proof.Machine.execSlbox vd va s
  | .minit => Sys2Proof.Machine.execMinit s
  | .mhalf n => Sys2Proof.Machine.execMhalf n s
  | .mkey => Sys2Proof.Machine.execMkey s
  | .mperm => Sys2Proof.Machine.execMperm s
  | .rinit => Sys2Proof.Machine.execRinit s
  | .rget xk n => Sys2Proof.Machine.execRget xk n s
  | .rstep => Sys2Proof.Machine.execRstep s

end Sys2Proof.Machine
end

