-- ==== Sys2Proof/Machine/Port.lean ====
section
/-! DEFINITION. The host port (spec/20_memory.md): the address map, reads, writes, session construction,
and one access of the host performed in full, a write of CMD included (spec/60_exceptions.md R301,
R302, R305, R311; spec/44_system.md R290). -/

namespace Sys2Proof.Machine

/-- A register of the port's address map (R82). -/
inductive PortReg
  | id | cfg | status | cmd | errinfo | exit | cmdCount | permCount | rc | off | cursor | laneSel
  | v (r : Fin 16) (i : Fin 8)
  | x (k : Fin 16)
  | seed (k : Fin 4)
  | core (k : Fin 16)
  | tape (k : Fin 16)
  | tk (e : Fin 3) (c : Fin 4)
  deriving DecidableEq, Repr

/-- The register at a byte address that is a multiple of 4 (R82); `none` is a reserved address (R87). The
V window is 0x100..0x1FF, which holds V0..V7 (notes/assumptions/4.md); V8..V15 the host names by register
(`Access.readV`, `Access.writeV`). -/
def portRegAt (addr : BitVec 12) : Option PortReg :=
  let a := addr.toNat
  if a < 0x030 then
    [PortReg.id, .cfg, .status, .cmd, .errinfo, .exit, .cmdCount, .permCount, .rc, .off, .cursor,
      .laneSel][a / 4]?
  else if a < 0x100 then none
  else if a < 0x200 then some (.v (Fin.ofNat 16 ((a - 0x100) / 32)) (Fin.ofNat 8 ((a - 0x100) / 4 % 8)))
  else if a < 0x240 then some (.x (Fin.ofNat 16 ((a - 0x200) / 4)))
  else if a < 0x250 then some (.seed (Fin.ofNat 4 ((a - 0x240) / 4)))
  else if a < 0x280 then none
  else if a < 0x2C0 then some (.core (Fin.ofNat 16 ((a - 0x280) / 4)))
  else if a < 0x300 then some (.tape (Fin.ofNat 16 ((a - 0x2C0) / 4)))
  else if a < 0x330 then some (.tk (Fin.ofNat 3 ((a - 0x300) / 16)) (Fin.ofNat 4 ((a - 0x300) / 4 % 4)))
  else none

/-- A word of the lane the window shows, lane LANESEL[3:0] (R83). LANESEL is below NL in every state a run
reaches; past it the window reads 0 (notes/assumptions/6.md). -/
def State.windowWord (s : State) (f : Lane → Word) : Word :=
  match s.lanes[s.laneSel.toNat]? with
  | some lane => f lane
  | none => 0

/-- Change the lane the window shows (R83). -/
def State.windowWrite (s : State) (f : Lane → Lane) : State :=
  { s with lanes := s.lanes.modify s.laneSel.toNat f }

/-- The word at a register (R84): CMD reads 0, words D..7 of a V register read 0, bits a register does not
define read 0. -/
def portValue (r : PortReg) (s : State) : Word :=
  match r with
  | .id => idWord s.nl
  | .cfg => s.cfg.word
  | .status => s.status.word
  | .cmd => 0
  | .errinfo => s.errinfo
  | .exit => s.exit.word
  | .cmdCount => s.cmdCount
  | .permCount => s.permCount
  | .rc => s.rc.zeroExtend 32
  | .off => s.off
  | .cursor => s.cursor.zeroExtend 32
  | .laneSel => s.laneSel.zeroExtend 32
  | .v r i => if i.val < s.order then s.windowWord fun lane => lane.v[r][i] else 0
  | .x k => s.windowWord fun lane => lane.x[k]
  | .seed k => s.windowWord fun lane => lane.seed[k]
  | .core k => s.windowWord fun lane => lane.core[k]
  | .tape k => s.windowWord fun lane => lane.tape[k]
  | .tk e c => s.windowWord fun lane => lane.tk[e][c]

/-- Session construction, the CFG write, with its checks in order (R301): E_CFG_LOCKED, E_CFG_ORDER,
E_CFG_ROUNDS; an accepted RND of 0 is stored as 6 (R40). -/
def cfgWrite (w : Word) (s : State) : State :=
  let d := w.extractLsb' 0 4
  let rnd := w.extractLsb' 4 4
  if s.status.cfgValid then raiseFault .cfgLocked w s
  else if d.toNat < 2 ∨ 8 < d.toNat then raiseFault .cfgOrder w s
  else if 6 < rnd.toNat then raiseFault .cfgRounds w s
  else
    { s with
      cfg := { d := d, rnd := if rnd = 0 then 6 else rnd, rngDis := w.getLsbD 8 }
      status := { s.status with cfgValid := true } }

/-- The LANESEL write (R46, R85): E_LANE for a lane the block does not have. -/
def laneSelWrite (w : Word) (s : State) : State :=
  let l := w.extractLsb' 0 4
  if s.nl ≤ l.toNat then raiseFault .lane w s else { s with laneSel := l }

/-- Issue(w), the CMD write (R290): refused while faulted, E_ILLEGAL for a word that is no command (R124),
otherwise the command itself, whose checks come next. -/
def issue (w : Word) (s : State) : Result :=
  if s.status.fault then .next s
  else
    match decode w with
    | .error _ => .next (raiseFault .illegal w s)
    | .ok i => exec i s

/-- E_PORT with the byte address (R81, R87, R302). -/
def portFault (addr : BitVec 12) (s : State) : State := raiseFault .port (addr.zeroExtend 32) s

/-- A host write of word `i` of `V[r]` in the lane the window shows (R31, R83, R85); a write to a word
i >= D is ignored (R86). -/
def hostWriteV (r : VReg) (i : Fin 8) (w : Word) (s : State) : State :=
  if i.val < s.order then
    s.windowWrite fun lane => { lane with v := lane.v.set r (lane.v[r].set i w) }
  else s

/-- The write of a register that takes writes, and of the others E_PORT (R85, R87). -/
def writeReg (addr : BitVec 12) (r : PortReg) (w : Word) (s : State) : Result :=
  match r with
  | .cfg => .next (cfgWrite w s)
  | .cmd => issue w s
  | .exit => .next { s with exit := exitOfWord w }
  | .laneSel => .next (laneSelWrite w s)
  | .v r i => .next (hostWriteV r i w s)
  | .x k => .next (s.windowWrite fun lane => { lane with x := lane.x.set k w })
  | .seed k => .next (s.windowWrite fun lane => { lane with seed := lane.seed.set k w })
  | .id => .next (portFault addr s)
  | .status => .next (portFault addr s)
  | .errinfo => .next (portFault addr s)
  | .cmdCount => .next (portFault addr s)
  | .permCount => .next (portFault addr s)
  | .rc => .next (portFault addr s)
  | .off => .next (portFault addr s)
  | .cursor => .next (portFault addr s)
  | .core _ => .next (portFault addr s)
  | .tape _ => .next (portFault addr s)
  | .tk _ _ => .next (portFault addr s)

/-- An access the port takes: 32 bits wide at a multiple of 4 (R81). -/
def accessFits (addr : BitVec 12) (bits : Nat) : Bool :=
  bits == 32 && addr.toNat % 4 == 0

/-- PortRead (R84): no state changes but the word returned; a read that faults returns 0 (R302), and
changes nothing while the block is faulted (R311). -/
def portRead (addr : BitVec 12) (bits : Nat) (s : State) : State :=
  match (if accessFits addr bits then portRegAt addr else none) with
  | some r => { s with reply := some (portValue r s) }
  | none => { portFault addr s with reply := some 0 }

/-- PortWrite (R85) with its checks in the order of R305: ignored while faulted, then width and alignment,
then reserved and read-only addresses, then the register's own check. -/
def portWrite (addr : BitVec 12) (bits : Nat) (w : Word) (s : State) : Result :=
  if s.status.fault then .next s
  else
    match (if accessFits addr bits then portRegAt addr else none) with
    | none => .next (portFault addr s)
    | some r => writeReg addr r w s

/-- PortRead of a V word named by its register (R31, R84): no state changes but the word returned. -/
def portReadV (r : VReg) (i : Fin 8) (s : State) : State :=
  { s with reply := some (portValue (.v r i) s) }

/-- PortWrite of a V word named by its register (R31, R85): ignored while faulted (R311). -/
def portWriteV (r : VReg) (i : Fin 8) (w : Word) (s : State) : State :=
  if s.status.fault then s else hostWriteV r i w s

/-- One access of the host, performed in full (R90, R91). -/
def performAccess (a : Access) (s : State) : Result :=
  match a with
  | .read addr bits => .next (portRead addr bits s)
  | .write addr bits w => portWrite addr bits w { s with reply := none }
  | .readV r i => .next (portReadV r i s)
  | .writeV r i w => .next (portWriteV r i w { s with reply := none })
  | .reset => .next (resetBlock s)

/-- The next access of the host, in issue order (R91); between accesses the block holds its state
unchanged (R326, R334). -/
def nextAccess (s : State) : Result :=
  match s.port with
  | [] => .next s
  | a :: rest => performAccess a { s with port := rest }

/-- The write of CMD that issues a table row's word: the bits above `nbits` are 0. -/
def commandAccess (nbits w : Nat) : Access := .write 0x00C 32 (BitVec.ofNat 32 (w % 2 ^ nbits))

end Sys2Proof.Machine
end

