-- ==== Sys2Proof/Machine/Step.lean ====
section
/-! DEFINITION. One step of the machine: the host's next access to the port. The block has no program
counter and fetches nothing (spec/10_state.md R49): a command runs when the host writes its word to CMD
(spec/44_system.md R290). -/

namespace Sys2Proof.Machine

/-- One step: the next access of the host, performed in full (R90, R91). -/
def step (s : State) : Host.Outcome State Fault Refusal := nextAccess s

/-- The state in which the host's next access writes the word to CMD, before the accesses it already had
to make; nothing else changes (notes/assumptions/3.md). -/
def State.withFetchWord (s : State) (nbits w : Nat) : State :=
  { s with port := commandAccess nbits w :: s.port }

end Sys2Proof.Machine
end

