-- ==== Sys2Proof/Safety.lean ====
section
/-! DEFINITION. The terms claims about the block are stated in: what a run keeps (`State.Inv`), when a
command passes its configuration check (`State.Ready`), how one lane differs from another, the shares a
gadget leaves written out as sums, commands run one after another, and the unmasked reading of the
datapath (spec/43_mperm.md R253). No definition of the machine uses this file. -/

namespace Sys2Proof.Machine

/-- Sixteen zero words: CORE and TAPE in the uninitialized mode (R36, R38). -/
def zeroWords : Vector Word 16 := Vector.replicate 16 0

/-- The values OFF takes: 0x924 shifted right by two up to six times (R249). -/
def scheduleValues : List Word := [0x924, 0x249, 0x92, 0x24, 0x9, 0x2, 0x0]

/-- What holds at reset and after every step. Each part is a rule of spec/10_state.md. -/
structure State.Inv (s : State) : Prop where
  /-- 1 <= NL <= 16 (R4). -/
  lanes : 1 ≤ s.nl ∧ s.nl ≤ 16
  /-- LANESEL names a lane the block has (R46). -/
  laneSel : s.laneSel.toNat < s.nl
  /-- "Values 17..31 never occur." (R37) -/
  cursor : s.cursor.toNat ≤ 16
  /-- In UNINIT mode CURSOR, CORE and TAPE hold zero (R36-R38). -/
  uninit : s.status.prngRun = false →
    s.cursor = 0 ∧ ∀ lane ∈ s.lanes, lane.core = zeroWords ∧ lane.tape = zeroWords
  /-- Before configuration CFG is 0 and nothing that needs a configuration has run (R40, R303). -/
  unconfigured : s.status.cfgValid = false →
    s.cfg = { d := 0, rnd := 0, rngDis := false } ∧ s.status.prngRun = false ∧
      s.status.dpInit = false
  /-- A configured block has D in 2..8 and ROUNDS in 1..6 (R7, R40). -/
  configured : s.status.cfgValid = true →
    (2 ≤ s.order ∧ s.order ≤ 8) ∧ (1 ≤ s.rounds ∧ s.rounds ≤ 6)
  /-- "Words D..7 of every register always read as zero" (R31). -/
  shares : ∀ lane ∈ s.lanes, ∀ (r : VReg) (i : Fin 8), s.order ≤ i.val → lane.v[r][i] = 0
  /-- OFF is one of the schedule's values (R52, R249). -/
  off : s.off ∈ scheduleValues
  /-- RC stays below 0x10 (R241). -/
  rc : s.rc.toNat < 16
  /-- Before MINIT or MPERM has run, EARLY, RC, OFF and TK hold their reset values (R39, R41, R51,
  R52). -/
  noDp : s.status.dpInit = false →
    s.status.early = false ∧ s.rc = 0 ∧ s.off = 0 ∧
      ∀ lane ∈ s.lanes, lane.tk = Vector.replicate 3 (Vector.replicate 4 0)
  /-- ERR and ERRINFO are 0 while FAULT = 0 (R41, R43). -/
  noFault : s.status.fault = false → s.status.err = .none ∧ s.errinfo = 0
  /-- A faulted block names its fault (R310). -/
  faulted : s.status.fault = true → s.status.err ≠ .none

/-- Not faulted and configured: a command other than NOP meets its other checks (R304). -/
def State.Ready (s : State) : Prop := s.status.fault = false ∧ s.status.cfgValid = true

/-- Lane by lane, in lane order, with the same number of lanes. -/
def LaneWise (R : Lane → Lane → Prop) (s t : State) : Prop := List.Forall₂ R s.lanes t.lanes

/-- `b`'s share-vector file is `a`'s with words 0..d-1 of register `r` replaced by `f` (R160(b)). -/
def WroteV (d : Nat) (r : VReg) (f : Nat → Word) (a b : Lane) : Prop :=
  ∀ (q : VReg) (i : Fin 8), b.v[q][i] = if q = r ∧ i.val < d then f i.val else a.v[q][i]

/-- `b`'s share-vector file is `a`'s with words 0..d-1 of registers base..base+n-1 replaced: register
base + k by `f k`. -/
def WroteGroup (d base n : Nat) (f : Nat → Nat → Word) (a b : Lane) : Prop :=
  ∀ (q : VReg) (i : Fin 8), b.v[q][i] =
    if base ≤ q.val ∧ q.val < base + n ∧ i.val < d then f (q.val - base) i.val else a.v[q][i]

/-- `t` is `s` after a command that made `k` single draws and then changed the share-vector files as `R`
says: the shared state is that of the draws with CMD_COUNT one more, every lane keeps X, SEED and TK and
has the CORE and TAPE of the draws, and `R` relates its old file, its k drawn words and its new file. -/
def DrewAndWrote (k : Nat) (R : Lane → List Word → Lane → Prop) (s t : State) : Prop :=
  let u := drawWords Config.prng k s
  t = { u.1 with lanes := t.lanes, cmdCount := s.cmdCount + 1 } ∧
  t.nl = s.nl ∧ u.1.nl = s.nl ∧ u.2.length = s.nl ∧
  ∀ (l : Nat) (a c : Lane) (ws : List Word),
    s.lanes[l]? = some a → u.1.lanes[l]? = some c → u.2[l]? = some ws →
    ws.length = k ∧
    ∃ b, t.lanes[l]? = some b ∧ b = { a with v := b.v, core := c.core, tape := c.tape } ∧ R a ws b

/-- The position of the pair (i, j), i < j, in the draw order of an ISW multiplication: i ascending, then
j ascending (R162). -/
def pairIndex (d i j : Nat) : Nat := i * d - i * (i + 1) / 2 + (j - i - 1)

/-- Share i of an ISW product as a sum over the shares j, from the pseudocode of R162: the pair (i, j)
puts its random word into the lower share, and the word and both cross products into the higher. -/
def iswShare (d : Nat) (a b : ShareVec) (ws : List Word) (i : Nat) : Word :=
  (List.range d).foldl (fun acc j => acc ^^^
    (if j = i then share a i &&& share b i
     else if i < j then ws.getD (pairIndex d i j) 0
     else (share a j &&& share b i) ^^^ ws.getD (pairIndex d j i) 0 ^^^ (share a i &&& share b j))) 0

/-- Share i of a refreshed sharing (R163): in each block share i takes the word drawn for it and the word
drawn for the share `dist` below it, modulo D. -/
def refreshShare (d : Nat) (s : ShareVec) (ws : List Word) (i : Nat) : Word :=
  let block := fun first dist => ws.getD (first + i) 0 ^^^ ws.getD (first + (i + d - dist) % d) 0
  share s i ^^^ block 0 1 ^^^ (if d < 4 then 0 else block d 3)

/-- Share i of a lightly refreshed sharing (R166): word i into each share but the last, and the XOR of all
of them into the last. -/
def lightRefreshShare (d : Nat) (s : ShareVec) (ws : List Word) (i : Nat) : Word :=
  if i + 1 = d then share s i ^^^ ws.foldl (· ^^^ ·) 0 else share s i ^^^ ws.getD i 0

/-- `s` after fault entry with `code` and `info`, from a state that was not faulted: FAULT, ERR and ERRINFO
and nothing else (R310, R312). -/
def State.withFault (s : State) (code : ErrCode) (info : Word) : State :=
  { s with status := { s.status with fault := true, err := code }, errinfo := info }

/-- The fault a decoded command meets, from the table of R303 read in the order of R304. -/
def expectedFault (i : Instr) (s : State) : Option ErrCode :=
  let operand : Bool :=
    match i with
    | .ssbox vd n => vd.val > 12 || n.val > 1
    | .slbox vd va => vd.val > 14 || va.val > 14
    | .mhalf n => n.val > 1
    | .rget xk n => n.val = 0 || n.val > 16 || xk.val + n.val > 16
    | _ => false
  let c0 : Nat := if s.status.prngRun ∧ s.cursor.toNat < 16 then s.cursor.toNat else 0
  if operand then some .operand
  else if i ≠ .nop ∧ s.status.cfgValid = false then some .noCfg
  else
    match i with
    | .mhalf _ => if s.status.dpInit = false then some .noDp else none
    | .mkey =>
      if s.status.dpInit = false then some .noDp else if s.off = 0 then some .sched else none
    | .mperm => if s.exit.en = true ∧ s.rounds ≤ s.exit.round.toNat then some .exit else none
    | .rget _ n => if c0 + n.val > 16 then some .tape else none
    | _ => none

/-- The match and mask of every row of spec/opcode_table.json (R122, R123). -/
def tableRows : List (Word × Word) :=
  [(0x00000000, 0xFFFFFFFF), (0x08000000, 0xF8007FFF), (0x10000000, 0xF8007FFF),
   (0x18000000, 0xF807FFFF), (0x20000000, 0xF80787FF), (0x28000000, 0xF807FFFF),
   (0x30000000, 0xF807FFFF), (0x38000000, 0xF87FFFFF), (0x40000000, 0xF87FF83F),
   (0x48000000, 0xF807FFFF), (0x80000000, 0xFFFFFFFF), (0x88000000, 0xFFFFF83F),
   (0x90000000, 0xFFFFFFFF), (0x98000000, 0xFFFFFFFF), (0xC0000000, 0xFFFFFFFF),
   (0xC8000000, 0xFFFF803F), (0xD0000000, 0xFFFFFFFF)]

/-- The word is some row's: its fixed bits are the row's (R124). -/
def legalWord (w : Word) : Prop := ∃ row ∈ tableRows, w &&& row.2 = row.1

/-- A reserved byte address of the port (R82, R87). -/
def reservedAddr (a : Nat) : Prop :=
  (0x030 ≤ a ∧ a ≤ 0x0FF) ∨ (0x250 ≤ a ∧ a ≤ 0x27F) ∨ (0x330 ≤ a ∧ a ≤ 0xFFF)

/-- The byte address of a read-only register: ID, STATUS, ERRINFO, CMD_COUNT, PERM_COUNT, RC, OFF, CURSOR,
CORE, TAPE, TK (R82, R87). -/
def readOnlyAddr (a : Nat) : Prop :=
  a ∈ [0x000, 0x008, 0x010, 0x018, 0x01C, 0x020, 0x024, 0x028] ∨ (0x280 ≤ a ∧ a ≤ 0x32F)

/-- The four results of a masked Sbox layer, in register order, and the words they take (R243): the drawn
words fall, in order, to the first multiplication, the refresh when `ref` is set, and the other three
multiplications. -/
def SboxShares (d : Nat) (ref : Bool) (q : Quad) (ws : List Word) (y0 y1 y2 y3 : ShareVec) : Prop :=
  ∃ w1 wr w2 w3 w4 : List Word, ws = w1 ++ (wr ++ (w2 ++ (w3 ++ w4))) ∧
    w1.length = d * (d - 1) / 2 ∧ w2.length = d * (d - 1) / 2 ∧
    w3.length = d * (d - 1) / 2 ∧ w4.length = d * (d - 1) / 2 ∧
    wr.length = (if ref then (if d < 4 then d else 2 * d) else 0) ∧
    let plain := shareXor (isw d q.a q.b w1) q.c
    y1 = (if ref then refresh d plain wr else plain) ∧
    y0 = shareXor (isw d q.d q.a w2) q.b ∧
    y3 = shareXor (isw d y1 q.d w3) q.a ∧
    y2 = shareXor (isw d y0 y1 w4) q.d

/-- The random words of one masked Sbox layer at order d (R245). -/
def sboxWords (d : Nat) (ref : Bool) : Nat :=
  4 * (d * (d - 1) / 2) + (if ref then (if d < 4 then d else 2 * d) else 0)

/-- Commands run one after another, stopping at the first that answers no next state. -/
def runCommands : List Instr → State → Result
  | [], s => .next s
  | i :: is, s =>
    match exec i s with
    | .next t => runCommands is t
    | .fault r => .fault r
    | .refused r => .refused r

/-- The cipher state on unmasked words, with the round-constant register and the schedule cursor: the
datapath of R240-R250 with D = 1 (R253). -/
structure Clyde where
  a   : Word
  b   : Word
  c   : Word
  d   : Word
  rc  : BitVec 8
  off : Word
  deriving DecidableEq, Repr

/-- The unmasked Sbox (R245): y1 = (a&b)^c, y0 = (d&a)^b, y3 = (y1&d)^a, y2 = (y0&y1)^d, and
(a,b,c,d) <- (y0, y1, y2, y3). -/
def clydeSbox (s : Clyde) : Clyde :=
  let y1 := (s.a &&& s.b) ^^^ s.c
  let y0 := (s.d &&& s.a) ^^^ s.b
  let y3 := (y1 &&& s.d) ^^^ s.a
  let y2 := (y0 &&& y1) ^^^ s.d
  { s with a := y0, b := y1, c := y2, d := y3 }

/-- The unmasked rest of a half-round: Lbox pairwise, the constant bits, the LFSR update (R248). -/
def clydeLinear (s : Clyde) : Clyde :=
  let p := lbox s.a s.b
  let q := lbox s.c s.d
  { s with
    a := p.1 ^^^ rcBit s.rc 0
    b := p.2 ^^^ rcBit s.rc 1
    c := q.1 ^^^ rcBit s.rc 2
    d := q.2 ^^^ rcBit s.rc 3
    rc := lfsrNext s.rc }

/-- The unmasked key and tweak addition (R249), for e = OFF & 3 in 0..2. -/
def clydeKey (key : Fin 4 → Word) (tk : Fin 3 → Fin 4 → Word) (s : Clyde) : Clyde :=
  let off := s.off >>> 2
  let e : Fin 3 := Fin.ofNat 3 (off &&& 3).toNat
  { s with
    a := s.a ^^^ key 0 ^^^ tk e 0
    b := s.b ^^^ key 1 ^^^ tk e 1
    c := s.c ^^^ key 2 ^^^ tk e 2
    d := s.d ^^^ key 3 ^^^ tk e 3
    off := off }

/-- `n` unmasked rounds from round `r` (R250): two half-rounds and the key addition, stopped right after the
Sbox layer of the half-round the marker names (R251). -/
def clydeRounds (m : ExitMarker) (key : Fin 4 → Word) (tk : Fin 3 → Fin 4 → Word) :
    Nat → Nat → Clyde → Clyde
  | 0, _, s => s
  | n + 1, r, s =>
    let first := clydeSbox s
    let second := clydeSbox (clydeLinear first)
    if m.en = true ∧ m.round.toNat = r then if m.half = false then first else second
    else clydeRounds m key tk n (r + 1) (clydeKey key tk (clydeLinear second))

/-- The unmasked encryption (R247, R250, R253): the state starts as key ^ TK0 ^ plaintext, RC at 0x08, OFF
at 0x924. -/
def clydeEncrypt (rounds : Nat) (m : ExitMarker) (key plain tweak : Fin 4 → Word) : Clyde :=
  let tk : Fin 3 → Fin 4 → Word := fun e c => (tweakExpand (tweak 0) (tweak 1) (tweak 2) (tweak 3))[e][c]
  clydeRounds m key tk rounds 0
    { a := key 0 ^^^ tk 0 0 ^^^ plain 0
      b := key 1 ^^^ tk 0 1 ^^^ plain 1
      c := key 2 ^^^ tk 0 2 ^^^ plain 2
      d := key 3 ^^^ tk 0 3 ^^^ plain 3
      rc := 0x08
      off := 0x924 }

end Sys2Proof.Machine
end

