-- ==== Sys2Proof/Certificates/Slice0/Obligations.lean ====
section
/-! DEFINITION. The statements about the block, one definition each (listed in OBLIGATIONS.json). The
rules R<n> are those of spec/. In them `port` (the host's accesses still to come) and `reply` (the word the
last access returned) are the model's own view of the host (notes/assumptions/3.md). -/

open Sys2Proof Sys2Proof.Machine

/-! ## Encoding -/

/-- Decoding the word of a command gives the command back, with every operand at every value its field
holds; and a word that decodes is the word of its command, so no bit is dropped (R121-R124, R127). -/
def Obligations.DecodeAndEncodeAgree : Prop :=
  (∀ i : Instr, decode (encode i) = .ok i) ∧
  ∀ (w : Word) (i : Instr), decode w = .ok i → encode i = w

/-- A word decodes exactly when its fixed bits are those of a row of the opcode table, and then of one row
only; the issue of any other word is refused with E_ILLEGAL (R122-R125). -/
def Obligations.LegalWordsAreTheTablesRows : Prop :=
  ∀ w : Word, ((∃ i, decode w = .ok i) ↔ legalWord w) ∧
    (∀ r ∈ tableRows, ∀ q ∈ tableRows, w &&& r.2 = r.1 → w &&& q.2 = q.1 → r = q) ∧
    ∀ s : State, s.status.fault = false → ¬ legalWord w →
      issue w s = .next (s.withFault .illegal w)

/-- One word of each command, written out from the spec's encodings and examples (R123, R128), decodes to
it. -/
def Obligations.WrittenOutWordsDecode : Prop :=
  ∀ p ∈ ([(0x00000000, .nop), (0x09890000, .sadd 3 1 2), (0x11890000, .smul 3 1 2),
      (0x19080000, .sref 2 1), (0x21082800, .spub 2 1 5), (0x2C200000, .smov 8 4),
      (0x31080000, .slref 2 1), (0x3A000000, .sfresh 4), (0x40000040, .ssbox 0 1),
      (0x4C000000, .slbox 8 0), (0x80000000, .minit), (0x88000040, .mhalf 1), (0x90000000, .mkey),
      (0x98000000, .mperm), (0xC0000000, .rinit), (0xC8000400, .rget 0 16),
      (0xD0000000, .rstep)] : List (Word × Instr)),
    decode p.1 = .ok p.2

/-- Byte k of a serialised word is its bits [8k+7:8k], least significant byte first, and the decoder reads
a serialised command as the command of its word, leaving what follows (R89, R120). -/
def Obligations.SerialisedWordsAreLittleEndian : Prop :=
  ∀ (w : Word) (rest : List Byte),
    (∀ k < 4, (bytesOfWord w)[k]? = some (BitVec.ofNat 8 (w.toNat / 2 ^ (8 * k)))) ∧
    ∀ i, decode w = .ok i → decodeBytes (bytesOfWord w ++ rest) = .ok (i, rest)

/-! ## Steps, reset and the invariant -/

/-- A step is the host's next access. When that is a 32-bit write of CMD with a word that decodes, the
step is `exec` of the command, with the access taken off the queue and nothing returned to the host;
`withFetchWord` puts such a write first; with no access to come the block holds its state (R290, R326,
R334). The queue of accesses and the returned word are the model's own (notes/assumptions/3.md). -/
def Obligations.StepRunsTheDecodedCommand : Prop :=
  (∀ (s : State) (rest : List Access) (w : Word) (i : Instr),
    s.port = .write 0x00C 32 w :: rest → s.status.fault = false → decode w = .ok i →
    step s = exec i { s with port := rest, reply := none }) ∧
  (∀ (s : State) (w : Word) (i : Instr), s.status.fault = false → decode w = .ok i →
    step (s.withFetchWord 32 w.toNat) = exec i { s with reply := none }) ∧
  ∀ s : State, s.port = [] → step s = .next s

/-- A word written to CMD that is no row's is refused with E_ILLEGAL, the word in ERRINFO, and changes
nothing else (R124, R300, R312). -/
def Obligations.IllegalWordsFault : Prop :=
  ∀ (s : State) (rest : List Access) (w : Word),
    s.port = .write 0x00C 32 w :: rest → s.status.fault = false → ¬ legalWord w →
    step s = .next ({ s with port := rest, reply := none }.withFault .illegal w)

/-- The state right after reset (R55, R351): NL lanes of zero words, every register 0, the PRNG UNINIT; NL
is 1..16 (R4) and ID carries it (R47). -/
def Obligations.ResetZeroesEveryRegister : Prop :=
  (1 ≤ State.reset.nl ∧ State.reset.nl ≤ 16) ∧
  (∀ lane ∈ State.reset.lanes,
    (∀ (r : VReg) (i : Fin 8), lane.v[r][i] = 0) ∧ (∀ k : XReg, lane.x[k] = 0) ∧
    (∀ k : Fin 4, lane.seed[k] = 0) ∧ (∀ k : Fin 16, lane.core[k] = 0) ∧
    (∀ k : Fin 16, lane.tape[k] = 0) ∧ ∀ (e : Fin 3) (c : Fin 4), lane.tk[e][c] = 0) ∧
  (∀ r : PortReg, r ≠ .id → portValue r State.reset = 0) ∧
  portValue .id State.reset = BitVec.ofNat 32 (0x07106800 + State.reset.nl) ∧
  State.reset.status.prngRun = false ∧ State.reset.status.fault = false

/-- The reset input returns every register to its reset value from any state, the faulted one too; the
number of lanes stays (R313, R350, R351), and the host the accesses it has yet to make (the model's own,
notes/assumptions/9.md). -/
def Obligations.ResetInputRestoresReset : Prop :=
  ∀ (s : State) (rest : List Access), s.port = .reset :: rest →
    step s = .next { resetOf s.nl with port := rest }

/-- The invariant holds at reset. -/
def Obligations.ResetMeetsInvariant : Prop := State.reset.Inv

/-- Every step keeps the invariant, whatever the host does (R31, R36-R41, R46, R51, R52). -/
def Obligations.StepKeepsInvariant : Prop :=
  ∀ s t : State, s.Inv → step s = .next t → t.Inv

/-- Every step answers a next state: the block never stops, an error is a state of the block (R290, R310,
R311, R330). -/
def Obligations.EveryStepGoesOn : Prop := ∀ s : State, ∃ t, step s = .next t

/-! ## Faults and status -/

/-- A command word meets the checks of R303 in the order of R304: while faulted it is refused with no
effect; the first check that applies is taken, with the command word in ERRINFO and nothing else changed;
a command that passes them all is executed, is counted once and raises no fault (R292, R300, R312). A word
that decodes is the command itself, and decoding comes before the other checks. -/
def Obligations.CommandChecksInOrder : Prop :=
  (∀ (w : Word) (s : State),
    (s.status.fault = true → issue w s = .next s) ∧
    (s.status.fault = false → (∀ i, decode w ≠ .ok i) → issue w s = .next (s.withFault .illegal w)) ∧
    (s.status.fault = false → ∀ i, decode w = .ok i → issue w s = exec i s)) ∧
  ∀ (i : Instr) (s : State),
    (s.status.fault = true → exec i s = .next s) ∧
    (s.status.fault = false → ∀ e, expectedFault i s = some e →
      exec i s = .next (s.withFault e (encode i))) ∧
    (s.status.fault = false → expectedFault i s = none →
      ∃ t, exec i s = .next t ∧ t.status.fault = false ∧ t.status.err = s.status.err ∧
        t.errinfo = s.errinfo ∧ t.cmdCount = s.cmdCount + 1)

/-- While STATUS.FAULT = 1 every access but the reset input leaves every register as it is; a read of a
readable word returns it and any other read returns 0 (R311, R313, R314). -/
def Obligations.FaultedBlockIsFrozen : Prop :=
  ∀ (s : State) (a : Access) (rest : List Access),
    s.status.fault = true → s.port = a :: rest → a ≠ .reset →
    ∃ t, step s = .next t ∧ t = { s with port := rest, reply := t.reply } ∧
      ∀ addr bits, a = .read addr bits →
        ((bits ≠ 32 ∨ addr.toNat % 4 ≠ 0 ∨ reservedAddr addr.toNat) → t.reply = some 0) ∧
        ∀ r, bits = 32 → addr.toNat % 4 = 0 → portRegAt addr = some r →
          t.reply = some (portValue r s)

/-- Faults are precise: a step that takes a fault changes FAULT, ERR and ERRINFO and nothing else of the
block (R310, R312). -/
def Obligations.FaultsArePrecise : Prop :=
  ∀ s t : State, s.status.fault = false → step s = .next t → t.status.fault = true →
    ∃ e info, e ≠ .none ∧
      t = { s.withFault e info with port := s.port.tail, reply := t.reply }

/-- The CFG write (R301, R40) by its value: E_CFG_LOCKED after an accepted write, E_CFG_ORDER for an order
outside 2..8, E_CFG_ROUNDS for more than 6 rounds, in this order, each with the written value; otherwise
D, the round count (a written 0 as 6) and RNG_DIS are stored and CFG_VALID is set. -/
def Obligations.SessionConstruction : Prop :=
  ∀ (s : State) (rest : List Access) (w : Word),
    s.port = .write 0x004 32 w :: rest → s.status.fault = false →
    let u : State := { s with port := rest, reply := none }
    let d := w.toNat % 16
    let rnd := w.toNat / 16 % 16
    (s.status.cfgValid = true → step s = .next (u.withFault .cfgLocked w)) ∧
    (s.status.cfgValid = false → (d < 2 ∨ 8 < d) → step s = .next (u.withFault .cfgOrder w)) ∧
    (s.status.cfgValid = false → 2 ≤ d → d ≤ 8 → 6 < rnd →
      step s = .next (u.withFault .cfgRounds w)) ∧
    (s.status.cfgValid = false → 2 ≤ d → d ≤ 8 → rnd ≤ 6 →
      step s = .next { u with
        cfg := { d := BitVec.ofNat 4 d, rnd := BitVec.ofNat 4 (if rnd = 0 then 6 else rnd),
                 rngDis := decide (w.toNat / 256 % 2 = 1) }
        status := { s.status with cfgValid := true } })

/-- "D, ROUNDS and the randomness-disable flag are fixed from the accepted configuration write until
reset"; the number of lanes is fixed for good, reset included (R6; PERM, SEED_INIT and RATE_POS are
constants). -/
def Obligations.ConfigurationFixedUntilReset : Prop :=
  (∀ s t : State, s.status.cfgValid = true → (∀ rest, s.port ≠ .reset :: rest) → step s = .next t →
    t.cfg = s.cfg ∧ t.status.cfgValid = true) ∧
  ∀ s t : State, step s = .next t → t.nl = s.nl

/-- What a command does to STATUS (R50): CFG_VALID never changes; PRNG_RUN is set by a draw and cleared by
RINIT; DP_INIT is set by MINIT and MPERM; EARLY is written by MPERM only; FAULT and ERR are written by
fault entry only. That RSTEP may set PRNG_RUN too is not in R50's list: it is the model's reading of R210,
R202 and R35 (notes/assumptions/11.md, DEDUCED). -/
def Obligations.CommandsWriteTheirStatusBitsOnly : Prop :=
  ∀ (i : Instr) (s t : State), exec i s = .next t →
    t.status.cfgValid = s.status.cfgValid ∧
    (t.status.prngRun ≠ s.status.prngRun →
      if t.status.prngRun then
        (match i with
         | .smul _ _ _ | .sref _ _ | .slref _ _ | .sfresh _ | .ssbox _ _ | .mhalf _ | .mperm
         | .rget _ _ | .rstep => True
         | _ => False)
      else i = .rinit) ∧
    (t.status.dpInit ≠ s.status.dpInit → t.status.dpInit = true ∧ (i = .minit ∨ i = .mperm)) ∧
    (t.status.early ≠ s.status.early → i = .mperm) ∧
    ((t.status.fault ≠ s.status.fault ∨ t.status.err ≠ s.status.err) →
      s.status.fault = false ∧ ∃ e, expectedFault i s = some e ∧ t = s.withFault e (encode i))

/-- Which command may write which register (R33, R34, R36-R39, R40, R42, R43, R45, R46, R51, R52): no command
writes CFG, EXIT, LANESEL or SEED; X is RGET's; TK is MINIT's and MPERM's; RC, OFF and V have their
commands; CORE, TAPE, CURSOR and PERM_COUNT change by draws, RSTEP and RINIT only; ERRINFO by fault entry
only. -/
def Obligations.RegistersHaveTheirWritersOnly : Prop :=
  ∀ (i : Instr) (s t : State), exec i s = .next t →
    let draws : Prop :=
      match i with
      | .smul _ _ _ | .sref _ _ | .slref _ _ | .sfresh _ | .ssbox _ _ | .mhalf _ | .mperm | .rget _ _ =>
        True
      | _ => False
    t.cfg = s.cfg ∧ t.exit = s.exit ∧ t.laneSel = s.laneSel ∧ t.port = s.port ∧ t.reply = s.reply ∧
    (t.errinfo ≠ s.errinfo → expectedFault i s ≠ none) ∧
    (t.rc ≠ s.rc → i = .minit ∨ i = .mperm ∨ ∃ n, i = .mhalf n) ∧
    (t.off ≠ s.off → i = .minit ∨ i = .mkey ∨ i = .mperm) ∧
    (t.permCount ≠ s.permCount → draws ∨ i = .rstep) ∧
    (t.cursor ≠ s.cursor → draws ∨ i = .rinit ∨ i = .rstep) ∧
    LaneWise (fun a b =>
      b.seed = a.seed ∧
      (b.x ≠ a.x → ∃ xk n, i = .rget xk n) ∧
      (b.tk ≠ a.tk → i = .minit ∨ i = .mperm) ∧
      (b.tape ≠ a.tape → draws ∨ i = .rinit) ∧
      (b.core ≠ a.core → draws ∨ i = .rinit ∨ i = .rstep) ∧
      (b.v ≠ a.v → i ≠ .nop ∧ i ≠ .rinit ∧ i ≠ .rstep ∧ ∀ xk n, i ≠ .rget xk n)) s t

/-! ## The host port -/

/-- The address map (R82), by the formula of each row. The V window 0x100..0x1FF holds V0..V7: its range is
the model's reading where the formula runs on past it (notes/assumptions/4.md). V8..V15 have no address;
the host reaches them by the register's name (notes/assumptions/14.md). -/
def Obligations.AddressMapOfThePort : Prop :=
  (∀ k : Fin 12, portRegAt (BitVec.ofNat 12 (4 * k.val)) =
    [PortReg.id, .cfg, .status, .cmd, .errinfo, .exit, .cmdCount, .permCount, .rc, .off, .cursor,
      .laneSel][k.val]?) ∧
  (∀ (r : Fin 8) (i : Fin 8), portRegAt (BitVec.ofNat 12 (0x100 + 32 * r.val + 4 * i.val)) =
    some (.v (Fin.ofNat 16 r.val) i)) ∧
  (∀ k : Fin 16, portRegAt (BitVec.ofNat 12 (0x200 + 4 * k.val)) = some (.x k)) ∧
  (∀ k : Fin 4, portRegAt (BitVec.ofNat 12 (0x240 + 4 * k.val)) = some (.seed k)) ∧
  (∀ r c : Fin 4, portRegAt (BitVec.ofNat 12 (0x280 + 16 * r.val + 4 * c.val)) =
    some (.core (Fin.ofNat 16 (4 * r.val + c.val)))) ∧
  (∀ k : Fin 16, portRegAt (BitVec.ofNat 12 (0x2C0 + 4 * k.val)) = some (.tape k)) ∧
  (∀ (e : Fin 3) (c : Fin 4), portRegAt (BitVec.ofNat 12 (0x300 + 16 * e.val + 4 * c.val)) =
    some (.tk e c)) ∧
  ∀ addr : BitVec 12, reservedAddr addr.toNat → portRegAt addr = none

/-- A read the port takes returns the register's word and changes no register (R84, R88), faulted or not.
A banked register is the lane LANESEL's (R83); words D..7 of a V register read 0 (R31); CMD reads 0
(R48). -/
def Obligations.ReadsReturnTheRegister : Prop :=
  ∀ (s : State) (addr : BitVec 12) (rest : List Access) (r : PortReg),
    s.port = .read addr 32 :: rest → addr.toNat % 4 = 0 → portRegAt addr = some r →
    step s = .next { s with port := rest, reply := some (portValue r s) } ∧
    ∀ lane, s.lanes[s.laneSel.toNat]? = some lane →
      portValue r s =
        match r with
        | .id => BitVec.ofNat 32 (0x07106800 + s.nl % 256)
        | .cfg => BitVec.ofNat 32
            (s.order + 16 * s.rounds + 256 * s.cfg.rngDis.toNat)
        | .status => BitVec.ofNat 32
            (s.status.cfgValid.toNat + 2 * s.status.prngRun.toNat + 4 * s.status.dpInit.toNat +
              8 * s.status.early.toNat + 16 * s.status.fault.toNat + 256 * s.status.err.code.toNat)
        | .cmd => 0
        | .errinfo => s.errinfo
        | .exit => BitVec.ofNat 32
            (s.exit.en.toNat + 2 * s.exit.half.toNat + 16 * s.exit.round.toNat)
        | .cmdCount => s.cmdCount
        | .permCount => s.permCount
        | .rc => BitVec.ofNat 32 s.rc.toNat
        | .off => s.off
        | .cursor => BitVec.ofNat 32 s.cursor.toNat
        | .laneSel => BitVec.ofNat 32 s.laneSel.toNat
        | .v q i => if i.val < s.order then lane.v[q][i] else 0
        | .x k => lane.x[k]
        | .seed k => lane.seed[k]
        | .core k => lane.core[k]
        | .tape k => lane.tape[k]
        | .tk e c => lane.tk[e][c]

/-- Accesses the port does not take (R81, R87, R302, R305): a misaligned one, one that is not 32 bits, one
at a reserved address, and a write of a read-only register fault with E_PORT and the byte address; such a
read returns 0. A read of CMD is no error and returns 0. -/
def Obligations.RefusedAccessesFault : Prop :=
  (∀ (s : State) (rest : List Access), s.port = .read 0x00C 32 :: rest →
    step s = .next { s with port := rest, reply := some 0 }) ∧
  ∀ (s : State) (addr : BitVec 12) (bits : Nat) (rest : List Access), s.status.fault = false →
    let u : State := { s with port := rest }
    let info := BitVec.ofNat 32 addr.toNat
    ((bits ≠ 32 ∨ addr.toNat % 4 ≠ 0 ∨ reservedAddr addr.toNat) →
      (s.port = .read addr bits :: rest →
        step s = .next { u.withFault .port info with reply := some 0 }) ∧
      ∀ w, s.port = .write addr bits w :: rest →
        step s = .next { u.withFault .port info with reply := none }) ∧
    (readOnlyAddr addr.toNat → ∀ w, s.port = .write addr bits w :: rest →
      step s = .next { u.withFault .port info with reply := none })

/-- The host writes of V, X, SEED and EXIT (R85, R86): the one word named changes, in lane LANESEL only,
and nothing else; a write to word i >= D of a V register changes nothing. -/
def Obligations.HostWritesChangeOneWord : Prop :=
  ∀ (s : State) (addr : BitVec 12) (w : Word) (rest : List Access) (r : PortReg),
    s.port = .write addr 32 w :: rest → s.status.fault = false → addr.toNat % 4 = 0 →
    portRegAt addr = some r →
    let u : State := { s with port := rest, reply := none }
    let banked (R : Lane → Lane → Prop) : Prop :=
      ∃ t, step s = .next t ∧ t = { u with lanes := t.lanes } ∧ t.nl = s.nl ∧
        ∀ (l : Nat) (a b : Lane), s.lanes[l]? = some a → t.lanes[l]? = some b →
          if l = s.laneSel.toNat then R a b else b = a
    match r with
    | .v q i =>
      if i.val < s.order then
        banked fun a b => b = { a with v := b.v } ∧
          ∀ (p : VReg) (j : Fin 8), b.v[p][j] = if p = q ∧ j = i then w else a.v[p][j]
      else step s = .next u
    | .x k => banked fun a b => b = { a with x := b.x } ∧
        ∀ j : XReg, b.x[j] = if j = k then w else a.x[j]
    | .seed k => banked fun a b => b = { a with seed := b.seed } ∧
        ∀ j : Fin 4, b.seed[j] = if j = k then w else a.seed[j]
    | .exit => step s = .next { u with exit :=
        { en := decide (w.toNat % 2 = 1), half := decide (w.toNat / 2 % 2 = 1),
          round := BitVec.ofNat 4 (w.toNat / 16) } }
    | _ => True

/-- The LANESEL write (R46): a lane the block does not have is refused with E_LANE and the written value;
otherwise bits [3:0] are stored. -/
def Obligations.LaneSelectWrite : Prop :=
  ∀ (s : State) (w : Word) (rest : List Access),
    s.port = .write 0x02C 32 w :: rest → s.status.fault = false →
    let u : State := { s with port := rest, reply := none }
    (s.nl ≤ w.toNat % 16 → step s = .next (u.withFault .lane w)) ∧
    (w.toNat % 16 < s.nl → step s = .next { u with laneSel := BitVec.ofNat 4 (w.toNat % 16) })

/-- A word written to a writable data word of the port, by its address or, for a V word, by its register, is
the word the next read of it returns, whichever lane the window shows (R83, R85, R91; the V access by name:
notes/assumptions/14.md). -/
def Obligations.WriteThenReadReturnsTheWord : Prop :=
  (∀ (s : State) (r : VReg) (i : Fin 8) (w : Word) (rest : List Access),
    s.Inv → s.status.fault = false → i.val < s.order →
    s.port = .writeV r i w :: .readV r i :: rest →
    ∃ t u, step s = .next t ∧ step t = .next u ∧ u.reply = some w ∧ u.status.fault = false) ∧
  ∀ (s : State) (addr : BitVec 12) (w : Word) (rest : List Access),
    s.Inv → s.status.fault = false → addr.toNat % 4 = 0 →
    ((0x100 ≤ addr.toNat ∧ addr.toNat ≤ 0x1FF ∧ addr.toNat / 4 % 8 < s.order) ∨
      (0x200 ≤ addr.toNat ∧ addr.toNat ≤ 0x24F)) →
    s.port = .write addr 32 w :: .read addr 32 :: rest →
    ∃ t u, step s = .next t ∧ step t = .next u ∧ u.reply = some w ∧ u.status.fault = false

/-! ## The PRNG -/

/-- A refill (R203): two PRNG steps; the words of the first step, read after it, are TAPE[0..7], those of
the second TAPE[8..15], at the positions RATE_POS; CURSOR is 0, PERM_COUNT two more, nothing else
changes. It holds for every PERM, SEED_INIT and RATE_POS. -/
def Obligations.RefillWritesTheTape : Prop :=
  ∀ (P : Prng) (s : State),
    let t := refill P s
    t = { s with lanes := t.lanes, cursor := 0, permCount := s.permCount + 2 } ∧
    LaneWise (fun a b =>
      b = { a with core := P.perm (P.perm a.core), tape := b.tape } ∧
      ∀ j : Fin 8, b.tape[j.val] = (P.perm a.core)[P.ratePos[j]] ∧
        b.tape[8 + j.val] = (P.perm (P.perm a.core))[P.ratePos[j]]) s t

/-- Draw(n) (R201, R202, R205): a running PRNG with words left hands out the next n tape words; at the end
of the tape it refills first; an uninitialized one seeds every lane from SEED and refills first. With
RNG_DIS = 1 the words are 0 and everything else is the same. -/
def Obligations.DrawHandsOutTapeWords : Prop :=
  ∀ (s : State) (n : Nat), s.Inv → 1 ≤ n → cursorAfterRefill s + n ≤ 16 →
    let r := draw Config.prng n s
    let seeded : State := { s with
      lanes := s.lanes.map fun a => { a with core := Config.seedInit a.seed }
      cursor := 16
      status := { s.status with prngRun := true } }
    (s.status.prngRun = true → s.cursor.toNat < 16 →
      r.1 = { s with cursor := BitVec.ofNat 5 (s.cursor.toNat + n) }) ∧
    (s.status.prngRun = true → s.cursor.toNat = 16 →
      r.1 = { refill Config.prng s with cursor := BitVec.ofNat 5 n }) ∧
    (s.status.prngRun = false →
      r.1 = { refill Config.prng seeded with cursor := BitVec.ofNat 5 n }) ∧
    r.1.cursor.toNat = cursorAfterRefill s + n ∧
    r.2 = r.1.lanes.map fun b => (List.range n).map fun k =>
      if s.cfg.rngDis then 0 else b.tapeWord (cursorAfterRefill s + k)

/-- k single draws change the PRNG alone: CORE and TAPE of every lane, CURSOR, PERM_COUNT and PRNG_RUN; every
lane gets k words, zeros with RNG_DIS = 1; CURSOR and the number of refills, two PRNG steps each, follow
from k and the words left on the tape (R201-R203, R205). -/
def Obligations.DrawsChangeOnlyThePrng : Prop :=
  ∀ (s : State) (k : Nat), s.Inv → 1 ≤ k →
    let r := drawWords Config.prng k s
    let c0 := cursorAfterRefill s
    let refills := (c0 + k - 1) / 16 + if s.status.prngRun = true ∧ s.cursor.toNat < 16 then 0 else 1
    r.1 = { s with
      lanes := r.1.lanes
      cursor := BitVec.ofNat 5 ((c0 + k - 1) % 16 + 1)
      permCount := s.permCount + BitVec.ofNat 32 (2 * refills)
      status := { s.status with prngRun := true } } ∧
    LaneWise (fun a b => b = { a with core := b.core, tape := b.tape }) s r.1 ∧
    r.2.length = s.nl ∧
    ∀ ws ∈ r.2, ws.length = k ∧ (s.cfg.rngDis = true → ∀ w ∈ ws, w = 0)

/-- n draws of one word each are one request for n words, as long as the request does not cross the end of
the tape (R201, R207). -/
def Obligations.SingleDrawsAreOneRequest : Prop :=
  ∀ (s : State) (n : Nat), s.Inv → 1 ≤ n → cursorAfterRefill s + n ≤ 16 →
    drawWords Config.prng n s = draw Config.prng n s

/-- "requesting exactly 16 words twice from a freshly seeded mirror triggers exactly 2 refill events (4
permutation steps total)" (R207). -/
def Obligations.TwoFullRequestsRefillTwice : Prop :=
  ∀ s : State, s.Inv → s.Ready → s.status.prngRun = false →
    ∃ t u, exec (.rget 0 16) s = .next t ∧ exec (.rget 0 16) t = .next u ∧
      t.permCount = s.permCount + 2 ∧ u.permCount = s.permCount + 4 ∧
      u.cursor = 16 ∧ u.cmdCount = s.cmdCount + 2

/-- RINIT (R208): CORE, TAPE, CURSOR and PRNG_RUN are cleared and nothing else changes but CMD_COUNT; on an
UNINIT block nothing at all. -/
def Obligations.RinitReturnsToUninit : Prop :=
  ∀ s : State, s.Ready →
    (∃ t, exec .rinit s = .next t ∧
      t = { s with
        lanes := t.lanes, cursor := 0, cmdCount := s.cmdCount + 1
        status := { s.status with prngRun := false } } ∧
      LaneWise (fun a b => b = { a with core := zeroWords, tape := zeroWords }) s t) ∧
    (s.Inv → s.status.prngRun = false → exec .rinit s = .next { s with cmdCount := s.cmdCount + 1 })

/-- RGET (R209): word k of the lane's draw goes into X[xK + k]; the draw is Draw(n); when the tape holds
fewer words past the cursor than asked for, the request is refused with E_TAPE and nothing else
changes. -/
def Obligations.RgetFillsPublicRegisters : Prop :=
  ∀ (xk : XReg) (n : Imm) (s : State), s.Ready → s.Inv →
    1 ≤ n.val → n.val ≤ 16 → xk.val + n.val ≤ 16 →
    (16 < cursorAfterRefill s + n.val →
      exec (.rget xk n) s = .next (s.withFault .tape (encode (.rget xk n)))) ∧
    (cursorAfterRefill s + n.val ≤ 16 →
      let r := draw Config.prng n.val s
      ∃ t, exec (.rget xk n) s = .next t ∧
        t = { r.1 with lanes := t.lanes, cmdCount := s.cmdCount + 1 } ∧
        t.nl = s.nl ∧ r.1.nl = s.nl ∧ r.2.length = s.nl ∧
        ∀ (l : Nat) (a c : Lane) (ws : List Word),
          s.lanes[l]? = some a → r.1.lanes[l]? = some c → r.2[l]? = some ws →
          ws.length = n.val ∧
          ∃ b, t.lanes[l]? = some b ∧ b = { a with x := b.x, core := c.core, tape := c.tape } ∧
            ∀ j : XReg, b.x[j] =
              if xk.val ≤ j.val ∧ j.val < xk.val + n.val then ws.getD (j.val - xk.val) 0 else a.x[j])

/-- RSTEP (R210): every lane's CORE goes one PRNG step, seeded first when the PRNG is UNINIT (which leaves
CURSOR at 16); PERM_COUNT is one more; TAPE and the rest stay. -/
def Obligations.RstepAdvancesTheCore : Prop :=
  ∀ s : State, s.Ready →
    ∃ t, exec .rstep s = .next t ∧
      t = { s with
        lanes := t.lanes, permCount := s.permCount + 1, cmdCount := s.cmdCount + 1
        cursor := if s.status.prngRun then s.cursor else 16
        status := { s.status with prngRun := true } } ∧
      LaneWise (fun a b =>
        let start := if s.status.prngRun then a.core else Config.seedInit a.seed
        b = { a with core := Config.perm start }) s t

/-- RNG_DIS and the values held in V, X and TK do not reach the PRNG or any shared register: two blocks that
differ in them only go on differing in them only, after any command (R200, R205). -/
def Obligations.PrngIgnoresSharesAndDisableFlag : Prop :=
  ∀ (i : Instr) (s s' t : State) (dis : Bool),
    let twin : Lane → Lane → Prop := fun a b => b = { a with v := b.v, x := b.x, tk := b.tk }
    s' = { s with lanes := s'.lanes, cfg := { s.cfg with rngDis := dis } } →
    LaneWise twin s s' → exec i s = .next t →
    ∃ t', exec i s' = .next t' ∧
      t' = { t with lanes := t'.lanes, cfg := { t.cfg with rngDis := dis } } ∧ LaneWise twin t t'

/-- A SEED written while the PRNG runs changes nothing until it is seeded again (R34, R362): two running
blocks that differ in SEED only go on differing in SEED only. -/
def Obligations.SeedWaitsForTheNextSeeding : Prop :=
  ∀ (i : Instr) (s s' t : State), s.status.prngRun = true →
    let twin : Lane → Lane → Prop := fun a b => b = { a with seed := b.seed }
    s' = { s with lanes := s'.lanes } → LaneWise twin s s' → exec i s = .next t →
    ∃ t', exec i s' = .next t' ∧ t' = { t with lanes := t'.lanes } ∧ LaneWise twin t t'

/-- Every command but MPERM ignores EXIT (R363). -/
def Obligations.OnlyMpermReadsExit : Prop :=
  ∀ (i : Instr) (s t : State) (m : ExitMarker), i ≠ .mperm → exec i s = .next t →
    exec i { s with exit := m } = .next { t with exit := m }

/-- Lock-step lanes (R12, R324): what a command does to a lane and to the shared registers is what it does
on a block with that lane alone. -/
def Obligations.LanesRunInLockStep : Prop :=
  ∀ (i : Instr) (s t : State) (l : Nat) (a : Lane), exec i s = .next t → s.lanes[l]? = some a →
    ∃ b, t.lanes[l]? = some b ∧
      exec i { s with lanes := [a] } = .next { t with lanes := [b] }

/-! ## Commands that change nothing or only shares -/

/-- NOP (R291): on a block that is not faulted, configured or not, it changes CMD_COUNT only. -/
def Obligations.NopOnlyCounts : Prop :=
  ∀ s : State, s.status.fault = false → exec .nop s = .next { s with cmdCount := s.cmdCount + 1 }

/-- SADD (R161): share-wise XOR, so the value is the XOR of the values; words D..7, every other register
and all shared state but CMD_COUNT stay. -/
def Obligations.SaddXorsShares : Prop :=
  ∀ (vd va vb : VReg) (s : State), s.Ready →
    ∃ t, exec (.sadd vd va vb) s = .next t ∧
      t = { s with lanes := t.lanes, cmdCount := s.cmdCount + 1 } ∧
      LaneWise (fun a b => b = { a with v := b.v } ∧
        WroteV s.order vd (fun i => share a.v[va] i ^^^ share a.v[vb] i) a b ∧
        unmask s.order b.v[vd] = unmask s.order a.v[va] ^^^ unmask s.order a.v[vb]) s t

/-- SPUB (R164): the public word goes into share zero, so it is XORed into the value. -/
def Obligations.SpubInjectsIntoShareZero : Prop :=
  ∀ (vd va : VReg) (xk : XReg) (s : State), s.Ready → s.Inv →
    ∃ t, exec (.spub vd va xk) s = .next t ∧
      t = { s with lanes := t.lanes, cmdCount := s.cmdCount + 1 } ∧
      LaneWise (fun a b => b = { a with v := b.v } ∧
        WroteV s.order vd (fun i => if i = 0 then share a.v[va] 0 ^^^ a.x[xk] else share a.v[va] i) a b ∧
        unmask s.order b.v[vd] = unmask s.order a.v[va] ^^^ a.x[xk]) s t

/-- SMOV (R165): the shares themselves are copied. -/
def Obligations.SmovCopiesShares : Prop :=
  ∀ (vd va : VReg) (s : State), s.Ready →
    ∃ t, exec (.smov vd va) s = .next t ∧
      t = { s with lanes := t.lanes, cmdCount := s.cmdCount + 1 } ∧
      LaneWise (fun a b => b = { a with v := b.v } ∧ WroteV s.order vd (share a.v[va]) a b) s t

/-- SMUL (R162): share i of the result as a sum over the pairs, drawing exactly D·(D-1)/2 words; nothing
else changes but what the draws change. -/
def Obligations.SmulIsIswProduct : Prop :=
  ∀ (vd va vb : VReg) (s : State), s.Ready → s.Inv →
    ∃ t, exec (.smul vd va vb) s = .next t ∧
      DrewAndWrote (s.order * (s.order - 1) / 2)
        (fun a ws b => WroteV s.order vd (iswShare s.order a.v[va] a.v[vb] ws) a b) s t

/-- SMUL's value (R14, R162): unmask(result) = unmask(a) & unmask(b) for every value of the random words,
aliased registers included. -/
def Obligations.SmulMultipliesValues : Prop :=
  ∀ (vd va vb : VReg) (s t : State), s.Ready → s.Inv → exec (.smul vd va vb) s = .next t →
    LaneWise (fun a b =>
      unmask s.order b.v[vd] = unmask s.order a.v[va] &&& unmask s.order a.v[vb]) s t

/-- SMUL's factors may be swapped: the shares are the same (R162). -/
def Obligations.SmulIsSymmetric : Prop :=
  ∀ (vd va vb : VReg) (s : State), s.Ready → s.Inv →
    exec (.smul vd va vb) s = exec (.smul vd vb va) s

/-- SREF (R163): each share takes the two words of each block, drawing D words for D < 4 and 2·D from
there on; nothing else changes but what the draws change. -/
def Obligations.SrefRefreshesShares : Prop :=
  ∀ (vd va : VReg) (s : State), s.Ready → s.Inv →
    ∃ t, exec (.sref vd va) s = .next t ∧
      DrewAndWrote (if s.order < 4 then s.order else 2 * s.order)
        (fun a ws b => WroteV s.order vd (refreshShare s.order a.v[va] ws) a b) s t

/-- SLREF (R166): the D-1 drawn words go into the shares but the last, and their XOR into the last. -/
def Obligations.SlrefResharesLightly : Prop :=
  ∀ (vd va : VReg) (s : State), s.Ready → s.Inv →
    ∃ t, exec (.slref vd va) s = .next t ∧
      DrewAndWrote (s.order - 1)
        (fun a ws b => WroteV s.order vd (lightRefreshShare s.order a.v[va] ws) a b) s t

/-- Both refreshes keep the value, whatever the random words (R14, R163, R166). -/
def Obligations.RefreshesKeepTheValue : Prop :=
  ∀ (vd va : VReg) (s t : State), s.Ready → s.Inv →
    (exec (.sref vd va) s = .next t ∨ exec (.slref vd va) s = .next t) →
    LaneWise (fun a b => unmask s.order b.v[vd] = unmask s.order a.v[va]) s t

/-- SFRESH (R167): share i is the i-th of D drawn words. -/
def Obligations.SfreshDrawsEveryShare : Prop :=
  ∀ (vd : VReg) (s : State), s.Ready → s.Inv →
    ∃ t, exec (.sfresh vd) s = .next t ∧
      DrewAndWrote s.order (fun a ws b => WroteV s.order vd (fun i => ws.getD i 0) a b) s t

/-! ## The datapath -/

/-- SSBOX (R243, R245): the four registers from VD up become the results of the masked Sbox layer on
them; nothing else changes but what the draws change. -/
def Obligations.SsboxRunsTheSboxLayer : Prop :=
  ∀ (vd : VReg) (n : Imm) (s : State), s.Ready → s.Inv → vd.val ≤ 12 → n.val ≤ 1 →
    ∃ t, exec (.ssbox vd n) s = .next t ∧
      DrewAndWrote (sboxWords s.order (n.val == 1))
        (fun a ws b => ∃ y0 y1 y2 y3,
          SboxShares s.order (n.val == 1) (a.quadAt vd) ws y0 y1 y2 y3 ∧
          WroteGroup s.order vd.val 4
            (fun k i => share (if k = 0 then y0 else if k = 1 then y1 else if k = 2 then y2 else y3) i)
            a b) s t

/-- SSBOX's values are the unmasked Sbox of the values (R14, R245). -/
def Obligations.SsboxComputesTheSbox : Prop :=
  ∀ (vd : VReg) (n : Imm) (s t : State), s.Ready → s.Inv → vd.val ≤ 12 → n.val ≤ 1 →
    exec (.ssbox vd n) s = .next t →
    LaneWise (fun a b =>
      let va := unmask s.order a.v[vd]
      let vb := unmask s.order a.v[regAbove vd 1]
      let vc := unmask s.order a.v[regAbove vd 2]
      let ve := unmask s.order a.v[regAbove vd 3]
      let y0 := (ve &&& va) ^^^ vb
      let y1 := (va &&& vb) ^^^ vc
      unmask s.order b.v[vd] = y0 ∧
      unmask s.order b.v[regAbove vd 1] = y1 ∧
      unmask s.order b.v[regAbove vd 2] = (y0 &&& y1) ^^^ ve ∧
      unmask s.order b.v[regAbove vd 3] = (y1 &&& ve) ^^^ va) s t

/-- SLBOX (R246): share i of the pair from VD up is Lbox of share i of the pair from VA up, read before
anything is written; its value is Lbox of the values. -/
def Obligations.SlboxAppliesLboxToShares : Prop :=
  ∀ (vd va : VReg) (s : State), s.Ready → vd.val ≤ 14 → va.val ≤ 14 →
    ∃ t, exec (.slbox vd va) s = .next t ∧
      t = { s with lanes := t.lanes, cmdCount := s.cmdCount + 1 } ∧
      LaneWise (fun a b => b = { a with v := b.v } ∧
        WroteGroup s.order vd.val 2 (fun k i =>
          let p := lbox (share a.v[va] i) (share a.v[regAbove va 1] i)
          if k = 0 then p.1 else p.2) a b ∧
        (unmask s.order b.v[vd], unmask s.order b.v[regAbove vd 1]) =
          lbox (unmask s.order a.v[va]) (unmask s.order a.v[regAbove va 1])) s t

/-- Lbox is linear over XOR, and its rotations are rotations of the 32 bits (R9, R244). -/
def Obligations.LboxIsLinear : Prop :=
  (∀ x y x' y' : Word, lbox (x ^^^ x') (y ^^^ y') =
    ((lbox x y).1 ^^^ (lbox x' y').1, (lbox x y).2 ^^^ (lbox x' y').2)) ∧
  ∀ (x : Word) (c i : Nat), c < 32 → i < 32 → (rotr x c).getLsbD i = x.getLsbD ((i + c) % 32)

/-- The round-constant LFSR from 0x08: the values of R241, period 15. -/
def Obligations.RoundConstantsCycle : Prop :=
  (List.range 16).map (fun k => lfsrNext^[k] 0x08) =
    [0x08, 0x04, 0x02, 0x01, 0x0C, 0x06, 0x03, 0x0D, 0x0A, 0x05, 0x0E, 0x07, 0x0F, 0x0B, 0x09, 0x08]

/-- MINIT (R240, R247): TK is the expanded tweak; the state is the key share by share with TK0 and the
plaintext in share zero; RC = 0x08, OFF = 0x924, DP_INIT = 1; the key and everything else stay. -/
def Obligations.MinitLoadsTheState : Prop :=
  ∀ s : State, s.Ready → s.Inv →
    ∃ t, exec .minit s = .next t ∧
      t = { s with
        lanes := t.lanes, rc := 0x08, off := 0x924, cmdCount := s.cmdCount + 1
        status := { s.status with dpInit := true } } ∧
      LaneWise (fun a b => b = { a with v := b.v, tk := b.tk } ∧
        (let t0 := a.x[4]; let t1 := a.x[5]; let t2 := a.x[6]; let t3 := a.x[7]
         b.tk = #v[#v[t0, t1, t2, t3], #v[t0 ^^^ t2, t1 ^^^ t3, t0, t1],
                   #v[t2, t3, t0 ^^^ t2, t1 ^^^ t3]]) ∧
        WroteGroup s.order 0 4 (fun c i =>
          share a.v[Fin.ofNat 16 (4 + c)] i ^^^
            (if i = 0 then a.x[Fin.ofNat 16 (4 + c)] ^^^ a.x[Fin.ofNat 16 c] else 0)) a b) s t

/-- MHALF (R248): the Sbox layer on V0..V3, Lbox pairwise, the bits of RC before the update into bit 0 of
the share zeros, and the LFSR update; nothing else changes but what the draws change. -/
def Obligations.MhalfIsOneHalfRound : Prop :=
  ∀ (n : Imm) (s : State), s.Ready → s.Inv → s.status.dpInit = true → n.val ≤ 1 →
    ∃ t, exec (.mhalf n) s = .next t ∧ t.rc = lfsrNext s.rc ∧
      DrewAndWrote (sboxWords s.order (n.val == 1))
        (fun a ws b => ∃ y0 y1 y2 y3,
          SboxShares s.order (n.val == 1) (a.quadAt 0) ws y0 y1 y2 y3 ∧
          WroteGroup s.order 0 4 (fun c i =>
            let p := lbox (share y0 i) (share y1 i)
            let q := lbox (share y2 i) (share y3 i)
            (if c = 0 then p.1 else if c = 1 then p.2 else if c = 2 then q.1 else q.2) ^^^
              (if i = 0 then BitVec.ofNat 32 (s.rc.toNat / 2 ^ (3 - c) % 2) else 0)) a b)
        s { t with rc := s.rc }

/-- MKEY (R249): OFF is shifted before it is read; the key goes into the state share by share and the
schedule entry e = OFF & 3, which is one of 0, 1, 2, into share zero; nothing else changes. -/
def Obligations.MkeyAddsKeyAndTweak : Prop :=
  ∀ s : State, s.Ready → s.Inv → s.status.dpInit = true → s.off ≠ 0 →
    ∃ (t : State) (e : Fin 3), exec .mkey s = .next t ∧
      t = { s with lanes := t.lanes, off := s.off >>> 2, cmdCount := s.cmdCount + 1 } ∧
      e.val = t.off.toNat % 4 ∧
      LaneWise (fun a b => b = { a with v := b.v } ∧
        WroteGroup s.order 0 4 (fun c i =>
          share a.v[Fin.ofNat 16 c] i ^^^ share a.v[Fin.ofNat 16 (4 + c)] i ^^^
            (if i = 0 then a.tk[e][Fin.ofNat 4 c] else 0)) a b) s t

/-- MPERM without a marker (R250): its effect is that of MINIT and then ROUNDS times MROUND, but that it
counts one command and clears EARLY. -/
def Obligations.MpermIsItsSteps : Prop :=
  ∀ s : State, s.Ready → s.Inv → s.exit.en = false →
    ∃ t u, exec .mperm s = .next t ∧
      runCommands (.minit :: (List.replicate s.rounds pseudoMround).flatten) s = .next u ∧
      t = { u with
        cmdCount := s.cmdCount + 1
        status := { u.status with early := false } }

/-- MPERM with a marker (R251): it stops right after the Sbox layer of half-round HALF of round ROUND, with
EARLY set: MINIT, ROUND rounds, the first half-round when HALF = 1, and the Sbox layer. -/
def Obligations.MpermStopsAtTheMarker : Prop :=
  ∀ s : State, s.Ready → s.Inv → s.exit.en = true → s.exit.round.toNat < s.rounds →
    ∃ t u, exec .mperm s = .next t ∧
      runCommands (.minit :: ((List.replicate s.exit.round.toNat pseudoMround).flatten ++
        (if s.exit.half then [.mhalf 1, .ssbox 0 0] else [.ssbox 0 1]))) s = .next u ∧
      t = { u with
        cmdCount := s.cmdCount + 1
        status := { u.status with early := true } }

/-- A full MPERM draws ROUNDS·(4·D·(D-1) + (D < 4 ? D : 2·D)) words (R252): the PRNG ends as after so many
single draws. V4..V15, words D..7, X and SEED stay, and TK is the expanded tweak (R247, R250). -/
def Obligations.MpermDrawsAndFrame : Prop :=
  ∀ s : State, s.Ready → s.Inv → s.exit.en = false →
    let d := s.order
    let u := (drawWords Config.prng (s.rounds * (4 * d * (d - 1) + if d < 4 then d else 2 * d)) s).1
    ∃ t, exec .mperm s = .next t ∧
      t = { u with
        lanes := t.lanes, cmdCount := s.cmdCount + 1, rc := t.rc, off := t.off
        status := { u.status with dpInit := true, early := false } } ∧
      t.nl = s.nl ∧ u.nl = s.nl ∧
      ∀ (l : Nat) (a c : Lane), s.lanes[l]? = some a → u.lanes[l]? = some c →
        ∃ b, t.lanes[l]? = some b ∧
          b = { a with v := b.v, core := c.core, tape := c.tape
                       tk := tweakExpand a.x[4] a.x[5] a.x[6] a.x[7] } ∧
          ∀ (q : VReg) (i : Fin 8), (4 ≤ q.val ∨ d ≤ i.val) → b.v[q][i] = a.v[q][i]

/-- Masking correctness (R14, R253): for every order, every sharing of the key, every plaintext and tweak
and whatever the PRNG gives, the unmasked result of MPERM, stopped at the marker or not, is the unmasked
algorithm's; RC and OFF end as its do. -/
def Obligations.MpermComputesTheUnmaskedCipher : Prop :=
  ∀ s t : State, s.Ready → s.Inv → (s.exit.en = true → s.exit.round.toNat < s.rounds) →
    exec .mperm s = .next t →
    LaneWise (fun a b =>
      let out := clydeEncrypt s.rounds s.exit (fun c => unmask s.order a.v[Fin.ofNat 16 (4 + c.val)])
        (fun c => a.x[Fin.ofNat 16 c.val]) (fun c => a.x[Fin.ofNat 16 (4 + c.val)])
      unmask s.order b.v[0] = out.a ∧ unmask s.order b.v[1] = out.b ∧
      unmask s.order b.v[2] = out.c ∧ unmask s.order b.v[3] = out.d ∧
      t.rc = out.rc ∧ t.off = out.off) s t

/-! ## Every V word through the port -/

/-- The host reads and writes every word of V0..V15 in lane LANESEL, each register by its name (R31, R83-R86):
a read returns the word, 0 for words D..7, and changes no register; a write on a block that is not faulted
changes that one word when it is below D and nothing otherwise, and on a faulted block nothing (R311); the
access is the one at the word's address where R82 gives it one. That V8..V15 are named and not addressed is
the model's choice (notes/assumptions/14.md, DESIGN CHOICE). -/
def Obligations.EveryVWordIsHostReadableAndWritable : Prop :=
  ∀ (s : State) (r : VReg) (i : Fin 8) (rest : List Access),
    (s.port = .readV r i :: rest →
      ∃ x, step s = .next { s with port := rest, reply := some x } ∧
        (s.order ≤ i.val → x = 0) ∧
        ∀ lane, i.val < s.order → s.lanes[s.laneSel.toNat]? = some lane → x = lane.v[r][i]) ∧
    (∀ w, s.port = .writeV r i w :: rest →
      let u : State := { s with port := rest, reply := none }
      ((s.status.fault = true ∨ s.order ≤ i.val) → step s = .next u) ∧
      (s.status.fault = false → i.val < s.order →
        ∃ t, step s = .next t ∧ t = { u with lanes := t.lanes } ∧ t.nl = s.nl ∧
          ∀ (l : Nat) (a b : Lane), s.lanes[l]? = some a → t.lanes[l]? = some b →
            if l = s.laneSel.toNat then
              b = { a with v := b.v } ∧
                ∀ (p : VReg) (j : Fin 8), b.v[p][j] = if p = r ∧ j = i then w else a.v[p][j]
            else b = a)) ∧
    ∀ a : BitVec 12, a.toNat = 0x100 + 32 * r.val + 4 * i.val → a.toNat ≤ 0x1FF →
      step { s with port := .readV r i :: rest } = step { s with port := .read a 32 :: rest } ∧
      ∀ w, step { s with port := .writeV r i w :: rest } = step { s with port := .write a 32 w :: rest }
end

