-- ==== Sys2Proof/Laws/Decode.lean ====
section
/-! SUPPORT. The fields of a word and the word of its fields, each way, and what the decoder answers. -/

namespace Sys2Proof

/-- The bits of a field put at position k. -/
theorem getLsbD_fieldAt {m : Nat} (x : BitVec m) (k i : Nat) :
    (fieldAt x k).getLsbD i = (decide (i < 32) && decide (k ≤ i) && x.getLsbD (i - k)) := by
  by_cases h : i < 32 <;> by_cases h' : k ≤ i
  all_goals simp [fieldAt, h, h', Nat.not_lt.mpr, BitVec.getLsbD_shiftLeft]

/-- Every field is read where it was put. -/
theorem fieldsOf_assemble (f : Fields) : fieldsOf (assemble f) = f := by
  obtain ⟨op, vd, va, vb, xk, n, res⟩ := f
  simp only [fieldsOf, assemble, Fields.mk.injEq]
  refine ⟨?_, ?_, ?_, ?_, ?_, ?_, ?_⟩ <;>
  · apply BitVec.eq_of_getLsbD_eq
    intro i hi
    simp only [BitVec.getLsbD_extractLsb', BitVec.getLsbD_or, getLsbD_fieldAt]
    interval_cases i <;> simp [BitVec.getLsbD_of_ge]

/-- A word is the word of its fields. -/
theorem assemble_fieldsOf (w : Word) : assemble (fieldsOf w) = w := by
  apply BitVec.eq_of_getLsbD_eq
  intro i hi
  simp only [fieldsOf, assemble, BitVec.getLsbD_or, getLsbD_fieldAt, BitVec.getLsbD_extractLsb']
  interval_cases i <;> simp

/-- The decoder answers an instruction exactly when the opcode is in the map and the fields its format
does not use are zero. -/
theorem decode_eq_ok {w : Word} {i : Instr} :
    decode w = .ok i ↔
      ∃ fmt, opcodeMap (fieldsOf w).op.toNat (fieldsOf w) = some (fmt, i) ∧
        unusedZero fmt (fieldsOf w) = true := by
  unfold decode
  cases h : opcodeMap (fieldsOf w).op.toNat (fieldsOf w) with
  | none => simp
  | some p =>
    obtain ⟨fmt, j⟩ := p
    by_cases hu : unusedZero fmt (fieldsOf w) = true
    · simp only [hu, if_true, Except.ok.injEq, Option.some.injEq, Prod.mk.injEq]
      constructor
      · rintro rfl; exact ⟨fmt, ⟨rfl, rfl⟩, hu⟩
      · rintro ⟨_, ⟨_, rfl⟩, _⟩; rfl
    · simp only [hu, Option.some.injEq, Prod.mk.injEq]
      simp only [Bool.false_eq_true, if_false, reduceCtorEq, false_iff]
      rintro ⟨_, ⟨rfl, _⟩, h'⟩
      exact hu h'

/-- Four bytes of a word, put together again, are the word. -/
theorem wordOfBytes_extract (w : Word) :
    wordOfBytes (w.extractLsb' 0 8) (w.extractLsb' 8 8) (w.extractLsb' 16 8) (w.extractLsb' 24 8) = w := by
  apply BitVec.eq_of_getLsbD_eq
  intro i hi
  simp only [wordOfBytes, BitVec.getLsbD_or, getLsbD_fieldAt, BitVec.getLsbD_extractLsb']
  interval_cases i <;> simp

end Sys2Proof
end

