-- ==== Sys2Proof/Laws/State.lean ====
section
/-! SUPPORT. One lemma per field of State and named update, each true by rfl, so that no proof unfolds a
record update. -/

namespace Sys2Proof.Machine

/-! mapLanes -/

@[simp] theorem State.mapLanes_lanes (f : Lane → Lane) (s : State) :
    (s.mapLanes f).lanes = s.lanes.map f := rfl
@[simp] theorem State.mapLanes_cfg (f : Lane → Lane) (s : State) : (s.mapLanes f).cfg = s.cfg := rfl
@[simp] theorem State.mapLanes_status (f : Lane → Lane) (s : State) :
    (s.mapLanes f).status = s.status := rfl
@[simp] theorem State.mapLanes_exit (f : Lane → Lane) (s : State) : (s.mapLanes f).exit = s.exit := rfl
@[simp] theorem State.mapLanes_errinfo (f : Lane → Lane) (s : State) :
    (s.mapLanes f).errinfo = s.errinfo := rfl
@[simp] theorem State.mapLanes_cmdCount (f : Lane → Lane) (s : State) :
    (s.mapLanes f).cmdCount = s.cmdCount := rfl
@[simp] theorem State.mapLanes_permCount (f : Lane → Lane) (s : State) :
    (s.mapLanes f).permCount = s.permCount := rfl
@[simp] theorem State.mapLanes_laneSel (f : Lane → Lane) (s : State) :
    (s.mapLanes f).laneSel = s.laneSel := rfl
@[simp] theorem State.mapLanes_rc (f : Lane → Lane) (s : State) : (s.mapLanes f).rc = s.rc := rfl
@[simp] theorem State.mapLanes_off (f : Lane → Lane) (s : State) : (s.mapLanes f).off = s.off := rfl
@[simp] theorem State.mapLanes_cursor (f : Lane → Lane) (s : State) :
    (s.mapLanes f).cursor = s.cursor := rfl
@[simp] theorem State.mapLanes_port (f : Lane → Lane) (s : State) : (s.mapLanes f).port = s.port := rfl
@[simp] theorem State.mapLanes_reply (f : Lane → Lane) (s : State) :
    (s.mapLanes f).reply = s.reply := rfl

/-! zipLanes -/

@[simp] theorem State.zipLanes_lanes (f : Lane → List Word → Lane) (ws : List (List Word)) (s : State) :
    (s.zipLanes f ws).lanes = List.zipWith f s.lanes ws := rfl
@[simp] theorem State.zipLanes_cfg (f : Lane → List Word → Lane) (ws : List (List Word)) (s : State) :
    (s.zipLanes f ws).cfg = s.cfg := rfl
@[simp] theorem State.zipLanes_status (f : Lane → List Word → Lane) (ws : List (List Word)) (s : State) :
    (s.zipLanes f ws).status = s.status := rfl
@[simp] theorem State.zipLanes_exit (f : Lane → List Word → Lane) (ws : List (List Word)) (s : State) :
    (s.zipLanes f ws).exit = s.exit := rfl
@[simp] theorem State.zipLanes_errinfo (f : Lane → List Word → Lane) (ws : List (List Word)) (s : State) :
    (s.zipLanes f ws).errinfo = s.errinfo := rfl
@[simp] theorem State.zipLanes_cmdCount (f : Lane → List Word → Lane) (ws : List (List Word)) (s : State) :
    (s.zipLanes f ws).cmdCount = s.cmdCount := rfl
@[simp] theorem State.zipLanes_permCount (f : Lane → List Word → Lane) (ws : List (List Word)) (s : State) :
    (s.zipLanes f ws).permCount = s.permCount := rfl
@[simp] theorem State.zipLanes_laneSel (f : Lane → List Word → Lane) (ws : List (List Word)) (s : State) :
    (s.zipLanes f ws).laneSel = s.laneSel := rfl
@[simp] theorem State.zipLanes_rc (f : Lane → List Word → Lane) (ws : List (List Word)) (s : State) :
    (s.zipLanes f ws).rc = s.rc := rfl
@[simp] theorem State.zipLanes_off (f : Lane → List Word → Lane) (ws : List (List Word)) (s : State) :
    (s.zipLanes f ws).off = s.off := rfl
@[simp] theorem State.zipLanes_cursor (f : Lane → List Word → Lane) (ws : List (List Word)) (s : State) :
    (s.zipLanes f ws).cursor = s.cursor := rfl
@[simp] theorem State.zipLanes_port (f : Lane → List Word → Lane) (ws : List (List Word)) (s : State) :
    (s.zipLanes f ws).port = s.port := rfl
@[simp] theorem State.zipLanes_reply (f : Lane → List Word → Lane) (ws : List (List Word)) (s : State) :
    (s.zipLanes f ws).reply = s.reply := rfl

/-! windowWrite -/

@[simp] theorem State.windowWrite_lanes (f : Lane → Lane) (s : State) :
    (s.windowWrite f).lanes = s.lanes.modify s.laneSel.toNat f := rfl
@[simp] theorem State.windowWrite_cfg (f : Lane → Lane) (s : State) :
    (s.windowWrite f).cfg = s.cfg := rfl
@[simp] theorem State.windowWrite_status (f : Lane → Lane) (s : State) :
    (s.windowWrite f).status = s.status := rfl
@[simp] theorem State.windowWrite_exit (f : Lane → Lane) (s : State) :
    (s.windowWrite f).exit = s.exit := rfl
@[simp] theorem State.windowWrite_errinfo (f : Lane → Lane) (s : State) :
    (s.windowWrite f).errinfo = s.errinfo := rfl
@[simp] theorem State.windowWrite_cmdCount (f : Lane → Lane) (s : State) :
    (s.windowWrite f).cmdCount = s.cmdCount := rfl
@[simp] theorem State.windowWrite_permCount (f : Lane → Lane) (s : State) :
    (s.windowWrite f).permCount = s.permCount := rfl
@[simp] theorem State.windowWrite_laneSel (f : Lane → Lane) (s : State) :
    (s.windowWrite f).laneSel = s.laneSel := rfl
@[simp] theorem State.windowWrite_rc (f : Lane → Lane) (s : State) : (s.windowWrite f).rc = s.rc := rfl
@[simp] theorem State.windowWrite_off (f : Lane → Lane) (s : State) :
    (s.windowWrite f).off = s.off := rfl
@[simp] theorem State.windowWrite_cursor (f : Lane → Lane) (s : State) :
    (s.windowWrite f).cursor = s.cursor := rfl
@[simp] theorem State.windowWrite_port (f : Lane → Lane) (s : State) :
    (s.windowWrite f).port = s.port := rfl
@[simp] theorem State.windowWrite_reply (f : Lane → Lane) (s : State) :
    (s.windowWrite f).reply = s.reply := rfl

/-! countCommand -/

@[simp] theorem countCommand_lanes (s : State) : (countCommand s).lanes = s.lanes := rfl
@[simp] theorem countCommand_cfg (s : State) : (countCommand s).cfg = s.cfg := rfl
@[simp] theorem countCommand_status (s : State) : (countCommand s).status = s.status := rfl
@[simp] theorem countCommand_exit (s : State) : (countCommand s).exit = s.exit := rfl
@[simp] theorem countCommand_errinfo (s : State) : (countCommand s).errinfo = s.errinfo := rfl
@[simp] theorem countCommand_cmdCount (s : State) : (countCommand s).cmdCount = s.cmdCount + 1 := rfl
@[simp] theorem countCommand_permCount (s : State) : (countCommand s).permCount = s.permCount := rfl
@[simp] theorem countCommand_laneSel (s : State) : (countCommand s).laneSel = s.laneSel := rfl
@[simp] theorem countCommand_rc (s : State) : (countCommand s).rc = s.rc := rfl
@[simp] theorem countCommand_off (s : State) : (countCommand s).off = s.off := rfl
@[simp] theorem countCommand_cursor (s : State) : (countCommand s).cursor = s.cursor := rfl
@[simp] theorem countCommand_port (s : State) : (countCommand s).port = s.port := rfl
@[simp] theorem countCommand_reply (s : State) : (countCommand s).reply = s.reply := rfl

/-! seedPrng -/

@[simp] theorem seedPrng_lanes (P : Prng) (s : State) :
    (seedPrng P s).lanes = s.lanes.map fun lane => { lane with core := P.seedInit lane.seed } := rfl
@[simp] theorem seedPrng_cfg (P : Prng) (s : State) : (seedPrng P s).cfg = s.cfg := rfl
@[simp] theorem seedPrng_status (P : Prng) (s : State) :
    (seedPrng P s).status = { s.status with prngRun := true } := rfl
@[simp] theorem seedPrng_exit (P : Prng) (s : State) : (seedPrng P s).exit = s.exit := rfl
@[simp] theorem seedPrng_errinfo (P : Prng) (s : State) : (seedPrng P s).errinfo = s.errinfo := rfl
@[simp] theorem seedPrng_cmdCount (P : Prng) (s : State) : (seedPrng P s).cmdCount = s.cmdCount := rfl
@[simp] theorem seedPrng_permCount (P : Prng) (s : State) : (seedPrng P s).permCount = s.permCount := rfl
@[simp] theorem seedPrng_laneSel (P : Prng) (s : State) : (seedPrng P s).laneSel = s.laneSel := rfl
@[simp] theorem seedPrng_rc (P : Prng) (s : State) : (seedPrng P s).rc = s.rc := rfl
@[simp] theorem seedPrng_off (P : Prng) (s : State) : (seedPrng P s).off = s.off := rfl
@[simp] theorem seedPrng_cursor (P : Prng) (s : State) : (seedPrng P s).cursor = 16 := rfl
@[simp] theorem seedPrng_port (P : Prng) (s : State) : (seedPrng P s).port = s.port := rfl
@[simp] theorem seedPrng_reply (P : Prng) (s : State) : (seedPrng P s).reply = s.reply := rfl

/-! stepCores -/

@[simp] theorem stepCores_lanes (P : Prng) (s : State) :
    (stepCores P s).lanes = s.lanes.map fun lane => { lane with core := P.perm lane.core } := rfl
@[simp] theorem stepCores_cfg (P : Prng) (s : State) : (stepCores P s).cfg = s.cfg := rfl
@[simp] theorem stepCores_status (P : Prng) (s : State) : (stepCores P s).status = s.status := rfl
@[simp] theorem stepCores_exit (P : Prng) (s : State) : (stepCores P s).exit = s.exit := rfl
@[simp] theorem stepCores_errinfo (P : Prng) (s : State) : (stepCores P s).errinfo = s.errinfo := rfl
@[simp] theorem stepCores_cmdCount (P : Prng) (s : State) : (stepCores P s).cmdCount = s.cmdCount := rfl
@[simp] theorem stepCores_permCount (P : Prng) (s : State) :
    (stepCores P s).permCount = s.permCount + 1 := rfl
@[simp] theorem stepCores_laneSel (P : Prng) (s : State) : (stepCores P s).laneSel = s.laneSel := rfl
@[simp] theorem stepCores_rc (P : Prng) (s : State) : (stepCores P s).rc = s.rc := rfl
@[simp] theorem stepCores_off (P : Prng) (s : State) : (stepCores P s).off = s.off := rfl
@[simp] theorem stepCores_cursor (P : Prng) (s : State) : (stepCores P s).cursor = s.cursor := rfl
@[simp] theorem stepCores_port (P : Prng) (s : State) : (stepCores P s).port = s.port := rfl
@[simp] theorem stepCores_reply (P : Prng) (s : State) : (stepCores P s).reply = s.reply := rfl

/-! setEarly -/

@[simp] theorem setEarly_lanes (b : Bool) (s : State) : (setEarly b s).lanes = s.lanes := rfl
@[simp] theorem setEarly_cfg (b : Bool) (s : State) : (setEarly b s).cfg = s.cfg := rfl
@[simp] theorem setEarly_status (b : Bool) (s : State) :
    (setEarly b s).status = { s.status with early := b } := rfl
@[simp] theorem setEarly_exit (b : Bool) (s : State) : (setEarly b s).exit = s.exit := rfl
@[simp] theorem setEarly_errinfo (b : Bool) (s : State) : (setEarly b s).errinfo = s.errinfo := rfl
@[simp] theorem setEarly_cmdCount (b : Bool) (s : State) : (setEarly b s).cmdCount = s.cmdCount := rfl
@[simp] theorem setEarly_permCount (b : Bool) (s : State) : (setEarly b s).permCount = s.permCount := rfl
@[simp] theorem setEarly_laneSel (b : Bool) (s : State) : (setEarly b s).laneSel = s.laneSel := rfl
@[simp] theorem setEarly_rc (b : Bool) (s : State) : (setEarly b s).rc = s.rc := rfl
@[simp] theorem setEarly_off (b : Bool) (s : State) : (setEarly b s).off = s.off := rfl
@[simp] theorem setEarly_cursor (b : Bool) (s : State) : (setEarly b s).cursor = s.cursor := rfl
@[simp] theorem setEarly_port (b : Bool) (s : State) : (setEarly b s).port = s.port := rfl
@[simp] theorem setEarly_reply (b : Bool) (s : State) : (setEarly b s).reply = s.reply := rfl

/-! advanceRc -/

@[simp] theorem advanceRc_lanes (s : State) : (advanceRc s).lanes = s.lanes := rfl
@[simp] theorem advanceRc_cfg (s : State) : (advanceRc s).cfg = s.cfg := rfl
@[simp] theorem advanceRc_status (s : State) : (advanceRc s).status = s.status := rfl
@[simp] theorem advanceRc_exit (s : State) : (advanceRc s).exit = s.exit := rfl
@[simp] theorem advanceRc_errinfo (s : State) : (advanceRc s).errinfo = s.errinfo := rfl
@[simp] theorem advanceRc_cmdCount (s : State) : (advanceRc s).cmdCount = s.cmdCount := rfl
@[simp] theorem advanceRc_permCount (s : State) : (advanceRc s).permCount = s.permCount := rfl
@[simp] theorem advanceRc_laneSel (s : State) : (advanceRc s).laneSel = s.laneSel := rfl
@[simp] theorem advanceRc_rc (s : State) : (advanceRc s).rc = lfsrNext s.rc := rfl
@[simp] theorem advanceRc_off (s : State) : (advanceRc s).off = s.off := rfl
@[simp] theorem advanceRc_cursor (s : State) : (advanceRc s).cursor = s.cursor := rfl
@[simp] theorem advanceRc_port (s : State) : (advanceRc s).port = s.port := rfl
@[simp] theorem advanceRc_reply (s : State) : (advanceRc s).reply = s.reply := rfl

/-! The number of lanes -/

@[simp] theorem State.mapLanes_nl (f : Lane → Lane) (s : State) : (s.mapLanes f).nl = s.nl := by
  simp [State.nl]

@[simp] theorem State.windowWrite_nl (f : Lane → Lane) (s : State) : (s.windowWrite f).nl = s.nl := by
  simp [State.nl]

@[simp] theorem seedPrng_nl (P : Prng) (s : State) : (seedPrng P s).nl = s.nl := by simp [State.nl]

@[simp] theorem stepCores_nl (P : Prng) (s : State) : (stepCores P s).nl = s.nl := by simp [State.nl]

/-- A block of `nl` lanes at reset has `nl` lanes. -/
@[simp] theorem resetOf_nl (n : Nat) : (resetOf n).nl = n := by simp [State.nl, resetOf]

/-- The block's parameter NL is one of 1..16 (R4). -/
theorem Config_nl_range : 1 ≤ Config.nl ∧ Config.nl ≤ 16 := by
  have := Config.laneRaw.isLt
  unfold Config.nl
  omega

end Sys2Proof.Machine
end

