-- ==== Sys2Proof/Laws/Ops.lean ====
section
/-! SUPPORT. What fault entry, the check order and the issue of a command can do, said once. -/

namespace Sys2Proof.Machine

theorem raiseFault_of_faulted {s : State} (h : s.status.fault = true) (code : ErrCode) (info : Word) :
    raiseFault code info s = s := by
  simp [raiseFault, h]

theorem raiseFault_of_ok {s : State} (h : s.status.fault = false) (code : ErrCode) (info : Word) :
    raiseFault code info s =
      { s with status := { s.status with fault := true, err := code }, errinfo := info } := by
  simp [raiseFault, h]

/-- After fault entry the block is faulted (R310). -/
@[simp] theorem raiseFault_fault (code : ErrCode) (info : Word) (s : State) :
    (raiseFault code info s).status.fault = true := by
  unfold raiseFault; split <;> simp_all

/-- Fault entry changes STATUS.FAULT, STATUS.ERR and ERRINFO only (R310, R312). -/
theorem raiseFault_frame (code : ErrCode) (info : Word) (s : State) :
    raiseFault code info s =
      { s with
        status := { s.status with
          fault := true, err := (raiseFault code info s).status.err }
        errinfo := (raiseFault code info s).errinfo } := by
  unfold raiseFault; split
  · rename_i h; cases s with | mk _ _ st => cases st; simp_all
  · rfl

/-- No check applies exactly when every one of R304 passes. -/
theorem firstFault_eq_none {bad : Bool} {c : Checks} {t : Status} :
    firstFault bad c t = none ↔
      bad = false ∧ (c.needsCfg = true → t.cfgValid = true) ∧ (c.needsDp = true → t.dpInit = true) ∧
        c.exit = false ∧ c.sched = false ∧ c.tape = false := by
  obtain ⟨a, b, d, e, f⟩ := c
  cases bad <;> cases a <;> cases b <;> cases d <;> cases e <;> cases f <;>
    cases h : t.cfgValid <;> cases h' : t.dpInit <;> simp [firstFault, h, h']

/-- A check that applies names a fault. -/
theorem firstFault_ne_none {bad : Bool} {c : Checks} {t : Status} {e : ErrCode}
    (h : firstFault bad c t = some e) : e ≠ .none := by
  unfold firstFault at h
  repeat' split at h
  all_goals first | (injection h with h; subst h; decide) | cases h

theorem command_of_faulted {s : State} (h : s.status.fault = true) (i : Instr) (c : Checks)
    (body : State → State) : command i c body s = .next s := by
  simp [command, h]

theorem command_of_check {s : State} {i : Instr} {c : Checks} {e : ErrCode}
    (h : s.status.fault = false) (he : firstFault (operandBad i) c s.status = some e)
    (body : State → State) : command i c body s = .next (raiseFault e (encode i) s) := by
  simp [command, h, he]

theorem command_of_pass {s : State} {i : Instr} {c : Checks}
    (h : s.status.fault = false) (hc : firstFault (operandBad i) c s.status = none)
    (body : State → State) : command i c body s = .next (countCommand (body s)) := by
  simp [command, h, hc]

/-- Everything the issue of a command can do (R290): it is refused, it faults, or it runs and counts. -/
theorem command_cases {i : Instr} {c : Checks} {body : State → State} {s t : State}
    (h : command i c body s = .next t) :
    (s.status.fault = true ∧ t = s) ∨
    (∃ e, s.status.fault = false ∧ firstFault (operandBad i) c s.status = some e ∧
      t = raiseFault e (encode i) s) ∨
    (s.status.fault = false ∧ firstFault (operandBad i) c s.status = none ∧
      t = countCommand (body s)) := by
  unfold command at h
  split at h
  · injection h with h; exact .inl ⟨by assumption, h.symm⟩
  · rename_i hf
    have hf : s.status.fault = false := by simpa using hf
    split at h <;> injection h with h
    · rename_i e he; exact .inr (.inl ⟨e, hf, he, h.symm⟩)
    · rename_i he; exact .inr (.inr ⟨hf, he, h.symm⟩)

/-- The issue of a command answers a next state. -/
theorem command_next (i : Instr) (c : Checks) (body : State → State) (s : State) :
    ∃ t, command i c body s = .next t := by
  unfold command; split
  · exact ⟨_, rfl⟩
  · split <;> exact ⟨_, rfl⟩

/-- The out-of-range operands are exactly those of an ill-formed command (R126). -/
theorem operandBad_eq_not_wf (i : Instr) : operandBad i = !i.wf := by
  cases i <;> simp only [operandBad, Instr.wf] <;> first | rfl | skip
  all_goals
    rw [Bool.eq_iff_iff]
    simp
    try omega

end Sys2Proof.Machine
end

