-- ==== Sys2Proof/Laws/Operands.lean ====
section
/-! SUPPORT. What the operand forms read and write, said once. -/

namespace Sys2Proof.Machine

theorem share_of_lt (s : ShareVec) {i : Nat} (h : i < 8) : share s i = s[i] := by simp [share, h]

@[simp] theorem share_fin (s : ShareVec) (i : Fin 8) : share s i.val = s[i] := by
  simp [share_of_lt s i.isLt]

theorem share_of_ge (s : ShareVec) {i : Nat} (h : 8 ≤ i) : share s i = 0 := by
  simp [share, Nat.not_lt.mpr h]

/-- Two share-vectors are equal when their eight shares are. -/
theorem ShareVec_ext {a b : ShareVec} (h : ∀ i, i < 8 → share a i = share b i) : a = b := by
  apply Vector.ext
  intro i hi
  simpa [share_of_lt _ hi] using h i hi

/-- Share j after XORing `w` into share i. -/
theorem share_xorShare (s : ShareVec) (i j : Nat) (w : Word) :
    share (xorShare s i w) j = if i = j ∧ i < 8 then share s j ^^^ w else share s j := by
  unfold xorShare
  by_cases hi : i < 8
  · by_cases hj : j < 8
    · by_cases e : i = j
      · subst e; simp [share, hi]
      · simp [share, hi, hj, e]
    · have : i ≠ j := by omega
      simp [share, hj, this]
  · simp [hi]

/-- XORing zero into a share changes nothing. -/
@[simp] theorem xorShare_zero (s : ShareVec) (i : Nat) : xorShare s i 0 = s := by
  refine ShareVec_ext fun j _ => ?_
  rw [share_xorShare]
  split <;> simp

theorem share_shareXor (a b : ShareVec) (i : Nat) :
    share (shareXor a b) i = share a i ^^^ share b i := by
  by_cases h : i < 8 <;> simp [share, shareXor, h]

@[simp] theorem mergeShares_get (d : Nat) (new old : ShareVec) (i : Nat) (h : i < 8) :
    (mergeShares d new old)[i] = if i < d then new[i] else old[i] := by
  simp [mergeShares]

theorem share_mergeShares {d : Nat} (new old : ShareVec) {i : Nat} (h : i < d) :
    share (mergeShares d new old) i = share new i := by
  by_cases h8 : i < 8 <;> simp [share, mergeShares, h8, h]

/-- A group write changes the share-vector file only. -/
theorem writeGroup_frame (d base : Nat) (new : List ShareVec) (lane : Lane) :
    lane.writeGroup d base new = { lane with v := (lane.writeGroup d base new).v } := rfl

/-- Every register after a group write. -/
theorem writeGroup_v (d base : Nat) (new : List ShareVec) (lane : Lane) (r : VReg) :
    (lane.writeGroup d base new).v[r] =
      if base ≤ r.val then ((new[r.val - base]?).map fun n => mergeShares d n lane.v[r]).getD lane.v[r]
      else lane.v[r] := by
  simp only [Lane.writeGroup, Fin.getElem_fin, Vector.getElem_ofFn]
  split
  · cases new[r.val - base]? <;> rfl
  · rfl

/-- Writing one register: words below `d` of that register only. -/
theorem writeOne_v (d : Nat) (r : VReg) (new : ShareVec) (lane : Lane) (q : VReg) :
    (lane.writeGroup d r [new]).v[q] = if q = r then mergeShares d new lane.v[q] else lane.v[q] := by
  rw [writeGroup_v]
  by_cases e : q = r
  · subst e; simp
  · have hne : q.val ≠ r.val := fun h => e (Fin.ext h)
    by_cases h : r.val ≤ q.val
    · have : ∃ k, q.val - r.val = k + 1 := ⟨q.val - r.val - 1, by omega⟩
      obtain ⟨k, hk⟩ := this
      simp [e, h, hk]
    · simp [e, h]

/-- Writing one register, word by word. -/
theorem writeOne_wrote (d : Nat) (r : VReg) (new : ShareVec) (lane : Lane) :
    WroteV d r (share new) lane (lane.writeGroup d r [new]) := by
  intro q i
  rw [writeOne_v]
  by_cases e : q = r
  · by_cases h : i.val < d <;> simp [e, h]
  · simp [e]

/-- A group write changes registers base..base+n-1 only, in words below `d`. -/
theorem writeGroup_wrote (d base : Nat) (new : List ShareVec) (lane : Lane) :
    WroteGroup d base new.length (fun k i => share (new.getD k (Vector.replicate 8 0)) i) lane
      (lane.writeGroup d base new) := by
  intro q i
  rw [writeGroup_v]
  by_cases h : base ≤ q.val
  · by_cases h' : q.val < base + new.length
    · have hk : q.val - base < new.length := by omega
      by_cases hd : i.val < d <;> simp [h, h', hk, hd]
    · have hk : new.length ≤ q.val - base := by omega
      simp [h, h', hk]
  · simp [h]

/-! The other banked registers after a write of V or X -/

@[simp] theorem Lane.writeGroup_x (d base : Nat) (new : List ShareVec) (lane : Lane) :
    (lane.writeGroup d base new).x = lane.x := by unfold Lane.writeGroup; rfl

@[simp] theorem Lane.writeGroup_seed (d base : Nat) (new : List ShareVec) (lane : Lane) :
    (lane.writeGroup d base new).seed = lane.seed := by unfold Lane.writeGroup; rfl

@[simp] theorem Lane.writeGroup_core (d base : Nat) (new : List ShareVec) (lane : Lane) :
    (lane.writeGroup d base new).core = lane.core := by unfold Lane.writeGroup; rfl

@[simp] theorem Lane.writeGroup_tape (d base : Nat) (new : List ShareVec) (lane : Lane) :
    (lane.writeGroup d base new).tape = lane.tape := by unfold Lane.writeGroup; rfl

@[simp] theorem Lane.writeGroup_tk (d base : Nat) (new : List ShareVec) (lane : Lane) :
    (lane.writeGroup d base new).tk = lane.tk := by unfold Lane.writeGroup; rfl

@[simp] theorem Lane.writePublic_v (k : XReg) (new : List Word) (lane : Lane) :
    (lane.writePublic k new).v = lane.v := by unfold Lane.writePublic; rfl

@[simp] theorem Lane.writePublic_seed (k : XReg) (new : List Word) (lane : Lane) :
    (lane.writePublic k new).seed = lane.seed := by unfold Lane.writePublic; rfl

@[simp] theorem Lane.writePublic_core (k : XReg) (new : List Word) (lane : Lane) :
    (lane.writePublic k new).core = lane.core := by unfold Lane.writePublic; rfl

@[simp] theorem Lane.writePublic_tape (k : XReg) (new : List Word) (lane : Lane) :
    (lane.writePublic k new).tape = lane.tape := by unfold Lane.writePublic; rfl

@[simp] theorem Lane.writePublic_tk (k : XReg) (new : List Word) (lane : Lane) :
    (lane.writePublic k new).tk = lane.tk := by unfold Lane.writePublic; rfl

@[simp] theorem Lane.writeQuad_x (d : Nat) (r : VReg) (q : Quad) (lane : Lane) :
    (lane.writeQuad d r q).x = lane.x := by unfold Lane.writeQuad; simp

@[simp] theorem Lane.writeQuad_seed (d : Nat) (r : VReg) (q : Quad) (lane : Lane) :
    (lane.writeQuad d r q).seed = lane.seed := by unfold Lane.writeQuad; simp

@[simp] theorem Lane.writeQuad_core (d : Nat) (r : VReg) (q : Quad) (lane : Lane) :
    (lane.writeQuad d r q).core = lane.core := by unfold Lane.writeQuad; simp

@[simp] theorem Lane.writeQuad_tape (d : Nat) (r : VReg) (q : Quad) (lane : Lane) :
    (lane.writeQuad d r q).tape = lane.tape := by unfold Lane.writeQuad; simp

@[simp] theorem Lane.writeQuad_tk (d : Nat) (r : VReg) (q : Quad) (lane : Lane) :
    (lane.writeQuad d r q).tk = lane.tk := by unfold Lane.writeQuad; simp

end Sys2Proof.Machine
end

