-- ==== Sys2Proof/Laws/Gadgets.lean ====
section
/-! SUPPORT. How the value of a sharing moves under the operations the gadgets are made of, and how many
words each gadget takes. -/

namespace Sys2Proof.Machine

/-- R9's rotation is the rotation of bit vectors. -/
theorem rotr_eq_rotateRight (x : Word) {c : Nat} (h : c < 32) : rotr x c = x.rotateRight c := by
  unfold rotr
  split
  · subst c; simp [BitVec.rotateRight_def]
  · rw [BitVec.rotateRight_def, Nat.mod_eq_of_lt h]

@[simp] theorem unmask_zero (s : ShareVec) : unmask 0 s = 0 := rfl

/-- The value of one more share. -/
theorem unmask_succ (d : Nat) (s : ShareVec) : unmask (d + 1) s = unmask d s ^^^ share s d := by
  simp [unmask, List.range_succ]

/-- The value depends on the shares below the order only. -/
theorem unmask_congr {d : Nat} {a b : ShareVec} (h : ∀ i, i < d → share a i = share b i) :
    unmask d a = unmask d b := by
  induction d with
  | zero => rfl
  | succ d ih => rw [unmask_succ, unmask_succ, ih fun i hi => h i (by omega), h d (by omega)]

/-- XORing a word into one share XORs it into the value (R164). -/
theorem unmask_xorShare {d : Nat} (s : ShareVec) {i : Nat} (w : Word) (hi : i < d) (h8 : i < 8) :
    unmask d (xorShare s i w) = unmask d s ^^^ w := by
  induction d with
  | zero => omega
  | succ d ih =>
    rw [unmask_succ, unmask_succ, share_xorShare]
    by_cases e : i = d
    · subst e
      rw [unmask_congr (b := s) fun j hj => by rw [share_xorShare, if_neg (by omega)]]
      simp [h8, BitVec.xor_assoc]
    · rw [ih (by omega), if_neg (by omega), BitVec.xor_assoc, BitVec.xor_comm w, ← BitVec.xor_assoc]

/-- The value of a share-wise XOR (R161). -/
theorem unmask_shareXor (d : Nat) (a b : ShareVec) :
    unmask d (shareXor a b) = unmask d a ^^^ unmask d b := by
  induction d with
  | zero => simp
  | succ d ih =>
    rw [unmask_succ, unmask_succ, unmask_succ, ih, share_shareXor]
    ac_rfl

/-- The value of a destination is the value written: words below the order are all replaced. -/
theorem unmask_mergeShares (d : Nat) (new old : ShareVec) :
    unmask d (mergeShares d new old) = unmask d new :=
  unmask_congr fun _ hi => share_mergeShares new old hi

/-- An ISW multiplication takes D·(D-1)/2 words, one for each pair (R162). -/
theorem iswPairs_length {d : Nat} (h : d ≤ 8) : (iswPairs d).length = iswDraws d := by
  interval_cases d <;> decide

/-- A pair of an ISW multiplication is two different shares below the order. -/
theorem iswPairs_mem {d : Nat} {p : Nat × Nat} (h : p ∈ iswPairs d) : p.1 < p.2 ∧ p.2 < d := by
  simp only [iswPairs, List.mem_flatMap, List.mem_map, List.mem_range, List.mem_range'_1] at h
  obtain ⟨i, hi, j, ⟨hj, hj'⟩, rfl⟩ := h
  exact ⟨by simpa using hj, by simp only; omega⟩

/-- A refresh takes D words for D < 4 and 2·D from there on (R163). -/
theorem refreshPairs_length {d : Nat} (h : d ≤ 8) : (refreshPairs d).length = refreshDraws d := by
  interval_cases d <;> decide

/-- A refresh pair is two different shares below the order, for every accepted order (R163). -/
theorem refreshPairs_mem {d : Nat} (h2 : 2 ≤ d) (h8 : d ≤ 8) {p : Nat × Nat} (h : p ∈ refreshPairs d) :
    p.1 ≠ p.2 ∧ p.1 < d ∧ p.2 < d := by
  interval_cases d <;> revert p <;> decide

/-- One refresh step keeps the value: the word goes into two different shares (R163). -/
theorem unmask_refreshStep {d : Nat} (h8 : d ≤ 8) (s : ShareVec) {i j : Nat} (w : Word)
    (hi : i < d) (hj : j < d) : unmask d (xorShare (xorShare s i w) j w) = unmask d s := by
  rw [unmask_xorShare _ _ hj (by omega), unmask_xorShare _ _ hi (by omega), BitVec.xor_assoc]
  simp

/-- One pair of the ISW multiplication adds both cross products to the value, whatever its random word is
(R162). -/
theorem unmask_iswPair {d : Nat} (h8 : d ≤ 8) (a b out : ShareVec) {i j : Nat} (r : Word)
    (hi : i < d) (hj : j < d) :
    unmask d (iswPair a b out ((i, j), r)) =
      unmask d out ^^^ ((share a i &&& share b j) ^^^ (share a j &&& share b i)) := by
  unfold iswPair
  simp only
  rw [unmask_xorShare _ _ hj (by omega), unmask_xorShare _ _ hi (by omega)]
  have : r ^^^ r = 0 := BitVec.xor_self
  calc _ = unmask d out ^^^ ((share a i &&& share b j) ^^^ (share a j &&& share b i)) ^^^ (r ^^^ r) := by
        ac_rfl
    _ = _ := by rw [this]; simp

end Sys2Proof.Machine
end

