-- ==== Sys2Proof/Laws/Prng.lean ====
section
/-! SUPPORT. What a draw can change, said once: CORE and TAPE of the lanes, CURSOR, PERM_COUNT and
PRNG_RUN (spec/41_masking.md R160(c)); how many words it answers. -/

namespace Sys2Proof.Machine

/-- `t` is `s` with other PRNG state: the lanes keep V, X, SEED and TK, and no shared field but CURSOR,
PERM_COUNT and PRNG_RUN differs. -/
structure SameButPrng (s t : State) : Prop where
  shared : t = { s with
    lanes := t.lanes, cursor := t.cursor, permCount := t.permCount
    status := { s.status with prngRun := t.status.prngRun } }
  lanes : List.Forall₂ (fun a b : Lane => b = { a with core := b.core, tape := b.tape }) s.lanes t.lanes

theorem SameButPrng.refl (s : State) : SameButPrng s s :=
  ⟨rfl, List.forall₂_same.mpr fun _ _ => rfl⟩

/-- Lanes that differ in CORE and TAPE twice over differ in CORE and TAPE. -/
theorem prngLanes_trans {xs ys zs : List Lane}
    (h : List.Forall₂ (fun a b : Lane => b = { a with core := b.core, tape := b.tape }) xs ys)
    (k : List.Forall₂ (fun a b : Lane => b = { a with core := b.core, tape := b.tape }) ys zs) :
    List.Forall₂ (fun a b : Lane => b = { a with core := b.core, tape := b.tape }) xs zs := by
  induction h generalizing zs with
  | nil => cases k; exact .nil
  | cons hd _ ih =>
    cases k with
    | cons hd' tl' =>
      refine .cons ?_ (ih tl')
      rw [hd] at hd'
      exact hd'

theorem SameButPrng.trans {s t u : State} (h : SameButPrng s t) (k : SameButPrng t u) :
    SameButPrng s u := by
  refine ⟨?_, prngLanes_trans h.lanes k.lanes⟩
  have h1 := h.shared
  have k1 := k.shared
  generalize t.lanes = a at h1
  generalize t.cursor = b at h1
  generalize t.permCount = c at h1
  generalize t.status.prngRun = d at h1
  subst h1
  exact k1

theorem SameButPrng.nl {s t : State} (h : SameButPrng s t) : t.nl = s.nl :=
  h.lanes.length_eq.symm

theorem SameButPrng.cfg {s t : State} (h : SameButPrng s t) : t.cfg = s.cfg := by rw [h.shared]

theorem SameButPrng.order {s t : State} (h : SameButPrng s t) : t.order = s.order := by
  simp [State.order, h.cfg]

/-- Lanes changed in CORE and TAPE only. -/
theorem forall₂_map_prng {f : Lane → Lane} (h : ∀ a, f a = { a with core := (f a).core, tape := (f a).tape })
    (l : List Lane) :
    List.Forall₂ (fun a b : Lane => b = { a with core := b.core, tape := b.tape }) l (l.map f) := by
  rw [List.forall₂_map_right_iff]
  exact List.forall₂_same.mpr fun a _ => h a

theorem seedPrng_same (P : Prng) (s : State) : SameButPrng s (seedPrng P s) :=
  ⟨rfl, forall₂_map_prng (fun _ => rfl) _⟩

theorem stepCores_same (P : Prng) (s : State) : SameButPrng s (stepCores P s) :=
  ⟨rfl, forall₂_map_prng (fun _ => rfl) _⟩

theorem extractHalf_same (P : Prng) (h : Nat) (s : State) : SameButPrng s (extractHalf P h s) :=
  ⟨rfl, forall₂_map_prng (fun _ => rfl) _⟩

theorem setCursor_same (c : BitVec 5) (s : State) : SameButPrng s { s with cursor := c } :=
  ⟨rfl, List.forall₂_same.mpr fun _ _ => rfl⟩

theorem refill_same (P : Prng) (s : State) : SameButPrng s (refill P s) :=
  (stepCores_same P s).trans <| (extractHalf_same P 0 _).trans <| (stepCores_same P _).trans <|
    (extractHalf_same P 1 _).trans (setCursor_same 0 _)

theorem ensureRunning_same (P : Prng) (s : State) : SameButPrng s (ensureRunning P s) := by
  unfold ensureRunning
  split
  · exact .refl s
  · exact seedPrng_same P s

theorem refillAtEnd_same (P : Prng) (s : State) : SameButPrng s (refillAtEnd P s) := by
  unfold refillAtEnd
  split
  · exact refill_same P s
  · exact .refl s

theorem readyTape_same (P : Prng) (s : State) : SameButPrng s (readyTape P s) :=
  (ensureRunning_same P s).trans (refillAtEnd_same P _)

theorem draw_same (P : Prng) (n : Nat) (s : State) : SameButPrng s (draw P n s).1 :=
  (readyTape_same P s).trans (setCursor_same _ _)

/-- What `k` single draws can change. -/
theorem drawWords_same (P : Prng) (k : Nat) (s : State) : SameButPrng s (drawWords P k s).1 := by
  induction k generalizing s with
  | zero => exact .refl s
  | succ k ih => exact (draw_same P 1 s).trans (ih _)

@[simp] theorem refill_cursor (P : Prng) (s : State) : (refill P s).cursor = 0 := rfl

@[simp] theorem refill_status (P : Prng) (s : State) : (refill P s).status = s.status := rfl

/-- The PRNG runs after the seeding step of a draw. -/
@[simp] theorem ensureRunning_run (P : Prng) (s : State) : (ensureRunning P s).status.prngRun = true := by
  unfold ensureRunning
  split
  · assumption
  · rfl

theorem ensureRunning_of_run (P : Prng) {s : State} (h : s.status.prngRun = true) :
    ensureRunning P s = s := by simp [ensureRunning, h]

theorem ensureRunning_of_uninit (P : Prng) {s : State} (h : s.status.prngRun = false) :
    ensureRunning P s = seedPrng P s := by simp [ensureRunning, h]

theorem refillAtEnd_of_end (P : Prng) {s : State} (h : 16 ≤ s.cursor.toNat) :
    refillAtEnd P s = refill P s := by simp [refillAtEnd, h]

theorem refillAtEnd_of_left (P : Prng) {s : State} (h : s.cursor.toNat < 16) :
    refillAtEnd P s = s := by simp [refillAtEnd, Nat.not_le.mpr h]

/-- After a refill CURSOR is 0, so the tape a draw reads has a word at CURSOR. -/
theorem readyTape_cursor (P : Prng) (s : State) : (readyTape P s).cursor.toNat < 16 := by
  unfold readyTape refillAtEnd
  split
  · simp
  · omega

/-- The PRNG runs once a draw has read the tape. -/
theorem readyTape_run (P : Prng) (s : State) : (readyTape P s).status.prngRun = true := by
  unfold readyTape refillAtEnd
  split <;> simp

/-- A draw answers one list of words for each lane. -/
@[simp] theorem draw_words_length (P : Prng) (n : Nat) (s : State) : (draw P n s).2.length = s.nl := by
  have h : (readyTape P s).lanes.length = s.lanes.length := (readyTape_same P s).nl
  simp [draw, h, State.nl]

/-- A draw of n words answers n words in each lane. -/
theorem draw_words_each (P : Prng) (n : Nat) (s : State) {ws : List Word} (h : ws ∈ (draw P n s).2) :
    ws.length = n := by
  simp only [draw, List.mem_map] at h
  obtain ⟨lane, _, rfl⟩ := h
  simp

@[simp] theorem drawWords_length (P : Prng) (k : Nat) (s : State) :
    (drawWords P k s).2.length = s.nl := by
  induction k generalizing s with
  | zero => simp [drawWords, State.nl]
  | succ k ih => simp [drawWords, ih, (draw_same P 1 s).nl]

/-- `k` single draws answer k words in each lane. -/
theorem drawWords_each (P : Prng) (k : Nat) (s : State) {ws : List Word} (h : ws ∈ (drawWords P k s).2) :
    ws.length = k := by
  induction k generalizing s ws with
  | zero =>
    simp only [drawWords, List.mem_map] at h
    obtain ⟨_, _, rfl⟩ := h
    rfl
  | succ k ih =>
    simp only [drawWords, List.mem_iff_getElem, List.length_zipWith, List.getElem_zipWith] at h
    obtain ⟨l, hl, rfl⟩ := h
    rw [List.length_append, draw_words_each P 1 s (List.getElem_mem _), ih _ (List.getElem_mem _)]
    omega

/-- A command that draws and then writes: the state of the draws with every lane changed. -/
theorem drawThen_eq (P : Prng) (k : Nat) (f : Lane → List Word → Lane) (s : State) :
    drawThen P k f s =
      { (drawWords P k s).1 with
        lanes := List.zipWith f (drawWords P k s).1.lanes (drawWords P k s).2 } := rfl

/-- Lane l after a command that draws and then writes. -/
theorem drawThen_lane (P : Prng) (k : Nat) (f : Lane → List Word → Lane) (s : State) {l : Nat}
    {a : Lane} (h : s.lanes[l]? = some a) :
    ∃ c ws, (drawWords P k s).1.lanes[l]? = some c ∧ (drawWords P k s).2[l]? = some ws ∧
      ws.length = k ∧ c = { a with core := c.core, tape := c.tape } ∧
      (drawThen P k f s).lanes[l]? = some (f c ws) := by
  obtain ⟨hl, ha⟩ := List.getElem?_eq_some_iff.mp h
  have hs := drawWords_same P k s
  have hc : l < (drawWords P k s).1.lanes.length := by
    rw [show (drawWords P k s).1.lanes.length = s.nl from hs.nl]; exact hl
  have hw : l < (drawWords P k s).2.length := by rw [drawWords_length]; exact hl
  refine ⟨_, _, List.getElem?_eq_getElem hc, List.getElem?_eq_getElem hw,
    drawWords_each P k s (List.getElem_mem hw), ?_, ?_⟩
  · have := (List.forall₂_iff_get.mp hs.lanes).2 l hl hc
    simpa [ha] using this
  · rw [drawThen_eq]
    simp [List.getElem?_zipWith, List.getElem?_eq_getElem hc, List.getElem?_eq_getElem hw]

end Sys2Proof.Machine
end

