-- ==== Sys2Proof/Laws/Exec.lean ====
section
/-! SUPPORT. Every command at once: its checks and its execution as functions of the command, `exec` as
their issue, and everything the execution of a command can change. -/

namespace Sys2Proof.Machine

/-- What each command is checked for beside its operands. -/
def checksOf : Instr → State → Checks
  | .nop, _ => { needsCfg := false }
  | .sadd _ _ _, _ => {}
  | .smul _ _ _, _ => {}
  | .sref _ _, _ => {}
  | .spub _ _ _, _ => {}
  | .smov _ _, _ => {}
  | .slref _ _, _ => {}
  | .sfresh _, _ => {}
  | .ssbox _ _, _ => {}
  | .slbox _ _, _ => {}
  | .minit, _ => {}
  | .mhalf _, _ => { needsDp := true }
  | .mkey, s => { needsDp := true, sched := s.off == 0 }
  | .mperm, s => { exit := s.exit.en && decide (s.rounds ≤ s.exit.round.toNat) }
  | .rinit, _ => {}
  | .rget _ n, s => { tape := decide (16 < cursorAfterRefill s + n.val) }
  | .rstep, _ => {}

/-- What each command executes. -/
def bodyOf : Instr → State → State
  | .nop => id
  | .sadd vd va vb => saddBody vd va vb
  | .smul vd va vb => smulBody Config.prng vd va vb
  | .sref vd va => srefBody Config.prng vd va
  | .spub vd va xk => spubBody vd va xk
  | .smov vd va => smovBody vd va
  | .slref vd va => slrefBody Config.prng vd va
  | .sfresh vd => sfreshBody Config.prng vd
  | .ssbox vd n => sboxLayer Config.prng vd (n.val == 1)
  | .slbox vd va => slboxBody vd va
  | .minit => minitBody
  | .mhalf n => mhalfBody Config.prng (n.val == 1)
  | .mkey => mkeyBody
  | .mperm => mpermBody Config.prng
  | .rinit => rinitBody
  | .rget xk n => rgetBody Config.prng xk n.val
  | .rstep => rstepBody Config.prng

/-- Every command is the issue of its checks and its execution (R290). -/
theorem exec_eq_command (i : Instr) (s : State) : exec i s = command i (checksOf i s) (bodyOf i) s := by
  cases i <;> rfl

/-- The checks of every command are the table of R303 in the order of R304. -/
theorem firstFault_eq_expected (i : Instr) (s : State) :
    firstFault (operandBad i) (checksOf i s) s.status = expectedFault i s := by
  cases i <;> cases h : s.status.cfgValid <;> cases h' : s.status.dpInit <;>
    simp [firstFault, operandBad, checksOf, expectedFault, h, h', cursorAfterRefill]

/-- A command that meets no fault runs and is counted. -/
theorem exec_of_pass {i : Instr} {s : State} (hf : s.status.fault = false)
    (hp : expectedFault i s = none) : exec i s = .next (countCommand (bodyOf i s)) := by
  rw [exec_eq_command]
  exact command_of_pass hf (by rw [firstFault_eq_expected, hp]) _

/-- A command that meets a fault takes it. -/
theorem exec_of_fault {i : Instr} {s : State} {e : ErrCode} (hf : s.status.fault = false)
    (he : expectedFault i s = some e) : exec i s = .next (s.withFault e (encode i)) := by
  rw [exec_eq_command, command_of_check hf (by rw [firstFault_eq_expected, he]), raiseFault_of_ok hf]
  rfl

/-- A command issued to a faulted block has no effect. -/
theorem exec_of_faulted {i : Instr} {s : State} (hf : s.status.fault = true) : exec i s = .next s := by
  rw [exec_eq_command]
  exact command_of_faulted hf _ _ _

/-- Everything a command can answer. -/
theorem exec_cases {i : Instr} {s t : State} (h : exec i s = .next t) :
    (s.status.fault = true ∧ t = s) ∨
    (∃ e, s.status.fault = false ∧ expectedFault i s = some e ∧ t = s.withFault e (encode i)) ∨
    (s.status.fault = false ∧ expectedFault i s = none ∧ t = countCommand (bodyOf i s)) := by
  by_cases hf : s.status.fault = true
  · rw [exec_of_faulted hf] at h
    injection h with h
    exact .inl ⟨hf, h.symm⟩
  · have hf : s.status.fault = false := by simpa using hf
    cases he : expectedFault i s with
    | some e =>
      rw [exec_of_fault hf he] at h
      injection h with h
      exact .inr (.inl ⟨e, hf, rfl, h.symm⟩)
    | none =>
      rw [exec_of_pass hf he] at h
      injection h with h
      exact .inr (.inr ⟨hf, rfl, h.symm⟩)

/-- A command answers a next state. -/
theorem exec_next (i : Instr) (s : State) : ∃ t, exec i s = .next t := by
  rw [exec_eq_command]
  exact command_next _ _ _ _

/-- What the execution of a command leaves alone: CFG, EXIT, ERRINFO, CMD_COUNT, LANESEL, the host's
accesses, STATUS but for PRNG_RUN, DP_INIT and EARLY; and SEED in every lane. -/
structure BodyChanges (s t : State) : Prop where
  shared : t = { s with
    lanes := t.lanes, permCount := t.permCount, rc := t.rc, off := t.off, cursor := t.cursor
    status := { s.status with
      prngRun := t.status.prngRun, dpInit := t.status.dpInit, early := t.status.early } }
  lanes : List.Forall₂ (fun a b : Lane => b.seed = a.seed) s.lanes t.lanes

theorem BodyChanges.refl (s : State) : BodyChanges s s :=
  ⟨rfl, List.forall₂_same.mpr fun _ _ => rfl⟩

/-- Lanes whose SEED stays, twice over. -/
theorem seedLanes_trans {xs ys zs : List Lane}
    (h : List.Forall₂ (fun a b : Lane => b.seed = a.seed) xs ys)
    (k : List.Forall₂ (fun a b : Lane => b.seed = a.seed) ys zs) :
    List.Forall₂ (fun a b : Lane => b.seed = a.seed) xs zs := by
  induction h generalizing zs with
  | nil => cases k; exact .nil
  | cons hd _ ih =>
    cases k with
    | cons hd' tl' => exact .cons (hd'.trans hd) (ih tl')

theorem BodyChanges.trans {s t u : State} (h : BodyChanges s t) (k : BodyChanges t u) :
    BodyChanges s u := by
  refine ⟨?_, seedLanes_trans h.lanes k.lanes⟩
  have h1 := h.shared
  have k1 := k.shared
  generalize t.lanes = a at h1
  generalize t.permCount = b at h1
  generalize t.rc = c at h1
  generalize t.off = d at h1
  generalize t.cursor = e at h1
  generalize t.status.prngRun = f at h1
  generalize t.status.dpInit = g at h1
  generalize t.status.early = i at h1
  subst h1
  exact k1

theorem SameButPrng.body {s t : State} (h : SameButPrng s t) : BodyChanges s t := by
  refine ⟨?_, h.lanes.imp fun a b hab => by rw [hab]⟩
  have h1 := h.shared
  generalize t.lanes = a at *
  generalize t.cursor = b at *
  generalize t.permCount = c at *
  generalize t.status.prngRun = d at *
  subst h1
  rfl

/-- Changing every lane but for its SEED. -/
theorem mapLanes_body {f : Lane → Lane} (h : ∀ a, (f a).seed = a.seed) (s : State) :
    BodyChanges s (s.mapLanes f) := by
  refine ⟨rfl, ?_⟩
  simp only [State.mapLanes_lanes, List.forall₂_map_right_iff]
  exact List.forall₂_same.mpr fun a _ => h a

/-- Changing every lane, with words as many as lanes, but for its SEED. -/
theorem zipLanes_body {f : Lane → List Word → Lane} (h : ∀ a ws, (f a ws).seed = a.seed) (s : State)
    {ws : List (List Word)} (hl : ws.length = s.nl) : BodyChanges s (s.zipLanes f ws) := by
  refine ⟨rfl, ?_⟩
  rw [List.forall₂_iff_get]
  refine ⟨?_, ?_⟩
  · simp [hl, State.nl]
  · intro l h1 h2
    simp [h]

/-- Changing every lane with the words of a draw, but for its SEED. -/
theorem zipLanes_draw_body (f : Lane → List Word → Lane) (h : ∀ a ws, (f a ws).seed = a.seed) (P : Prng)
    (n : Nat) (s : State) : BodyChanges (draw P n s).1 ((draw P n s).1.zipLanes f (draw P n s).2) := by
  generalize hq : draw P n s = q
  have hl : q.2.length = q.1.nl := by rw [← hq, draw_words_length, (draw_same P n s).nl]
  exact zipLanes_body h q.1 hl

theorem rgetBody_eq (P : Prng) (xk : XReg) (n : Nat) (s : State) :
    rgetBody P xk n s =
      (draw P n s).1.zipLanes (fun lane ws => lane.writePublic xk ws) (draw P n s).2 := rfl

theorem rgetBody_body (P : Prng) (xk : XReg) (n : Nat) (s : State) :
    BodyChanges s (rgetBody P xk n s) := by
  rw [rgetBody_eq]
  exact (draw_same P n s).body.trans (zipLanes_draw_body _ (by intros; simp) P n s)

theorem drawThen_body (P : Prng) (k : Nat) {f : Lane → List Word → Lane}
    (h : ∀ a ws, (f a ws).seed = a.seed) (s : State) : BodyChanges s (drawThen P k f s) :=
  (drawWords_same P k s).body.trans
    (zipLanes_body h _ (by rw [drawWords_length, (drawWords_same P k s).nl]))

theorem sboxLayer_body (P : Prng) (r : VReg) (ref : Bool) (s : State) :
    BodyChanges s (sboxLayer P r ref s) := by
  unfold sboxLayer
  exact drawThen_body P _ (by intros; simp) s

theorem lboxLayer_body (s : State) : BodyChanges s (lboxLayer s) := by
  unfold lboxLayer
  exact mapLanes_body (by intros; simp) s

theorem injectRc_body (s : State) : BodyChanges s (injectRc s) := by
  unfold injectRc
  exact mapLanes_body (by intros; simp) s

theorem advanceRc_body (s : State) : BodyChanges s (advanceRc s) :=
  ⟨rfl, List.forall₂_same.mpr fun _ _ => rfl⟩

theorem linearHalf_body (s : State) : BodyChanges s (linearHalf s) :=
  (lboxLayer_body s).trans ((injectRc_body _).trans (advanceRc_body _))

theorem minitBody_body (s : State) : BodyChanges s (minitBody s) := by
  refine ⟨rfl, ?_⟩
  simp only [minitBody, List.forall₂_map_right_iff]
  exact List.forall₂_same.mpr fun _ _ => by simp

theorem mkeyBody_body (s : State) : BodyChanges s (mkeyBody s) := by
  refine ⟨rfl, ?_⟩
  simp only [mkeyBody, List.forall₂_map_right_iff]
  exact List.forall₂_same.mpr fun _ _ => by simp

theorem setEarly_body (b : Bool) (s : State) : BodyChanges s (setEarly b s) :=
  ⟨rfl, List.forall₂_same.mpr fun _ _ => rfl⟩

theorem mpermRounds_body (P : Prng) (m : ExitMarker) (n r : Nat) (s : State) :
    BodyChanges s (mpermRounds P m n r s) := by
  induction n generalizing r s with
  | zero => exact .refl s
  | succ n ih =>
    have h1 := sboxLayer_body P 0 true s
    have h2 := h1.trans ((linearHalf_body _).trans (sboxLayer_body P 0 false _))
    unfold mpermRounds
    simp only
    split
    · exact h1.trans (setEarly_body _ _)
    · split
      · exact h2.trans (setEarly_body _ _)
      · exact h2.trans ((linearHalf_body _).trans ((mkeyBody_body _).trans (ih _ _)))

/-- What the execution of any command leaves alone. -/
theorem bodyOf_changes (i : Instr) (s : State) : BodyChanges s (bodyOf i s) := by
  cases i with
  | nop => exact .refl s
  | sadd =>
    unfold bodyOf saddBody
    exact mapLanes_body (by intros; simp) s
  | smul =>
    unfold bodyOf smulBody
    exact drawThen_body _ _ (by intros; simp) s
  | sref =>
    unfold bodyOf srefBody
    exact drawThen_body _ _ (by intros; simp) s
  | spub =>
    unfold bodyOf spubBody
    exact mapLanes_body (by intros; simp) s
  | smov =>
    unfold bodyOf smovBody
    exact mapLanes_body (by intros; simp) s
  | slref =>
    unfold bodyOf slrefBody
    exact drawThen_body _ _ (by intros; simp) s
  | sfresh =>
    unfold bodyOf sfreshBody
    exact drawThen_body _ _ (by intros; simp) s
  | ssbox => exact sboxLayer_body _ _ _ s
  | slbox =>
    unfold bodyOf slboxBody
    exact mapLanes_body (by intros; simp) s
  | minit => exact minitBody_body s
  | mhalf => exact (sboxLayer_body _ _ _ s).trans (linearHalf_body _)
  | mkey => exact mkeyBody_body s
  | mperm =>
    exact (minitBody_body s).trans ((setEarly_body false _).trans (mpermRounds_body _ _ _ _ _))
  | rinit =>
    refine ⟨rfl, ?_⟩
    simp only [bodyOf, rinitBody, List.forall₂_map_right_iff]
    exact List.forall₂_same.mpr fun _ _ => rfl
  | rget xk n =>
    exact rgetBody_body Config.prng xk n.val s
  | rstep => exact ((ensureRunning_same Config.prng s).trans (stepCores_same Config.prng _)).body

end Sys2Proof.Machine
end

