-- ==== Sys2Proof/Laws/PerInstr.lean ====
section
/-! SUPPORT. Statements made per instruction. FixedBits: the word of every command agrees with the match
and mask of its row in spec/opcode_table.json (spec/30_encoding.md R122, R123), whatever its operands. -/

namespace Sys2Proof.Laws.FixedBits

/-- The match value of a command's row (R123). -/
def rowMatch : Instr → Word
  | .nop => 0x00000000
  | .sadd _ _ _ => 0x08000000
  | .smul _ _ _ => 0x10000000
  | .sref _ _ => 0x18000000
  | .spub _ _ _ => 0x20000000
  | .smov _ _ => 0x28000000
  | .slref _ _ => 0x30000000
  | .sfresh _ => 0x38000000
  | .ssbox _ _ => 0x40000000
  | .slbox _ _ => 0x48000000
  | .minit => 0x80000000
  | .mhalf _ => 0x88000000
  | .mkey => 0x90000000
  | .mperm => 0x98000000
  | .rinit => 0xC0000000
  | .rget _ _ => 0xC8000000
  | .rstep => 0xD0000000

/-- The bits the row fixes are the row's: OP, and zero in every field the format does not use. -/
def Statement (i : Instr) : Prop := encode i &&& fixedMask (formatOf i) = rowMatch i

/-- Two words are equal when their 32 bits are. -/
theorem of_bits {x y : Word} (h : ∀ i, i < 32 → x.getLsbD i = y.getLsbD i) : x = y :=
  BitVec.eq_of_getLsbD_eq h

theorem nop : Statement .nop := by
  unfold Statement; decide

theorem sadd (vd va vb : VReg) : Statement (.sadd vd va vb) := by
  refine of_bits fun i hi => ?_
  simp only [encode, fieldsFor, assemble, formatOf, fixedMask, rowMatch, BitVec.getLsbD_and,
    BitVec.getLsbD_or, getLsbD_fieldAt]
  interval_cases i <;> simp [BitVec.getLsbD_of_ge]

theorem smul (vd va vb : VReg) : Statement (.smul vd va vb) := by
  refine of_bits fun i hi => ?_
  simp only [encode, fieldsFor, assemble, formatOf, fixedMask, rowMatch, BitVec.getLsbD_and,
    BitVec.getLsbD_or, getLsbD_fieldAt]
  interval_cases i <;> simp [BitVec.getLsbD_of_ge]

theorem sref (vd va : VReg) : Statement (.sref vd va) := by
  refine of_bits fun i hi => ?_
  simp only [encode, fieldsFor, assemble, formatOf, fixedMask, rowMatch, BitVec.getLsbD_and,
    BitVec.getLsbD_or, getLsbD_fieldAt]
  interval_cases i <;> simp [BitVec.getLsbD_of_ge]

theorem spub (vd va : VReg) (xk : XReg) : Statement (.spub vd va xk) := by
  refine of_bits fun i hi => ?_
  simp only [encode, fieldsFor, assemble, formatOf, fixedMask, rowMatch, BitVec.getLsbD_and,
    BitVec.getLsbD_or, getLsbD_fieldAt]
  interval_cases i <;> simp [BitVec.getLsbD_of_ge]

theorem smov (vd va : VReg) : Statement (.smov vd va) := by
  refine of_bits fun i hi => ?_
  simp only [encode, fieldsFor, assemble, formatOf, fixedMask, rowMatch, BitVec.getLsbD_and,
    BitVec.getLsbD_or, getLsbD_fieldAt]
  interval_cases i <;> simp [BitVec.getLsbD_of_ge]

theorem slref (vd va : VReg) : Statement (.slref vd va) := by
  refine of_bits fun i hi => ?_
  simp only [encode, fieldsFor, assemble, formatOf, fixedMask, rowMatch, BitVec.getLsbD_and,
    BitVec.getLsbD_or, getLsbD_fieldAt]
  interval_cases i <;> simp [BitVec.getLsbD_of_ge]

theorem sfresh (vd : VReg) : Statement (.sfresh vd) := by
  refine of_bits fun i hi => ?_
  simp only [encode, fieldsFor, assemble, formatOf, fixedMask, rowMatch, BitVec.getLsbD_and,
    BitVec.getLsbD_or, getLsbD_fieldAt]
  interval_cases i <;> simp [BitVec.getLsbD_of_ge]

theorem ssbox (vd : VReg) (n : Imm) : Statement (.ssbox vd n) := by
  refine of_bits fun i hi => ?_
  simp only [encode, fieldsFor, assemble, formatOf, fixedMask, rowMatch, BitVec.getLsbD_and,
    BitVec.getLsbD_or, getLsbD_fieldAt]
  interval_cases i <;> simp [BitVec.getLsbD_of_ge]

theorem slbox (vd va : VReg) : Statement (.slbox vd va) := by
  refine of_bits fun i hi => ?_
  simp only [encode, fieldsFor, assemble, formatOf, fixedMask, rowMatch, BitVec.getLsbD_and,
    BitVec.getLsbD_or, getLsbD_fieldAt]
  interval_cases i <;> simp [BitVec.getLsbD_of_ge]

theorem minit : Statement .minit := by
  unfold Statement; decide

theorem mhalf (n : Imm) : Statement (.mhalf n) := by
  refine of_bits fun i hi => ?_
  simp only [encode, fieldsFor, assemble, formatOf, fixedMask, rowMatch, BitVec.getLsbD_and,
    BitVec.getLsbD_or, getLsbD_fieldAt]
  interval_cases i <;> simp [BitVec.getLsbD_of_ge]

theorem mkey : Statement .mkey := by
  unfold Statement; decide

theorem mperm : Statement .mperm := by
  unfold Statement; decide

theorem rinit : Statement .rinit := by
  unfold Statement; decide

theorem rget (xk : XReg) (n : Imm) : Statement (.rget xk n) := by
  refine of_bits fun i hi => ?_
  simp only [encode, fieldsFor, assemble, formatOf, fixedMask, rowMatch, BitVec.getLsbD_and,
    BitVec.getLsbD_or, getLsbD_fieldAt]
  interval_cases i <;> simp [BitVec.getLsbD_of_ge]

theorem rstep : Statement .rstep := by
  unfold Statement; decide

end Sys2Proof.Laws.FixedBits
end

