-- ==== Sys2Proof/Laws/Port.lean ====
section
/-! SUPPORT. What one access of the host can do, said once: a step by the kind of its access, the lane
window, and the host writes of V by what they change. -/

namespace Sys2Proof.Machine

theorem step_idle {s : State} (h : s.port = []) : step s = .next s := by
  simp [step, nextAccess, h]

theorem step_access {s : State} {a : Access} {rest : List Access} (h : s.port = a :: rest) :
    step s = performAccess a { s with port := rest } := by
  simp [step, nextAccess, h]

theorem windowWord_of_lane {s : State} {lane : Lane} (h : s.lanes[s.laneSel.toNat]? = some lane)
    (f : Lane → Word) : s.windowWord f = f lane := by
  simp [State.windowWord, h]

/-- The window write changes lane LANESEL alone (R83). -/
theorem windowWrite_lane (s : State) (f : Lane → Lane) (l : Nat) :
    (s.windowWrite f).lanes[l]? =
      if l = s.laneSel.toNat then s.lanes[l]?.map f else s.lanes[l]? := by
  simp only [State.windowWrite, List.getElem?_modify]
  by_cases h : s.laneSel.toNat = l
  · simp [h]
  · simp [h, Ne.symm h]

@[simp] theorem windowWrite_nl (s : State) (f : Lane → Lane) : (s.windowWrite f).nl = s.nl := by
  simp [State.windowWrite, State.nl]

/-- The word a write of V leaves at every place (R85). -/
theorem setWord_v (v : Vector ShareVec 16) (r : VReg) (i : Fin 8) (w : Word) (p : VReg) (j : Fin 8) :
    (v.set r (v[r].set i w))[p][j] = if p = r ∧ j = i then w else v[p][j] := by
  obtain ⟨r, hr⟩ := r
  obtain ⟨p, hp⟩ := p
  obtain ⟨i, hi⟩ := i
  obtain ⟨j, hj⟩ := j
  simp only [Fin.getElem_fin, Fin.mk.injEq, Vector.getElem_set]
  by_cases h : p = r
  · subst h
    by_cases k : j = i
    · simp [k]
    · simp [k, Ne.symm k]
  · simp [h, Ne.symm h]

/-- A host write of V changes the lanes and nothing else (R85). -/
theorem hostWriteV_frame (r : VReg) (i : Fin 8) (w : Word) (s : State) :
    hostWriteV r i w s = { s with lanes := (hostWriteV r i w s).lanes } := by
  unfold hostWriteV; split <;> rfl

/-- A host write of word i >= D of V is ignored (R86). -/
theorem hostWriteV_past {r : VReg} {i : Fin 8} {s : State} (h : s.order ≤ i.val) (w : Word) :
    hostWriteV r i w s = s := by
  simp [hostWriteV, Nat.not_lt.mpr h]

theorem hostWriteV_word {r : VReg} {i : Fin 8} {s : State} (h : i.val < s.order) (w : Word) :
    hostWriteV r i w s =
      s.windowWrite fun lane => { lane with v := lane.v.set r (lane.v[r].set i w) } := by
  simp [hostWriteV, h]

/-- A read of a readable address returns its register (R84). -/
theorem portRead_of_reg {addr : BitVec 12} {r : PortReg} (h4 : addr.toNat % 4 = 0)
    (hr : portRegAt addr = some r) (s : State) :
    portRead addr 32 s = { s with reply := some (portValue r s) } := by
  simp [portRead, accessFits, h4, hr]

theorem portWrite_of_reg {addr : BitVec 12} {r : PortReg} (h4 : addr.toNat % 4 = 0)
    (hr : portRegAt addr = some r) {s : State} (hf : s.status.fault = false) (w : Word) :
    portWrite addr 32 w s = writeReg addr r w s := by
  simp [portWrite, accessFits, h4, hr, hf]

theorem portWrite_faulted {s : State} (hf : s.status.fault = true) (addr : BitVec 12) (bits : Nat) (w : Word) :
    portWrite addr bits w s = .next s := by
  simp [portWrite, hf]

end Sys2Proof.Machine
end

