-- ==== Sys2Proof/Tests/Slice0.lean ====
section
/-! SUPPORT. Tests of the model: ill-formed commands refused; command words written out from
spec/30_encoding.md; one-step tests with the results of spec/95_test_vectors.md (numbers in comments are
its vectors), on its stubs for PERM, SEED_INIT and RATE_POS; and, for every statement that has
hypotheses, a concrete state that meets them. -/

namespace Sys2Proof.Machine

/-! ## Ill-formed commands (R126): refused by `Instr.wf`, and by the issue check -/

theorem test_wf_ssbox_base : Instr.wf (.ssbox 13 0) = false ∧ Instr.wf (.ssbox 12 0) = true := by decide
theorem test_wf_ssbox_flag : Instr.wf (.ssbox 0 2) = false ∧ Instr.wf (.ssbox 0 1) = true := by decide
theorem test_wf_slbox_dest : Instr.wf (.slbox 15 0) = false ∧ Instr.wf (.slbox 14 0) = true := by decide
theorem test_wf_slbox_source : Instr.wf (.slbox 0 15) = false ∧ Instr.wf (.slbox 0 14) = true := by decide
theorem test_wf_mhalf_flag : Instr.wf (.mhalf 2) = false ∧ Instr.wf (.mhalf 1) = true := by decide
theorem test_wf_rget_none : Instr.wf (.rget 0 0) = false ∧ Instr.wf (.rget 0 1) = true := by decide
theorem test_wf_rget_count : Instr.wf (.rget 0 17) = false ∧ Instr.wf (.rget 0 16) = true := by decide
theorem test_wf_rget_end : Instr.wf (.rget 8 9) = false ∧ Instr.wf (.rget 8 8) = true := by decide

/-! ## Decoding, one word of each command written out bit by bit from R121-R123:
OP(5) VD(4) VA(4) VB(4) XK(4) N(5) RES(6) -/

theorem test_decode_nop : decode 0b00000_0000_0000_0000_0000_00000_000000 = .ok .nop := by rfl
theorem test_decode_sadd : decode 0b00001_0011_0001_0010_0000_00000_000000 = .ok (.sadd 3 1 2) := by rfl
theorem test_decode_smul : decode 0b00010_0011_0001_0010_0000_00000_000000 = .ok (.smul 3 1 2) := by rfl
theorem test_decode_sref : decode 0b00011_0010_0001_0000_0000_00000_000000 = .ok (.sref 2 1) := by rfl
theorem test_decode_spub : decode 0b00100_0010_0001_0000_0101_00000_000000 = .ok (.spub 2 1 5) := by rfl
theorem test_decode_smov : decode 0b00101_1000_0100_0000_0000_00000_000000 = .ok (.smov 8 4) := by rfl
theorem test_decode_slref : decode 0b00110_0010_0001_0000_0000_00000_000000 = .ok (.slref 2 1) := by rfl
theorem test_decode_sfresh : decode 0b00111_0100_0000_0000_0000_00000_000000 = .ok (.sfresh 4) := by rfl
theorem test_decode_ssbox : decode 0b01000_0101_0000_0000_0000_00001_000000 = .ok (.ssbox 5 1) := by rfl
theorem test_decode_slbox : decode 0b01001_1000_0110_0000_0000_00000_000000 = .ok (.slbox 8 6) := by rfl
theorem test_decode_minit : decode 0b10000_0000_0000_0000_0000_00000_000000 = .ok .minit := by rfl
theorem test_decode_mhalf : decode 0b10001_0000_0000_0000_0000_00001_000000 = .ok (.mhalf 1) := by rfl
theorem test_decode_mkey : decode 0b10010_0000_0000_0000_0000_00000_000000 = .ok .mkey := by rfl
theorem test_decode_mperm : decode 0b10011_0000_0000_0000_0000_00000_000000 = .ok .mperm := by rfl
theorem test_decode_rinit : decode 0b11000_0000_0000_0000_0000_00000_000000 = .ok .rinit := by rfl
theorem test_decode_rget : decode 0b11001_0000_0000_0000_1001_00101_000000 = .ok (.rget 9 5) := by rfl
theorem test_decode_rstep : decode 0b11010_0000_0000_0000_0000_00000_000000 = .ok .rstep := by rfl

/-- 2.5.1-2.5.4 and 2.4.3: illegal words. -/
theorem test_decode_illegal :
    decode 0x50000000 = .error (.reservedOpcode 0x0A) ∧ decode 0x08888001 = .error (.unusedField .r3) ∧
    decode 0x08888800 = .error (.unusedField .r3) ∧ decode 0x98000001 = .error (.unusedField .n) ∧
    decode 0x00000040 = .error (.unusedField .n) := ⟨rfl, rfl, rfl, rfl, rfl⟩

/-- The encoder gives the words of R128. -/
theorem test_encode_examples :
    encode (.smul 3 1 2) = 0x11890000 ∧ encode (.rget 0 16) = 0xC8000400 ∧
    encode (.ssbox 0 1) = 0x40000040 := by decide

/-- The assembler's text of R128. -/
theorem test_asm_text : asmText (.rget 0 16) = "RGET x0, 16" ∧ asmText (.smul 3 1 2) = "SMUL v3, v1, v2" := by
  decide

/-! ## Small states -/

/-- A share-vector from its first words. -/
def sv (ws : List Word) : ShareVec := freshShares ws

/-- A lane of a fresh block with SEED = [1, 2, 3, 4] (spec/95_test_vectors.md section 0). -/
def lane0 : Lane := { resetLane with seed := #v[1, 2, 3, 4] }

/-- A configured block of one lane: order `d`, `r` rounds, randomness on. -/
def block (d r : BitVec 4) (lane : Lane) : State :=
  { resetOf 1 with
    lanes := [lane]
    cfg := { d := d, rnd := r, rngDis := false }
    status := { (resetOf 1).status with cfgValid := true } }

/-- The lane with share-vectors written into registers from number `k` up. -/
def setV (k : Nat) (vs : List ShareVec) (lane : Lane) : Lane := lane.writeGroup 8 k vs

/-- The first word vectors of a register of every lane, order D. -/
def vOf (r : VReg) (s : State) : List (List Word) :=
  s.lanes.map fun lane => (List.range s.order).map fun i => share lane.v[r] i

/-- The X words of every lane from X0, `n` of them. -/
def xOf (n : Nat) (s : State) : List (List Word) :=
  s.lanes.map fun lane => lane.x.toList.take n

/-- The state a command or access answers. -/
def nextOf : Result → Option State
  | .next t => some t
  | .fault _ => none
  | .refused _ => none

/-- STATUS.ERR's number and ERRINFO after a command or access. -/
def faultOf (r : Result) : Option (BitVec 8 × Word) :=
  (nextOf r).map fun t => (t.status.err.code, t.errinfo)

/-- The PRNG stubs of spec/95_test_vectors.md section 0. -/
def stub : Prng where
  perm s := Vector.ofFn fun k => s[(k.val + 1) % 16]'(Nat.mod_lt _ (by decide)) + BitVec.ofNat 32 (k.val + 1)
  seedInit s := #v[s[0], s[1], s[2], s[3], 0, 0, 0, 0, 0, 0, 0, 0, 0, 0, 0, 0]
  ratePos := #v[0, 1, 2, 3, 4, 5, 6, 7]

/-- The block of the vectors: CFG = 2. -/
def fresh : State := block 2 6 lane0

/-- That block with V1 and V2. -/
def fresh12 (a b : List Word) : State := block 2 6 (setV 1 [sv a, sv b] lane0)

/-- The Sbox inputs of section 2.3, in V0..V3. -/
def sboxIn : State := block 2 6 (setV 0
  [sv [0xFFFF0000 ^^^ 0x12345678, 0x12345678], sv [0xFF00FF00 ^^^ 0x9ABCDEF0, 0x9ABCDEF0],
   sv [0xF0F0F0F0 ^^^ 0x0F1E2D3C, 0x0F1E2D3C], sv [0xCCCCCCCC ^^^ 0x55AA55AA, 0x55AA55AA]] lane0)

/-- The key, plaintext and tweak of vector 2.3.7. -/
def keyed : State := block 2 6
  { setV 4 [sv [0x11111111, 0x11111111], sv [0x22222222, 0], sv [0, 0x33333333],
            sv [0x44444444, 0x40404040]] lane0 with
    x := #v[0xA0, 0xB0, 0xC0, 0xD0, 1, 2, 4, 8, 0, 0, 0, 0, 0, 0, 0, 0] }

/-! ## One command each, against spec/95_test_vectors.md -/

/-- 2.4.1: NOP runs on an unconfigured block and counts one. -/
theorem test_nop : (nextOf (exec .nop (resetOf 1))).map (·.cmdCount) = some 1 := by decide

/-- The example of R161. -/
theorem test_sadd :
    vOf 3 (saddBody 3 1 2 (fresh12 [0x12345678, 0x0F0F0F0F] [0xFFFFFFFF, 0])) =
      [[0xEDCBA987, 0x0F0F0F0F]] := by decide

/-- The example of R162 and its shared effects. -/
theorem test_smul :
    let t := smulBody stub 3 1 2 (fresh12 [0xF0F0F0F0, 0x0FF00FF0] [0xFFFF0000, 0x00FFFF00])
    vOf 3 t = [[0xF0F00003, 0x0FF0FF03]] ∧ t.cursor = 1 ∧ t.permCount = 2 := by decide

/-- The example of R163. -/
theorem test_sref :
    vOf 2 (srefBody stub 2 1 (fresh12 [0x12345678, 0x9ABCDEF0] [])) = [[0x1234567E, 0x9ABCDEF6]] := by
  decide

/-- The example of R164. -/
theorem test_spub :
    vOf 2 (spubBody 2 1 5 (block 2 6 { setV 1 [sv [0x11111111, 0x22222222]] lane0 with
      x := #v[0, 0, 0, 0, 0, 0xFFFF0000, 0, 0, 0, 0, 0, 0, 0, 0, 0, 0] })) =
      [[0xEEEE1111, 0x22222222]] := by decide

/-- The example of R165. -/
theorem test_smov : vOf 8 (smovBody 8 4 (block 3 6 (setV 4 [sv [1, 2, 3]] lane0))) = [[1, 2, 3]] := by
  decide

/-- The example of R166. -/
theorem test_slref :
    vOf 2 (slrefBody stub 2 1 (block 3 6 (setV 1 [sv [0x100, 0x200, 0x400]] lane0))) =
      [[0x103, 0x205, 0x406]] := by decide

/-- The example of R167. -/
theorem test_sfresh : vOf 4 (sfreshBody stub 4 (block 3 6 lane0)) = [[3, 5, 7]] := by decide

/-- 2.3.3: the refreshed Sbox. -/
theorem test_ssbox_refresh :
    let t := sboxLayer stub 0 true sboxIn
    (vOf 0 t, vOf 1 t, vOf 2 t, vOf 3 t) =
      ([[0xECFE3194, 0xDF32CE94]], [[0x9A66DDBD, 0x95962D4D]], [[0x110088F4, 0xDE0CB438]],
       [[0x75ADCF59, 0x86920F99]]) ∧ t.cursor = 6 := by decide

/-- 2.3.4: without the refresh. -/
theorem test_ssbox_plain :
    let t := sboxLayer stub 0 false sboxIn
    (vOf 0 t, vOf 1 t, vOf 2 t) =
      ([[0xECFE3195, 0xDF32CE95]], [[0x9A66DDBF, 0x95962D4F]], [[0x110088F7, 0xDE0CB43B]]) ∧
    t.cursor = 4 := by decide

/-- 2.3.1. -/
theorem test_slbox :
    let t := slboxBody 8 0 (block 2 6 (setV 0 [sv [1, 0x80000000]] lane0))
    (vOf 8 t, vOf 9 t) = ([[0x2014406E, 0x100A2037]], [[0x1BC001B0, 0x0DE000D8]]) := by decide

/-- 2.3.7: the state loaded. -/
theorem test_minit_state :
    let t := minitBody keyed
    (vOf 0 t, vOf 1 t, vOf 2 t, vOf 3 t) =
      ([[0x111111B0, 0x11111111]], [[0x22222290, 0]], [[0x000000C4, 0x33333333]],
       [[0x4444449C, 0x40404040]]) := by decide

/-- 2.3.7 and 1.1: the schedule and the shared registers. -/
theorem test_minit_schedule :
    let t := minitBody keyed
    t.lanes.map (·.tk) = [#v[#v[1, 2, 4, 8], #v[5, 10, 1, 2], #v[4, 8, 5, 10]]] ∧
    t.rc = 0x08 ∧ t.off = 0x924 ∧ t.status.dpInit = true := by decide

/-- 2.3.11: one half-round after MINIT with the randomness disabled. -/
theorem test_mhalf :
    let s := minitBody (block 2 6 { lane0 with x := #v[1, 0, 0, 0, 0, 0, 0, 0, 0, 0, 0, 0, 0, 0, 0, 0] })
    let t := mhalfBody stub true { s with cfg := { s.cfg with rngDis := true } }
    (vOf 0 t, vOf 1 t, vOf 2 t, vOf 3 t) =
      ([[1, 0]], [[0, 0]], [[0x0DE000D8, 0]], [[0x2014406E, 0]]) ∧ t.rc = 4 ∧ t.cursor = 6 := by decide

/-- 2.3.9: MHALF before MINIT. -/
theorem test_mhalf_nodp : faultOf (exec (.mhalf 1) fresh) = some (4, 0x88000040) := by decide

/-- 2.3.8: OFF is shifted first, and the first entry added is TK1. -/
theorem test_mkey :
    let t := mkeyBody (minitBody keyed)
    t.off = 0x249 ∧ vOf 0 t = [[0x111111B0 ^^^ 0x11111111 ^^^ 5, 0]] := by decide

/-- 2.3.8: a seventh key addition. -/
theorem test_mkey_sched :
    faultOf (exec .mkey { minitBody keyed with off := 0 }) = some (6, 0x90000000) := by decide

/-- 2.3.12: the early exit at the first Sbox. -/
theorem test_mperm_early :
    let t := mpermBody stub { fresh with exit := { en := true, half := false, round := 0 } }
    (vOf 0 t, vOf 1 t, vOf 2 t, vOf 3 t) = ([[4, 4]], [[1, 1]], [[6, 6]], [[5, 5]]) ∧
    t.rc = 8 ∧ t.off = 0x924 ∧ t.status.early = true := by decide

/-- 2.3.14: a marker past the last round. -/
theorem test_mperm_exit :
    faultOf (exec .mperm { fresh with exit := { en := true, half := false, round := 6 } }) =
      some (5, 0x98000000) := by decide

/-- 2.2.10: RINIT clears the running PRNG. -/
theorem test_rinit :
    let t := rinitBody (rgetBody stub 0 3 fresh)
    t.lanes.map (fun l => (l.core, l.tape)) = [(zeroWords, zeroWords)] ∧ t.cursor = 0 ∧
    t.status.prngRun = false ∧ t.permCount = 2 := by decide

/-- 2.2.11: two lanes, one cursor. -/
theorem test_rget :
    let t := rgetBody stub 0 4 { fresh with lanes := [lane0, { lane0 with seed := #v[5, 6, 7, 8] }] }
    xOf 5 t = [[3, 5, 7, 4, 0], [7, 9, 11, 4, 0]] ∧ t.cursor = 4 ∧ t.permCount = 2 := by decide

/-- 2.2.5: a request past the tape end. -/
theorem test_rget_tape :
    faultOf (exec (.rget 0 9) { fresh with cursor := 8, status := { fresh.status with prngRun := true } }) =
      some (7, 0xC8000240) := by decide

/-- 2.2.7: RSTEP seeds and steps; TAPE stays. -/
theorem test_rstep :
    let t := rstepBody stub fresh
    t.lanes.map (fun l => (l.core, l.tape)) =
      [(#v[3, 5, 7, 4, 5, 6, 7, 8, 9, 10, 11, 12, 13, 14, 15, 17], zeroWords)] ∧
    t.cursor = 16 ∧ t.permCount = 1 ∧ t.status.prngRun = true := by decide

/-! ## The port -/

/-- The state after one access. -/
def access (a : Access) (s : State) : Result := step { s with port := [a] }

/-- 2.6.1: ID of a block with one lane. -/
theorem test_id : (nextOf (access (.read 0x000 32) (resetOf 1))).bind (·.reply) = some 0x07106801 := by decide

/-- 2.5.5 and 2.5.6: refused configurations. -/
theorem test_cfg_refused :
    faultOf (access (.write 0x004 32 0x1) (resetOf 1)) = some (8, 0x1) ∧
    faultOf (access (.write 0x004 32 0x9) (resetOf 1)) = some (8, 0x9) ∧
    faultOf (access (.write 0x004 32 0x77) (resetOf 1)) = some (9, 0x77) ∧
    faultOf (access (.write 0x004 32 0x3) fresh) = some (10, 0x3) := by decide

/-- 2.5.8: an accepted configuration. -/
theorem test_cfg_accepted :
    (nextOf (access (.write 0x004 32 0x102) (resetOf 1))).map (fun t => (t.cfg.word, t.status.word)) =
      some (0x162, 0x1) := by decide

/-- 2.5.11-2.5.15: port faults. -/
theorem test_port_faults :
    faultOf (access (.write 0x008 32 1) fresh) = some (11, 0x008) ∧
    faultOf (access (.write 0x006 32 1) fresh) = some (11, 0x006) ∧
    faultOf (access (.write 0x030 32 1) fresh) = some (11, 0x030) ∧
    faultOf (access (.write 0x280 32 1) fresh) = some (11, 0x280) ∧
    faultOf (access (.write 0x02C 32 1) fresh) = some (12, 1) := by decide

/-- P1 step 3: 0x120 and 0x124 are V1[0] and V1[1]. -/
theorem test_v_window : portRegAt 0x124 = some (.v 1 1) ∧ portRegAt 0x1FC = some (.v 7 7) := by decide

/-- R31: the host writes V15[1] and reads it back; at D = 2 a write of V15[2] is ignored (R86). -/
theorem test_v15 :
    ((nextOf (access (.writeV 15 1 7) fresh)).bind fun t => nextOf (access (.readV 15 1) t)).bind (·.reply) =
      some 7 ∧
    (nextOf (access (.writeV 15 2 7) fresh)).map (·.lanes) = some fresh.lanes := by decide

/-- P2's end state: STATUS 0x713. -/
theorem test_status_word :
    Status.word { cfgValid := true, prngRun := true, dpInit := false, early := false, fault := true,
                  err := .tape } = 0x713 := by decide

/-- From reset, with the parameters open, a command word placed by `withFetchWord` is the one run: NOP
counts, RSTEP meets its check. -/
theorem test_fetch_from_reset :
    (nextOf (step (State.reset.withFetchWord 32 0x00000000))).map (·.cmdCount) = some 1 ∧
    faultOf (step (State.reset.withFetchWord 32 0xD0000000)) = some (3, 0xD0000000) := by decide

/-! ## Witnesses: for every statement with hypotheses, concrete values that meet them all together -/

/-- A block of order 8 with one round. -/
def block8 : State := block 8 1 lane0

/-- `fresh` with the PRNG running at a cursor. -/
def running (c : BitVec 5) : State := { fresh with cursor := c, status := { fresh.status with prngRun := true } }

/-- `fresh` after MINIT. -/
def started : State := minitBody fresh

/-- A faulted block. -/
def faulted : State := fresh.withFault .sched 0x90000000

/-- A block with a marker: the second half-round of the last round. -/
def marked : State := { fresh with exit := { en := true, half := true, round := 5 } }

theorem fresh_ready : fresh.Ready := by constructor <;> decide
theorem block8_ready : block8.Ready := by constructor <;> decide
theorem running_ready (c : BitVec 5) : (running c).Ready := ⟨rfl, rfl⟩
theorem started_ready : started.Ready := by constructor <;> decide
theorem marked_ready : marked.Ready := by constructor <;> decide
theorem fresh_inv : fresh.Inv := by constructor <;> decide
theorem block8_inv : block8.Inv := by constructor <;> decide
theorem running8_inv : (running 8).Inv := by constructor <;> decide
theorem running15_inv : (running 15).Inv := by constructor <;> decide
theorem running16_inv : (running 16).Inv := by constructor <;> decide
theorem started_inv : started.Inv := by constructor <;> decide
theorem marked_inv : marked.Inv := by constructor <;> decide
theorem faulted_inv : faulted.Inv := by constructor <;> decide

theorem witness_DecodeAndEncodeAgree : decode 0x11890000 = .ok (.smul 3 1 2) := by rfl

theorem witness_LegalWordsAreTheTablesRows :
    ((0x48000000, 0xF807FFFF) ∈ tableRows ∧ (0x4C000000 : Word) &&& 0xF807FFFF = 0x48000000) ∧
    fresh.status.fault = false ∧ ¬ legalWord 0x98000001 := by
  unfold legalWord
  decide

theorem witness_SerialisedWordsAreLittleEndian : 3 < 4 ∧ decode 0xC8000400 = .ok (.rget 0 16) :=
  ⟨by decide, rfl⟩

theorem witness_StepRunsTheDecodedCommand :
    let s : State := { fresh with port := [.write 0x00C 32 0x11890000, .reset] }
    s.port = .write 0x00C 32 0x11890000 :: [.reset] ∧ s.status.fault = false ∧
      decode 0x11890000 = .ok (.smul 3 1 2) ∧ fresh.port = [] := ⟨rfl, rfl, rfl, rfl⟩

theorem witness_IllegalWordsFault :
    let s : State := { fresh with port := [.write 0x00C 32 0x50000000] }
    s.port = .write 0x00C 32 0x50000000 :: [] ∧ s.status.fault = false ∧ ¬ legalWord 0x50000000 := by
  refine ⟨rfl, rfl, ?_⟩
  unfold legalWord
  decide

theorem witness_ResetInputRestoresReset : { faulted with port := [.reset] }.port = .reset :: [] := rfl

theorem witness_StepKeepsInvariant : fresh.Inv ∧ ∃ t, step fresh = .next t := ⟨fresh_inv, _, rfl⟩

/-- The clauses on words: one that is illegal, one that decodes. -/
theorem witness_CommandChecksInOrder_word :
    fresh.status.fault = false ∧ (∀ i, decode 0x98000001 ≠ .ok i) ∧ decode 0x98000000 = .ok .mperm :=
  ⟨rfl, fun _ => nofun, rfl⟩

/-- Each clause of R304: a refused command, each fault of R303, and a command that passes. -/
theorem witness_CommandChecksInOrder :
    faulted.status.fault = true ∧
    (fresh.status.fault = false ∧ expectedFault (.ssbox 13 0) fresh = some .operand) ∧
    (resetOf 1).status.fault = false ∧ expectedFault .minit (resetOf 1) = some .noCfg ∧
    expectedFault .mkey fresh = some .noDp ∧
    expectedFault .mperm { fresh with exit := { en := true, half := false, round := 6 } } = some .exit ∧
    expectedFault .mkey { started with off := 0 } = some .sched ∧
    expectedFault (.rget 0 9) (running 8) = some .tape ∧
    expectedFault (.rget 0 8) (running 8) = none ∧ expectedFault .mperm marked = none := by decide

theorem witness_FaultedBlockIsFrozen :
    let s : State := { faulted with port := [.read 0x100 32] }
    s.status.fault = true ∧ s.port = .read 0x100 32 :: [] ∧ Access.read 0x100 32 ≠ .reset ∧
      portRegAt 0x100 = some (.v 0 0) ∧ reservedAddr 0x0FF := by
  refine ⟨rfl, rfl, by decide, by decide, ?_⟩
  unfold reservedAddr
  decide

theorem witness_FaultsArePrecise :
    let s : State := { fresh with port := [.write 0x030 32 1] }
    s.status.fault = false ∧ ∃ t, step s = .next t ∧ t.status.fault = true :=
  ⟨rfl, fresh.withFault .port 0x030, rfl, rfl⟩

/-- The four clauses, at the ends of the ranges of D and RND. -/
theorem witness_SessionConstruction :
    let u : State := resetOf 1
    (u.status.fault = false ∧ u.status.cfgValid = false ∧ fresh.status.cfgValid = true) ∧
    ((0x1 : Word).toNat % 16 < 2 ∧ 8 < (0x9 : Word).toNat % 16) ∧
    (2 ≤ (0x72 : Word).toNat % 16 ∧ (0x78 : Word).toNat % 16 ≤ 8 ∧ 6 < (0x78 : Word).toNat / 16 % 16) ∧
    (2 ≤ (0x68 : Word).toNat % 16 ∧ (0x68 : Word).toNat % 16 ≤ 8 ∧ (0x68 : Word).toNat / 16 % 16 ≤ 6) := by
  decide

theorem witness_ConfigurationFixedUntilReset :
    fresh.status.cfgValid = true ∧ (∀ rest, fresh.port ≠ .reset :: rest) ∧ ∃ t, step fresh = .next t :=
  ⟨rfl, fun _ => nofun, _, rfl⟩

/-- A draw that sets PRNG_RUN, MINIT that sets DP_INIT, MPERM that sets EARLY, RINIT that clears PRNG_RUN,
and a fault. -/
theorem witness_CommandsWriteTheirStatusBitsOnly :
    (∃ t, exec .rinit (running 8) = .next t ∧ t.status.prngRun ≠ (running 8).status.prngRun) ∧
    (∃ t, exec .minit fresh = .next t ∧ t.status.dpInit ≠ fresh.status.dpInit) ∧
    (∃ t, exec .rstep fresh = .next t ∧ t.status.prngRun ≠ fresh.status.prngRun) ∧
    (∃ t, exec .mkey fresh = .next t ∧ t.status.fault ≠ fresh.status.fault) :=
  ⟨⟨_, rfl, by decide⟩, ⟨_, rfl, by decide⟩, ⟨_, rfl, by decide⟩, ⟨_, rfl, by decide⟩⟩

/-- A command that writes V, RC, CURSOR and CORE, one that writes TK and OFF, and RGET. -/
theorem witness_RegistersHaveTheirWritersOnly :
    (∃ t, exec (.mhalf 1) started = .next t ∧ t.rc ≠ started.rc) ∧
    (∃ t, exec .minit fresh = .next t ∧ t.off ≠ fresh.off) ∧
    (∃ t, exec (.rget 0 16) fresh = .next t ∧ t.cursor ≠ fresh.cursor ∧ t.permCount ≠ fresh.permCount) :=
  ⟨⟨_, rfl, by decide⟩, ⟨_, rfl, by decide⟩, ⟨_, rfl, by decide⟩⟩

theorem witness_AddressMapOfThePort :
    reservedAddr 0x030 ∧ reservedAddr 0x0FF ∧ reservedAddr 0x250 ∧ reservedAddr 0x27F ∧
      reservedAddr 0x330 ∧ reservedAddr 0xFFF := by
  unfold reservedAddr
  decide

theorem witness_ReadsReturnTheRegister :
    let s : State := { fresh with port := [.read 0x32C 32] }
    s.port = .read 0x32C 32 :: [] ∧ (0x32C : BitVec 12).toNat % 4 = 0 ∧
      portRegAt 0x32C = some (.tk 2 3) ∧ s.lanes[s.laneSel.toNat]? = some lane0 :=
  ⟨rfl, by decide, by decide, rfl⟩

/-- A byte-wide access, a misaligned address, a reserved one, and a write of a read-only register. -/
theorem witness_RefusedAccessesFault :
    let s : State := { fresh with port := [.read 0x200 8] }
    let r : State := { fresh with port := [.write 0x32F 32 1] }
    (s.status.fault = false ∧ s.port = .read 0x200 8 :: [] ∧ 8 ≠ 32) ∧
    (r.status.fault = false ∧ r.port = .write 0x32F 32 1 :: [] ∧ (0x32F : BitVec 12).toNat % 4 ≠ 0) ∧
    reservedAddr 0xFFF ∧ readOnlyAddr 0x000 ∧ readOnlyAddr 0x280 ∧ readOnlyAddr 0x32F := by
  unfold reservedAddr readOnlyAddr
  exact ⟨⟨rfl, rfl, by decide⟩, ⟨rfl, rfl, by decide⟩, by decide, by decide, by decide, by decide⟩

/-- V words 0 and D-1 (written) and D (ignored), X15, SEED[3] and EXIT. -/
theorem witness_HostWritesChangeOneWord :
    let s : State := { fresh with port := [.write 0x104 32 7] }
    s.port = .write 0x104 32 7 :: [] ∧ s.status.fault = false ∧
    (0x104 : BitVec 12).toNat % 4 = 0 ∧ portRegAt 0x104 = some (.v 0 1) ∧ 1 < s.order ∧
    portRegAt 0x108 = some (.v 0 2) ∧ ¬ 2 < s.order ∧ portRegAt 0x23C = some (.x 15) ∧
    portRegAt 0x24C = some (.seed 3) ∧ portRegAt 0x014 = some .exit :=
  ⟨rfl, rfl, by decide, by decide, by decide, by decide, by decide, by decide, by decide, by decide⟩

/-- Lane NL, which the block does not have, and lane NL-1. -/
theorem witness_LaneSelectWrite :
    let s : State := { fresh with port := [.write 0x02C 32 1] }
    let r : State := { fresh with port := [.write 0x02C 32 0x10] }
    (s.port = .write 0x02C 32 1 :: [] ∧ s.status.fault = false ∧ s.nl ≤ (1 : Word).toNat % 16) ∧
    (r.port = .write 0x02C 32 0x10 :: [] ∧ r.status.fault = false ∧ (0x10 : Word).toNat % 16 < r.nl) :=
  ⟨⟨rfl, rfl, by decide⟩, rfl, rfl, by decide⟩

/-- The last V word of V7 that order 8 has, and the last SEED word. -/
theorem witness_WriteThenReadReturnsTheWord :
    let s : State := { block8 with port := [.write 0x1FC 32 7, .read 0x1FC 32] }
    s.Inv ∧ s.status.fault = false ∧ (0x1FC : BitVec 12).toNat % 4 = 0 ∧
      (0x100 ≤ (0x1FC : BitVec 12).toNat ∧ (0x1FC : BitVec 12).toNat ≤ 0x1FF ∧
        (0x1FC : BitVec 12).toNat / 4 % 8 < s.order) ∧
      (0x200 ≤ (0x24C : BitVec 12).toNat ∧ (0x24C : BitVec 12).toNat ≤ 0x24F) ∧
      s.port = .write 0x1FC 32 7 :: .read 0x1FC 32 :: [] :=
  ⟨by constructor <;> decide, rfl, by decide, by decide, by decide, rfl⟩

/-- The last word of V15 that order 8 has. -/
theorem witness_WriteThenReadReturnsTheWord_named :
    let s : State := { block8 with port := [.writeV 15 7 7, .readV 15 7] }
    s.Inv ∧ s.status.fault = false ∧ (7 : Fin 8).val < s.order ∧
      s.port = .writeV 15 7 7 :: .readV 15 7 :: [] :=
  ⟨by constructor <;> decide, rfl, by decide, rfl⟩

/-- Words D-1 and D of V15, read and written; a faulted block; and V7[7], the last word with an address. -/
theorem witness_EveryVWordIsHostReadableAndWritable :
    let s : State := { fresh with port := [.readV 15 1] }
    let r : State := { fresh with port := [.writeV 15 1 7] }
    (s.port = .readV 15 1 :: [] ∧ (1 : Fin 8).val < s.order ∧ s.order ≤ (2 : Fin 8).val ∧
      s.lanes[s.laneSel.toNat]? = some lane0) ∧
    (r.port = .writeV 15 1 7 :: [] ∧ r.status.fault = false ∧ (1 : Fin 8).val < r.order ∧
      faulted.status.fault = true) ∧
    (0x1FC : BitVec 12).toNat = 0x100 + 32 * (7 : VReg).val + 4 * (7 : Fin 8).val ∧
    (0x1FC : BitVec 12).toNat ≤ 0x1FF :=
  ⟨⟨rfl, by decide, by decide, rfl⟩, ⟨rfl, rfl, by decide, rfl⟩, by decide, by decide⟩

/-- The three clauses, each with a draw that ends exactly at the tape's end. -/
theorem witness_DrawHandsOutTapeWords :
    ((running 15).Inv ∧ cursorAfterRefill (running 15) + 1 ≤ 16 ∧
      (running 15).status.prngRun = true ∧ (running 15).cursor.toNat < 16) ∧
    ((running 16).Inv ∧ cursorAfterRefill (running 16) + 16 ≤ 16 ∧
      (running 16).status.prngRun = true ∧ (running 16).cursor.toNat = 16) ∧
    (fresh.Inv ∧ cursorAfterRefill fresh + 16 ≤ 16 ∧ fresh.status.prngRun = false) :=
  ⟨⟨running15_inv, by decide, rfl, by decide⟩, ⟨running16_inv, by decide, rfl, by decide⟩,
    fresh_inv, by decide, rfl⟩

/-- From an UNINIT block, from the middle of the tape and from its end. -/
theorem witness_DrawsChangeOnlyThePrng :
    fresh.Inv ∧ (running 15).Inv ∧ (running 16).Inv ∧ 1 ≤ 1 ∧ 1 ≤ 60 :=
  ⟨fresh_inv, running15_inv, running16_inv, by decide, by decide⟩

theorem witness_SingleDrawsAreOneRequest :
    ((running 8).Inv ∧ 1 ≤ 8 ∧ cursorAfterRefill (running 8) + 8 ≤ 16) ∧
    (fresh.Inv ∧ 1 ≤ 16 ∧ cursorAfterRefill fresh + 16 ≤ 16) :=
  ⟨⟨running8_inv, by decide, by decide⟩, fresh_inv, by decide, by decide⟩

theorem witness_TwoFullRequestsRefillTwice :
    fresh.Inv ∧ fresh.Ready ∧ fresh.status.prngRun = false := ⟨fresh_inv, fresh_ready, rfl⟩

theorem witness_RinitReturnsToUninit :
    (running 8).Ready ∧ fresh.Ready ∧ fresh.Inv ∧ fresh.status.prngRun = false :=
  ⟨running_ready 8, fresh_ready, fresh_inv, rfl⟩

/-- One word too many, and exactly enough; the last register a request may fill. -/
theorem witness_RgetFillsPublicRegisters :
    ((running 8).Ready ∧ (running 8).Inv ∧ 1 ≤ (9 : Imm).val ∧ (9 : Imm).val ≤ 16 ∧
      (0 : XReg).val + (9 : Imm).val ≤ 16 ∧ 16 < cursorAfterRefill (running 8) + (9 : Imm).val) ∧
    ((7 : XReg).val + (9 : Imm).val ≤ 16 ∧ (8 : XReg).val + (8 : Imm).val ≤ 16 ∧
      cursorAfterRefill (running 8) + (8 : Imm).val ≤ 16) :=
  ⟨⟨running_ready 8, running8_inv, by decide⟩, by decide⟩

theorem witness_RstepAdvancesTheCore : fresh.Ready ∧ (running 8).Ready := ⟨fresh_ready, running_ready 8⟩

/-- Two blocks that differ in V0 and in RNG_DIS. -/
theorem witness_PrngIgnoresSharesAndDisableFlag :
    let s' : State := { fresh with
      lanes := [setV 0 [sv [1, 2]] lane0], cfg := { fresh.cfg with rngDis := true } }
    s' = { fresh with lanes := s'.lanes, cfg := { fresh.cfg with rngDis := true } } ∧
    LaneWise (fun a b => b = { a with v := b.v, x := b.x, tk := b.tk }) fresh s' ∧
    ∃ t, exec (.smul 0 0 0) fresh = .next t := by
  refine ⟨rfl, ?_, exec_next _ _⟩
  exact .cons (by unfold setV Lane.writeGroup; rfl) .nil

/-- Two running blocks that differ in SEED. -/
theorem witness_SeedWaitsForTheNextSeeding :
    let s' : State := { running 8 with lanes := [resetLane] }
    (running 8).status.prngRun = true ∧ s' = { running 8 with lanes := s'.lanes } ∧
    LaneWise (fun a b => b = { a with seed := b.seed }) (running 8) s' ∧
    ∃ t, exec (.sfresh 4) (running 8) = .next t :=
  ⟨rfl, rfl, .cons rfl .nil, exec_next _ _⟩

theorem witness_OnlyMpermReadsExit : Instr.minit ≠ .mperm ∧ ∃ t, exec .minit fresh = .next t :=
  ⟨by decide, exec_next _ _⟩

theorem witness_LanesRunInLockStep :
    (∃ t, exec (.smul 3 1 2) fresh = .next t) ∧ fresh.lanes[0]? = some lane0 := ⟨exec_next _ _, rfl⟩

theorem witness_NopOnlyCounts : (resetOf 1).status.fault = false ∧ fresh.status.fault = false := ⟨rfl, rfl⟩

theorem witness_SaddXorsShares : fresh.Ready ∧ block8.Ready := ⟨fresh_ready, block8_ready⟩

theorem witness_SpubInjectsIntoShareZero : fresh.Ready ∧ fresh.Inv := ⟨fresh_ready, fresh_inv⟩

theorem witness_SmovCopiesShares : fresh.Ready := fresh_ready

theorem witness_SmulIsIswProduct : (fresh.Ready ∧ fresh.Inv) ∧ block8.Ready ∧ block8.Inv :=
  ⟨⟨fresh_ready, fresh_inv⟩, block8_ready, block8_inv⟩

theorem witness_SmulMultipliesValues :
    block8.Ready ∧ block8.Inv ∧ ∃ t, exec (.smul 1 1 1) block8 = .next t :=
  ⟨block8_ready, block8_inv, exec_next _ _⟩

theorem witness_SmulIsSymmetric : block8.Ready ∧ block8.Inv := ⟨block8_ready, block8_inv⟩

/-- Both refresh policies: D = 2 and D = 8. -/
theorem witness_SrefRefreshesShares :
    (fresh.Ready ∧ fresh.Inv ∧ fresh.order < 4) ∧ block8.Ready ∧ block8.Inv ∧ ¬ block8.order < 4 :=
  ⟨⟨fresh_ready, fresh_inv, by decide⟩, block8_ready, block8_inv, by decide⟩

theorem witness_SlrefResharesLightly : fresh.Ready ∧ fresh.Inv := ⟨fresh_ready, fresh_inv⟩

theorem witness_RefreshesKeepTheValue :
    block8.Ready ∧ block8.Inv ∧ (∃ t, exec (.sref 2 1) block8 = .next t) ∧
      ∃ t, exec (.slref 2 1) block8 = .next t :=
  ⟨block8_ready, block8_inv, exec_next _ _, exec_next _ _⟩

theorem witness_SfreshDrawsEveryShare : fresh.Ready ∧ fresh.Inv := ⟨fresh_ready, fresh_inv⟩

theorem witness_SsboxRunsTheSboxLayer :
    fresh.Ready ∧ fresh.Inv ∧ (12 : VReg).val ≤ 12 ∧ (1 : Imm).val ≤ 1 :=
  ⟨fresh_ready, fresh_inv, by decide, by decide⟩

theorem witness_SsboxComputesTheSbox :
    block8.Ready ∧ block8.Inv ∧ (12 : VReg).val ≤ 12 ∧ (0 : Imm).val ≤ 1 ∧
      ∃ t, exec (.ssbox 12 0) block8 = .next t :=
  ⟨block8_ready, block8_inv, by decide, by decide, exec_next _ _⟩

theorem witness_SlboxAppliesLboxToShares :
    fresh.Ready ∧ (14 : VReg).val ≤ 14 ∧ (13 : VReg).val ≤ 14 := ⟨fresh_ready, by decide, by decide⟩

theorem witness_LboxIsLinear : 31 < 32 ∧ 0 < 32 := by decide

theorem witness_MinitLoadsTheState : fresh.Ready ∧ fresh.Inv := ⟨fresh_ready, fresh_inv⟩

theorem witness_MhalfIsOneHalfRound :
    started.Ready ∧ started.Inv ∧ started.status.dpInit = true ∧ (1 : Imm).val ≤ 1 :=
  ⟨started_ready, started_inv, rfl, by decide⟩

theorem witness_MkeyAddsKeyAndTweak :
    started.Ready ∧ started.Inv ∧ started.status.dpInit = true ∧ started.off ≠ 0 :=
  ⟨started_ready, started_inv, rfl, by decide⟩

theorem witness_MpermIsItsSteps : fresh.Ready ∧ fresh.Inv ∧ fresh.exit.en = false :=
  ⟨fresh_ready, fresh_inv, rfl⟩

theorem witness_MpermStopsAtTheMarker :
    marked.Ready ∧ marked.Inv ∧ marked.exit.en = true ∧ marked.exit.round.toNat < marked.rounds :=
  ⟨marked_ready, marked_inv, rfl, by decide⟩

theorem witness_MpermDrawsAndFrame : block8.Ready ∧ block8.Inv ∧ block8.exit.en = false :=
  ⟨block8_ready, block8_inv, rfl⟩

/-- Without a marker, and with one in the last round. -/
theorem witness_MpermComputesTheUnmaskedCipher :
    (fresh.Ready ∧ fresh.Inv ∧ fresh.exit.en = false ∧ ∃ t, exec .mperm fresh = .next t) ∧
    (marked.Ready ∧ marked.Inv ∧ marked.exit.round.toNat < marked.rounds ∧
      ∃ t, exec .mperm marked = .next t) :=
  ⟨⟨fresh_ready, fresh_inv, rfl, exec_next _ _⟩, marked_ready, marked_inv, by decide, exec_next _ _⟩

end Sys2Proof.Machine
end

/-! Proofs about the scope of the model (spec/00_scope.md): the configuration is fixed until reset (R6),
and the engine lanes run in lock-step (R12). -/

namespace Sys2Proof.Machine

/-! ## The configuration is fixed until reset (R6) -/

/-- From `s` to `t` the block keeps its number of lanes and, once configured, its configuration. -/
structure KeepsConfig (s t : State) : Prop where
  nl : t.nl = s.nl
  cfg : s.status.cfgValid = true → t.cfg = s.cfg
  cfgValid : s.status.cfgValid = true → t.status.cfgValid = true

theorem KeepsConfig.refl (s : State) : KeepsConfig s s := ⟨rfl, fun _ => rfl, id⟩

/-- The host's queue and the word last returned are no part of the configuration. -/
theorem KeepsConfig.of_host {s t : State} {port : List Access} {reply : Option Word}
    (h : KeepsConfig { s with port := port, reply := reply } t) : KeepsConfig s t :=
  ⟨h.nl, h.cfg, h.cfgValid⟩

/-- The execution of a command writes neither CFG nor CFG_VALID, and adds or removes no lane. -/
theorem BodyChanges.keepsConfig {s t : State} (h : BodyChanges s t) : KeepsConfig s t where
  nl := h.lanes.length_eq.symm
  cfg _ := by rw [h.shared]
  cfgValid hv := by rw [h.shared]; exact hv

theorem raiseFault_keepsConfig (code : ErrCode) (info : Word) (s : State) :
    KeepsConfig s (raiseFault code info s) := by
  rw [raiseFault_frame]
  exact ⟨rfl, fun _ => rfl, id⟩

theorem windowWrite_keepsConfig (f : Lane → Lane) (s : State) : KeepsConfig s (s.windowWrite f) :=
  ⟨windowWrite_nl s f, fun _ => rfl, id⟩

/-- A CFG write to a configured block is refused with E_CFG_LOCKED (R301). -/
theorem cfgWrite_of_configured {s : State} (h : s.status.cfgValid = true) (w : Word) :
    cfgWrite w s = raiseFault .cfgLocked w s := by
  simp [cfgWrite, h]

/-- A CFG write keeps the number of lanes, whatever its checks say. -/
theorem cfgWrite_nl (w : Word) (s : State) : (cfgWrite w s).nl = s.nl := by
  unfold cfgWrite
  simp only
  split
  · exact (raiseFault_keepsConfig ..).nl
  split
  · exact (raiseFault_keepsConfig ..).nl
  split
  · exact (raiseFault_keepsConfig ..).nl
  · rfl

theorem cfgWrite_keepsConfig (w : Word) (s : State) : KeepsConfig s (cfgWrite w s) where
  nl := cfgWrite_nl w s
  cfg hv := by rw [cfgWrite_of_configured hv]; exact (raiseFault_keepsConfig ..).cfg hv
  cfgValid hv := by rw [cfgWrite_of_configured hv]; exact (raiseFault_keepsConfig ..).cfgValid hv

theorem laneSelWrite_keepsConfig (w : Word) (s : State) : KeepsConfig s (laneSelWrite w s) := by
  unfold laneSelWrite
  simp only
  split
  · exact raiseFault_keepsConfig ..
  · exact ⟨rfl, fun _ => rfl, id⟩

theorem hostWriteV_keepsConfig (r : VReg) (i : Fin 8) (w : Word) (s : State) :
    KeepsConfig s (hostWriteV r i w s) := by
  unfold hostWriteV
  split
  · exact windowWrite_keepsConfig ..
  · exact .refl s

theorem exec_keepsConfig {i : Instr} {s t : State} (h : exec i s = .next t) : KeepsConfig s t := by
  obtain ⟨-, rfl⟩ | ⟨e, -, -, rfl⟩ | ⟨-, -, rfl⟩ := exec_cases h
  · exact .refl _
  · exact ⟨rfl, fun _ => rfl, id⟩
  · have hb := (bodyOf_changes i s).keepsConfig
    exact ⟨hb.nl, hb.cfg, hb.cfgValid⟩

theorem issue_keepsConfig {w : Word} {s t : State} (h : issue w s = .next t) : KeepsConfig s t := by
  unfold issue at h
  split at h
  · cases h; exact .refl s
  · split at h
    · cases h; exact raiseFault_keepsConfig ..
    · exact exec_keepsConfig h

theorem writeReg_keepsConfig {addr : BitVec 12} {r : PortReg} {w : Word} {s t : State}
    (h : writeReg addr r w s = .next t) : KeepsConfig s t := by
  cases r with
  | cmd => exact issue_keepsConfig h
  | cfg => cases h; exact cfgWrite_keepsConfig w s
  | exit => cases h; exact ⟨rfl, fun _ => rfl, id⟩
  | laneSel => cases h; exact laneSelWrite_keepsConfig w s
  | v r i => cases h; exact hostWriteV_keepsConfig r i w s
  | x | seed => cases h; exact windowWrite_keepsConfig ..
  | id | status | errinfo | cmdCount | permCount | rc | off | cursor | core | tape | tk =>
    cases h; exact raiseFault_keepsConfig ..

theorem portRead_keepsConfig (addr : BitVec 12) (bits : Nat) (s : State) :
    KeepsConfig s (portRead addr bits s) := by
  unfold portRead
  split
  · exact ⟨rfl, fun _ => rfl, id⟩
  · have hf := raiseFault_keepsConfig .port (addr.zeroExtend 32) s
    exact ⟨hf.nl, hf.cfg, hf.cfgValid⟩

theorem portWrite_keepsConfig {addr : BitVec 12} {bits : Nat} {w : Word} {s t : State}
    (h : portWrite addr bits w s = .next t) : KeepsConfig s t := by
  unfold portWrite at h
  split at h
  · cases h; exact .refl s
  · split at h
    · cases h; exact raiseFault_keepsConfig ..
    · exact writeReg_keepsConfig h

theorem portWriteV_keepsConfig (r : VReg) (i : Fin 8) (w : Word) (s : State) :
    KeepsConfig s (portWriteV r i w s) := by
  unfold portWriteV
  split
  · exact .refl s
  · exact hostWriteV_keepsConfig r i w s

/-- The configuration outlives every access but the reset input. -/
theorem performAccess_keepsConfig {a : Access} {s t : State} (ha : a ≠ .reset)
    (h : performAccess a s = .next t) : KeepsConfig s t := by
  cases a with
  | read addr bits => cases h; exact portRead_keepsConfig addr bits s
  | write addr bits w => exact .of_host (portWrite_keepsConfig h)
  | readV r i => cases h; exact ⟨rfl, fun _ => rfl, id⟩
  | writeV r i w =>
    cases h
    exact .of_host (portWriteV_keepsConfig r i w { s with reply := none })
  | reset => exact absurd rfl ha

/-- The configuration outlives every step whose access is not the reset input. -/
theorem step_keepsConfig {s t : State} (hr : ∀ rest, s.port ≠ .reset :: rest)
    (h : step s = .next t) : KeepsConfig s t := by
  cases hp : s.port with
  | nil => rw [step_idle hp] at h; cases h; exact .refl s
  | cons a rest =>
    rw [step_access hp] at h
    have ha : a ≠ .reset := fun e => hr rest (e ▸ hp)
    exact .of_host (performAccess_keepsConfig ha h)

/-- The reset input too leaves the block its number of lanes (R6). -/
theorem step_reset_nl {s t : State} {rest : List Access} (hp : s.port = .reset :: rest)
    (h : step s = .next t) : t.nl = s.nl := by
  rw [step_access hp] at h
  cases h
  exact resetOf_nl s.nl

/-- Settles O16: a configured block refuses the CFG write, and no other access but reset touches CFG,
CFG_VALID or the number of lanes, which reset keeps too. -/
theorem configurationFixedUntilReset : Obligations.ConfigurationFixedUntilReset := by
  refine ⟨fun s t hv hr h => ?_, fun s t h => ?_⟩
  · have hk := step_keepsConfig hr h
    exact ⟨hk.cfg hv, hk.cfgValid hv⟩
  · by_cases hr : ∃ rest, s.port = .reset :: rest
    · obtain ⟨rest, hp⟩ := hr
      exact step_reset_nl hp h
    · exact (step_keepsConfig (fun rest hp => hr ⟨rest, hp⟩) h).nl

/-! ## The lanes run in lock-step (R12)

The block cut down to lane l, `s.onlyLane l`, commutes with every operation a command is made of. So it
commutes with every command. -/

/-- The same block with lane `l` alone, and with no lane where there is no lane `l`. -/
def State.onlyLane (l : Nat) (s : State) : State := { s with lanes := s.lanes[l]?.toList }

theorem onlyLane_of_lane {s : State} {l : Nat} {a : Lane} (h : s.lanes[l]? = some a) :
    s.onlyLane l = { s with lanes := [a] } := by
  simp [State.onlyLane, h]

/-- One entry of a `zipWith`, as a list, is the `zipWith` of one entry of each list. -/
theorem getElem?_toList_zipWith {α β γ : Type} (f : α → β → γ) (xs : List α) (ys : List β) (l : Nat) :
    (List.zipWith f xs ys)[l]?.toList = List.zipWith f xs[l]?.toList ys[l]?.toList := by
  rw [List.getElem?_zipWith]
  cases xs[l]? <;> cases ys[l]? <;> rfl

@[simp] theorem mapLanes_onlyLane (f : Lane → Lane) (l : Nat) (s : State) :
    (s.onlyLane l).mapLanes f = (s.mapLanes f).onlyLane l := by
  simp [State.onlyLane, State.mapLanes, Option.toList_map]

theorem zipLanes_onlyLane (f : Lane → List Word → Lane) (ws : List (List Word)) (l : Nat) (s : State) :
    (s.onlyLane l).zipLanes f ws[l]?.toList = (s.zipLanes f ws).onlyLane l := by
  simp only [State.onlyLane, State.zipLanes, getElem?_toList_zipWith]

/-! ### The PRNG -/

@[simp] theorem seedPrng_onlyLane (P : Prng) (l : Nat) (s : State) :
    seedPrng P (s.onlyLane l) = (seedPrng P s).onlyLane l := by
  simp [State.onlyLane, seedPrng, Option.toList_map]

@[simp] theorem stepCores_onlyLane (P : Prng) (l : Nat) (s : State) :
    stepCores P (s.onlyLane l) = (stepCores P s).onlyLane l := by
  simp [State.onlyLane, stepCores, Option.toList_map]

@[simp] theorem extractHalf_onlyLane (P : Prng) (h l : Nat) (s : State) :
    extractHalf P h (s.onlyLane l) = (extractHalf P h s).onlyLane l := by
  unfold extractHalf
  exact mapLanes_onlyLane _ l s

@[simp] theorem refill_onlyLane (P : Prng) (l : Nat) (s : State) :
    refill P (s.onlyLane l) = (refill P s).onlyLane l := by
  simp only [refill, stepCores_onlyLane, extractHalf_onlyLane]
  rfl

@[simp] theorem ensureRunning_onlyLane (P : Prng) (l : Nat) (s : State) :
    ensureRunning P (s.onlyLane l) = (ensureRunning P s).onlyLane l := by
  by_cases hr : s.status.prngRun = true
  · rw [ensureRunning_of_run P hr, ensureRunning_of_run P (s := s.onlyLane l) hr]
  · rw [Bool.not_eq_true] at hr
    rw [ensureRunning_of_uninit P hr, ensureRunning_of_uninit P (s := s.onlyLane l) hr,
      seedPrng_onlyLane]

@[simp] theorem refillAtEnd_onlyLane (P : Prng) (l : Nat) (s : State) :
    refillAtEnd P (s.onlyLane l) = (refillAtEnd P s).onlyLane l := by
  by_cases hc : 16 ≤ s.cursor.toNat
  · rw [refillAtEnd_of_end P hc, refillAtEnd_of_end P (s := s.onlyLane l) hc, refill_onlyLane]
  · rw [Nat.not_le] at hc
    rw [refillAtEnd_of_left P hc, refillAtEnd_of_left P (s := s.onlyLane l) hc]

@[simp] theorem readyTape_onlyLane (P : Prng) (l : Nat) (s : State) :
    readyTape P (s.onlyLane l) = (readyTape P s).onlyLane l := by
  simp [readyTape]

/-- A draw hands lane l the words it would hand it on a block of its own. -/
theorem draw_onlyLane (P : Prng) (n l : Nat) (s : State) :
    draw P n (s.onlyLane l) = ((draw P n s).1.onlyLane l, (draw P n s).2[l]?.toList) := by
  simp only [draw, readyTape_onlyLane, List.getElem?_map, Option.toList_map]
  rfl

theorem drawWords_onlyLane (P : Prng) (k l : Nat) (s : State) :
    drawWords P k (s.onlyLane l) = ((drawWords P k s).1.onlyLane l, (drawWords P k s).2[l]?.toList) := by
  induction k generalizing s with
  | zero => simp only [drawWords, State.onlyLane, List.getElem?_map, Option.toList_map]
  | succ k ih => simp only [drawWords, draw_onlyLane, ih, getElem?_toList_zipWith]

@[simp] theorem drawThen_onlyLane (P : Prng) (k : Nat) (f : Lane → List Word → Lane) (l : Nat) (s : State) :
    drawThen P k f (s.onlyLane l) = (drawThen P k f s).onlyLane l := by
  simp only [drawThen, drawWords_onlyLane, zipLanes_onlyLane]

@[simp] theorem rinitBody_onlyLane (l : Nat) (s : State) :
    rinitBody (s.onlyLane l) = (rinitBody s).onlyLane l := by
  simp [State.onlyLane, rinitBody, Option.toList_map]

@[simp] theorem rgetBody_onlyLane (P : Prng) (xk : XReg) (n l : Nat) (s : State) :
    rgetBody P xk n (s.onlyLane l) = (rgetBody P xk n s).onlyLane l := by
  simp only [rgetBody, draw_onlyLane, zipLanes_onlyLane]

@[simp] theorem rstepBody_onlyLane (P : Prng) (l : Nat) (s : State) :
    rstepBody P (s.onlyLane l) = (rstepBody P s).onlyLane l := by
  simp only [rstepBody, ensureRunning_onlyLane, stepCores_onlyLane]

/-! ### The datapath -/

@[simp] theorem sboxLayer_onlyLane (P : Prng) (r : VReg) (ref : Bool) (l : Nat) (s : State) :
    sboxLayer P r ref (s.onlyLane l) = (sboxLayer P r ref s).onlyLane l := by
  unfold sboxLayer
  exact drawThen_onlyLane P _ _ l s

@[simp] theorem lboxLayer_onlyLane (l : Nat) (s : State) :
    lboxLayer (s.onlyLane l) = (lboxLayer s).onlyLane l := by
  unfold lboxLayer
  exact mapLanes_onlyLane _ l s

@[simp] theorem injectRc_onlyLane (l : Nat) (s : State) :
    injectRc (s.onlyLane l) = (injectRc s).onlyLane l := by
  unfold injectRc
  exact mapLanes_onlyLane _ l s

@[simp] theorem linearHalf_onlyLane (l : Nat) (s : State) :
    linearHalf (s.onlyLane l) = (linearHalf s).onlyLane l := by
  simp only [linearHalf, lboxLayer_onlyLane, injectRc_onlyLane]
  rfl

@[simp] theorem mhalfBody_onlyLane (P : Prng) (ref : Bool) (l : Nat) (s : State) :
    mhalfBody P ref (s.onlyLane l) = (mhalfBody P ref s).onlyLane l := by
  simp only [mhalfBody, sboxLayer_onlyLane, linearHalf_onlyLane]

@[simp] theorem minitBody_onlyLane (l : Nat) (s : State) :
    minitBody (s.onlyLane l) = (minitBody s).onlyLane l := by
  simp only [State.onlyLane, minitBody, List.getElem?_map, Option.toList_map]
  rfl

@[simp] theorem mkeyBody_onlyLane (l : Nat) (s : State) :
    mkeyBody (s.onlyLane l) = (mkeyBody s).onlyLane l := by
  simp only [State.onlyLane, mkeyBody, List.getElem?_map, Option.toList_map]
  rfl

@[simp] theorem setEarly_onlyLane (b : Bool) (l : Nat) (s : State) :
    setEarly b (s.onlyLane l) = (setEarly b s).onlyLane l := rfl

/-- The rounds of MPERM: the marker is shared, so every lane stops at the same half-round (R251). -/
@[simp] theorem mpermRounds_onlyLane (P : Prng) (m : ExitMarker) (n r l : Nat) (s : State) :
    mpermRounds P m n r (s.onlyLane l) = (mpermRounds P m n r s).onlyLane l := by
  induction n generalizing r s with
  | zero => rfl
  | succ n ih =>
    simp only [mpermRounds, sboxLayer_onlyLane, linearHalf_onlyLane, mkeyBody_onlyLane,
      setEarly_onlyLane, ih]
    split
    · rfl
    · split <;> rfl

@[simp] theorem mpermBody_onlyLane (P : Prng) (l : Nat) (s : State) :
    mpermBody P (s.onlyLane l) = (mpermBody P s).onlyLane l := by
  simp only [mpermBody, minitBody_onlyLane, setEarly_onlyLane, mpermRounds_onlyLane]
  rfl

/-! ### Commands -/

/-- A command executed on one lane alone does to it, and to the shared registers, what it does in the
block. -/
theorem bodyOf_onlyLane (i : Instr) (l : Nat) (s : State) :
    bodyOf i (s.onlyLane l) = (bodyOf i s).onlyLane l := by
  cases i with
  | nop => rfl
  | sadd | spub | smov | slbox => exact mapLanes_onlyLane _ l s
  | smul | sref | slref | sfresh => exact drawThen_onlyLane _ _ _ l s
  | ssbox => exact sboxLayer_onlyLane _ _ _ l s
  | minit => exact minitBody_onlyLane l s
  | mhalf => exact mhalfBody_onlyLane _ _ l s
  | mkey => exact mkeyBody_onlyLane l s
  | mperm => exact mpermBody_onlyLane _ l s
  | rinit => exact rinitBody_onlyLane l s
  | rget => exact rgetBody_onlyLane _ _ _ l s
  | rstep => exact rstepBody_onlyLane _ l s

/-- The checks at issue read shared registers only (R303). -/
theorem expectedFault_onlyLane (i : Instr) (l : Nat) (s : State) :
    expectedFault i (s.onlyLane l) = expectedFault i s := rfl

/-- A command answers on one lane alone what it answers in the block, cut down to that lane. -/
theorem exec_onlyLane {i : Instr} {s t : State} (h : exec i s = .next t) (l : Nat) :
    exec i (s.onlyLane l) = .next (t.onlyLane l) := by
  obtain ⟨hf, rfl⟩ | ⟨e, hf, he, rfl⟩ | ⟨hf, hn, rfl⟩ := exec_cases h
  · exact exec_of_faulted (s := t.onlyLane l) hf
  · exact exec_of_fault (s := s.onlyLane l) hf ((expectedFault_onlyLane i l s).trans he)
  · rw [exec_of_pass (s := s.onlyLane l) hf ((expectedFault_onlyLane i l s).trans hn), bodyOf_onlyLane]
    rfl

/-- Settles O36: a command commutes with cutting the block down to one lane, and the block after it still
has that lane. -/
theorem lanesRunInLockStep : Obligations.LanesRunInLockStep := by
  intro i s t l a h ha
  have hl : l < t.lanes.length :=
    (List.getElem?_eq_some_iff.mp ha).1.trans_eq (exec_keepsConfig h).nl.symm
  have hb : t.lanes[l]? = some t.lanes[l] := List.getElem?_eq_getElem hl
  refine ⟨t.lanes[l], hb, ?_⟩
  rw [← onlyLane_of_lane ha, ← onlyLane_of_lane hb]
  exact exec_onlyLane h l

end Sys2Proof.Machine

/-! Proofs about the registers of the block (spec/10_state.md): what reset leaves in them (R55), which
command may write which of them (R33-R52), the host's access to every V word (R31) and to LANESEL (R46),
and the invariant every step keeps. -/

namespace Sys2Proof.Machine

/-! ## Relations between the lanes before and after -/

/-- Relations that compose on lanes compose on lists of lanes. -/
theorem forall₂_comp {R S T : Lane → Lane → Prop} (hc : ∀ {a b c}, R a b → S b c → T a c)
    {xs ys zs : List Lane} (h : List.Forall₂ R xs ys) (k : List.Forall₂ S ys zs) :
    List.Forall₂ T xs zs := by
  induction h generalizing zs with
  | nil => cases k; exact .nil
  | cons hd _ ih =>
    cases k with
    | cons hd' tl' => exact .cons (hc hd hd') (ih tl')

theorem forall₂_map_self {R : Lane → Lane → Prop} {f : Lane → Lane} (h : ∀ a, R a (f a))
    (xs : List Lane) : List.Forall₂ R xs (xs.map f) :=
  List.forall₂_map_right_iff.mpr (List.forall₂_same.mpr fun a _ => h a)

theorem forall₂_zipWith_self {R : Lane → Lane → Prop} {f : Lane → List Word → Lane}
    (h : ∀ a ws, R a (f a ws)) {xs : List Lane} {ws : List (List Word)} (hl : ws.length = xs.length) :
    List.Forall₂ R xs (List.zipWith f xs ws) := by
  induction xs generalizing ws with
  | nil => exact .nil
  | cons a xs ih =>
    cases ws with
    | nil => simp at hl
    | cons w ws => exact .cons (h a w) (ih (by simpa using hl))

theorem forall₂_modify_self {R : Lane → Lane → Prop} {f : Lane → Lane} (hr : ∀ a, R a a)
    (h : ∀ a, R a (f a)) (l : Nat) (xs : List Lane) : List.Forall₂ R xs (xs.modify l f) := by
  induction xs generalizing l with
  | nil => simp
  | cons a xs ih =>
    cases l with
    | zero => exact .cons (h a) (List.forall₂_same.mpr fun x _ => hr x)
    | succ l => exact .cons (hr a) (ih l)

/-- Every lane after comes from a lane before. -/
theorem exists_of_forall₂_mem {R : Lane → Lane → Prop} {xs ys : List Lane} (h : List.Forall₂ R xs ys)
    {b : Lane} (hb : b ∈ ys) : ∃ a ∈ xs, R a b := by
  induction h with
  | nil => simp at hb
  | @cons x y xs ys hd _ ih =>
    obtain rfl | hb := List.mem_cons.mp hb
    · exact ⟨x, by simp, hd⟩
    · obtain ⟨a, ha, hab⟩ := ih hb
      exact ⟨a, by simp [ha], hab⟩

/-! ## What a command may write (R33-R52)

`footprint i` lists what command `i` may write. Every operation a command is made of stays within its part
of it, `Within`, and operations run one after another stay within what they write together. -/

/-- A piece of state some command writes: a register, or one direction of change of a STATUS bit (R50). -/
inductive Target
  | v | x | tk | core | tape | rc | off | permCount | cursor
  /-- PRNG_RUN from 0 to 1. -/
  | runSet
  /-- PRNG_RUN from 1 to 0. -/
  | runClear
  /-- DP_INIT from 0 to 1. -/
  | dpSet
  | early

/-- What a draw may write (R201-R203). -/
def drawTargets : List Target := [.core, .tape, .permCount, .cursor, .runSet]

/-- What the execution of a command may write, beside CMD_COUNT. -/
def footprint : Instr → List Target
  | .nop => []
  | .sadd _ _ _ | .spub _ _ _ | .smov _ _ | .slbox _ _ => [.v]
  | .smul _ _ _ | .sref _ _ | .slref _ _ | .sfresh _ | .ssbox _ _ => .v :: drawTargets
  | .minit => [.v, .tk, .rc, .off, .dpSet]
  | .mhalf _ => .v :: .rc :: drawTargets
  | .mkey => [.v, .off]
  | .mperm => .v :: .tk :: .rc :: .off :: .dpSet :: .early :: drawTargets
  | .rinit => [.core, .tape, .cursor, .runClear]
  | .rget _ _ => .x :: drawTargets
  | .rstep => [.core, .permCount, .cursor, .runSet]

/-- The banked registers of a lane outside `F` keep their values, SEED always. -/
structure LaneWithin (F : List Target) (a b : Lane) : Prop where
  seed : b.seed = a.seed
  v : .v ∉ F → b.v = a.v
  x : .x ∉ F → b.x = a.x
  tk : .tk ∉ F → b.tk = a.tk
  core : .core ∉ F → b.core = a.core
  tape : .tape ∉ F → b.tape = a.tape

theorem LaneWithin.refl (F : List Target) (a : Lane) : LaneWithin F a a :=
  ⟨rfl, fun _ => rfl, fun _ => rfl, fun _ => rfl, fun _ => rfl, fun _ => rfl⟩

theorem LaneWithin.trans {F : List Target} {a b c : Lane} (h : LaneWithin F a b) (k : LaneWithin F b c) :
    LaneWithin F a c where
  seed := k.seed.trans h.seed
  v hF := (k.v hF).trans (h.v hF)
  x hF := (k.x hF).trans (h.x hF)
  tk hF := (k.tk hF).trans (h.tk hF)
  core hF := (k.core hF).trans (h.core hF)
  tape hF := (k.tape hF).trans (h.tape hF)

theorem LaneWithin.mono {F G : List Target} (hFG : F ⊆ G) {a b : Lane} (h : LaneWithin F a b) :
    LaneWithin G a b where
  seed := h.seed
  v hG := h.v (mt (hFG ·) hG)
  x hG := h.x (mt (hFG ·) hG)
  tk hG := h.tk (mt (hFG ·) hG)
  core hG := h.core (mt (hFG ·) hG)
  tape hG := h.tape (mt (hFG ·) hG)

/-- From `s` to `t` what a command can write outside `F` keeps its value; DP_INIT is never cleared. -/
structure Within (F : List Target) (s t : State) : Prop where
  rc : .rc ∉ F → t.rc = s.rc
  off : .off ∉ F → t.off = s.off
  permCount : .permCount ∉ F → t.permCount = s.permCount
  cursor : .cursor ∉ F → t.cursor = s.cursor
  runSet : .runSet ∉ F → t.status.prngRun = true → s.status.prngRun = true
  runClear : .runClear ∉ F → s.status.prngRun = true → t.status.prngRun = true
  dpSet : .dpSet ∉ F → t.status.dpInit = true → s.status.dpInit = true
  dpKept : s.status.dpInit = true → t.status.dpInit = true
  early : .early ∉ F → t.status.early = s.status.early
  lanes : LaneWise (LaneWithin F) s t

/-- A change of the lanes alone. -/
theorem Within.of_lanes {F : List Target} {s : State} {ls : List Lane}
    (h : List.Forall₂ (LaneWithin F) s.lanes ls) : Within F s { s with lanes := ls } :=
  ⟨fun _ => rfl, fun _ => rfl, fun _ => rfl, fun _ => rfl, fun _ => id, fun _ => id, fun _ => id, id,
    fun _ => rfl, h⟩

theorem Within.refl (F : List Target) (s : State) : Within F s s :=
  .of_lanes (List.forall₂_same.mpr fun a _ => .refl F a)

theorem Within.trans {F : List Target} {s t u : State} (h : Within F s t) (k : Within F t u) :
    Within F s u where
  rc hF := (k.rc hF).trans (h.rc hF)
  off hF := (k.off hF).trans (h.off hF)
  permCount hF := (k.permCount hF).trans (h.permCount hF)
  cursor hF := (k.cursor hF).trans (h.cursor hF)
  runSet hF hr := h.runSet hF (k.runSet hF hr)
  runClear hF hr := k.runClear hF (h.runClear hF hr)
  dpSet hF hd := h.dpSet hF (k.dpSet hF hd)
  dpKept hd := k.dpKept (h.dpKept hd)
  early hF := (k.early hF).trans (h.early hF)
  lanes := forall₂_comp .trans h.lanes k.lanes

theorem Within.mono {F G : List Target} (hFG : F ⊆ G) {s t : State} (h : Within F s t) :
    Within G s t where
  rc hG := h.rc (mt (hFG ·) hG)
  off hG := h.off (mt (hFG ·) hG)
  permCount hG := h.permCount (mt (hFG ·) hG)
  cursor hG := h.cursor (mt (hFG ·) hG)
  runSet hG := h.runSet (mt (hFG ·) hG)
  runClear hG := h.runClear (mt (hFG ·) hG)
  dpSet hG := h.dpSet (mt (hFG ·) hG)
  dpKept := h.dpKept
  early hG := h.early (mt (hFG ·) hG)
  lanes := h.lanes.imp fun _ _ hab => hab.mono hFG

theorem mapLanes_within {F : List Target} {f : Lane → Lane} (h : ∀ a, LaneWithin F a (f a)) (s : State) :
    Within F s (s.mapLanes f) :=
  .of_lanes (forall₂_map_self h _)

theorem zipLanes_within {F : List Target} {f : Lane → List Word → Lane}
    (h : ∀ a ws, LaneWithin F a (f a ws)) (s : State) {ws : List (List Word)} (hl : ws.length = s.nl) :
    Within F s (s.zipLanes f ws) :=
  .of_lanes (forall₂_zipWith_self h hl)

theorem writeGroup_within (d base : Nat) (new : List ShareVec) (a : Lane) :
    LaneWithin [.v] a (a.writeGroup d base new) := by
  constructor <;> simp

theorem writeQuad_within (d : Nat) (r : VReg) (q : Quad) (a : Lane) :
    LaneWithin [.v] a (a.writeQuad d r q) :=
  writeGroup_within d r _ a

theorem writePublic_within (k : XReg) (new : List Word) (a : Lane) :
    LaneWithin [.x] a (a.writePublic k new) := by
  constructor <;> simp

/-! ### The PRNG -/

/-- A change of PRNG state that does not stop the PRNG is a draw's. -/
theorem SameButPrng.within {s t : State} (h : SameButPrng s t)
    (hr : s.status.prngRun = true → t.status.prngRun = true) : Within drawTargets s t where
  rc _ := by rw [h.shared]
  off _ := by rw [h.shared]
  permCount hF := absurd hF (by simp [drawTargets])
  cursor hF := absurd hF (by simp [drawTargets])
  runSet hF := absurd hF (by simp [drawTargets])
  runClear _ := hr
  dpSet _ hd := by rw [h.shared] at hd; exact hd
  dpKept hd := by rw [h.shared]; exact hd
  early _ := by rw [h.shared]
  lanes := h.lanes.imp fun a b hab => by rw [hab]; constructor <;> simp [drawTargets]

theorem draw_within (P : Prng) (n : Nat) (s : State) : Within drawTargets s (draw P n s).1 :=
  (draw_same P n s).within fun _ => readyTape_run P s

theorem drawWords_within (P : Prng) (k : Nat) (s : State) : Within drawTargets s (drawWords P k s).1 := by
  induction k generalizing s with
  | zero => exact .refl _ s
  | succ k ih => exact (draw_within P 1 s).trans (ih _)

theorem drawThen_within {F : List Target} (hF : drawTargets ⊆ F) (P : Prng) (k : Nat)
    {f : Lane → List Word → Lane} (h : ∀ a ws, LaneWithin F a (f a ws)) (s : State) :
    Within F s (drawThen P k f s) :=
  ((drawWords_within P k s).mono hF).trans
    (zipLanes_within h _ (by rw [drawWords_length, (drawWords_same P k s).nl]))

/-- A command that draws and then writes one group of share-vectors. -/
theorem drawThen_writeGroup_within (P : Prng) (k d base : Nat) (new : Lane → List Word → List ShareVec)
    (s : State) :
    Within (.v :: drawTargets) s (drawThen P k (fun lane ws => lane.writeGroup d base (new lane ws)) s) :=
  drawThen_within (by simp) P k (fun a _ => (writeGroup_within d base _ a).mono (by simp)) s

theorem seedPrng_within (P : Prng) (s : State) : Within [.core, .cursor, .runSet] s (seedPrng P s) := by
  refine { Within.refl _ s with cursor := by simp, runSet := by simp, runClear := by simp, lanes := ?_ }
  exact forall₂_map_self (fun a => by constructor <;> simp) _

theorem stepCores_within (P : Prng) (s : State) : Within [.core, .permCount] s (stepCores P s) := by
  refine { Within.refl _ s with permCount := by simp, lanes := ?_ }
  exact forall₂_map_self (fun a => by constructor <;> simp) _

theorem ensureRunning_within (P : Prng) (s : State) :
    Within [.core, .cursor, .runSet] s (ensureRunning P s) := by
  unfold ensureRunning
  split
  · exact .refl _ s
  · exact seedPrng_within P s

theorem rinitBody_within (s : State) : Within [.core, .tape, .cursor, .runClear] s (rinitBody s) := by
  refine { Within.refl _ s with cursor := by simp, runSet := ?_, runClear := by simp, lanes := ?_ }
  · intro _ hr
    cases hr
  · exact forall₂_map_self (fun a => by constructor <;> simp) _

theorem rgetBody_within (P : Prng) (xk : XReg) (n : Nat) (s : State) :
    Within (.x :: drawTargets) s (rgetBody P xk n s) := by
  rw [rgetBody_eq]
  refine ((draw_within P n s).mono (by simp)).trans (zipLanes_within (fun a ws => ?_) _ ?_)
  · exact (writePublic_within xk ws a).mono (by simp)
  · rw [draw_words_length, (draw_same P n s).nl]

theorem rstepBody_within (P : Prng) (s : State) :
    Within [.core, .permCount, .cursor, .runSet] s (rstepBody P s) :=
  ((ensureRunning_within P s).mono (by simp)).trans ((stepCores_within P _).mono (by simp))

/-! ### The datapath -/

theorem sboxLayer_within (P : Prng) (r : VReg) (ref : Bool) (s : State) :
    Within (.v :: drawTargets) s (sboxLayer P r ref s) :=
  drawThen_writeGroup_within P _ _ _ _ s

theorem linearHalf_within (s : State) : Within [.v, .rc] s (linearHalf s) := by
  have hw := fun (q : Lane → Quad) (a : Lane) =>
    (writeQuad_within s.order 0 (q a) a).mono (G := [.v, .rc]) (by simp)
  have hl : Within [.v, .rc] s (lboxLayer s) := mapLanes_within (hw _) s
  have hi : Within [.v, .rc] (lboxLayer s) (injectRc (lboxLayer s)) := mapLanes_within (hw _) _
  have ha : ∀ u, Within [.v, .rc] u (advanceRc u) := fun u => { Within.refl _ u with rc := by simp }
  exact hl.trans (hi.trans (ha _))

theorem minitBody_within (s : State) : Within [.v, .tk, .rc, .off, .dpSet] s (minitBody s) := by
  refine { Within.refl _ s with
    rc := by simp, off := by simp, dpSet := by simp, dpKept := fun _ => rfl, lanes := ?_ }
  exact forall₂_map_self (fun a => by constructor <;> simp) _

theorem mkeyBody_within (s : State) : Within [.v, .off] s (mkeyBody s) := by
  refine { Within.refl _ s with off := by simp, lanes := ?_ }
  exact forall₂_map_self (fun a => (writeQuad_within _ _ _ a).mono (by simp)) _

theorem setEarly_within (b : Bool) (s : State) : Within [.early] s (setEarly b s) :=
  { Within.refl _ s with early := by simp }

/-- The rounds of MPERM write no more than MPERM may. -/
theorem mpermRounds_within (P : Prng) (m : ExitMarker) (n r : Nat) (s : State) :
    Within (footprint .mperm) s (mpermRounds P m n r s) := by
  have hs := fun ref u =>
    (sboxLayer_within P 0 ref u).mono (G := footprint .mperm) (by simp [footprint, drawTargets])
  have hl := fun u => (linearHalf_within u).mono (G := footprint .mperm) (by simp [footprint, drawTargets])
  have hk := fun u => (mkeyBody_within u).mono (G := footprint .mperm) (by simp [footprint, drawTargets])
  have he := fun u => (setEarly_within true u).mono (G := footprint .mperm) (by simp [footprint, drawTargets])
  induction n generalizing r s with
  | zero => exact .refl _ s
  | succ n ih =>
    have h2 := (hs true s).trans ((hl _).trans (hs false _))
    unfold mpermRounds
    simp only
    split
    · exact (hs true s).trans (he _)
    · split
      · exact h2.trans (he _)
      · exact h2.trans ((hl _).trans ((hk _).trans (ih _ _)))

/-- The execution of a command writes its footprint only. -/
theorem bodyOf_within (i : Instr) (s : State) : Within (footprint i) s (bodyOf i s) := by
  cases i with
  | nop => exact .refl _ s
  | sadd | spub | smov | slbox => exact mapLanes_within (fun a => writeGroup_within _ _ _ a) s
  | smul | sref | slref | sfresh => exact drawThen_writeGroup_within _ _ _ _ _ s
  | ssbox => exact sboxLayer_within _ _ _ s
  | minit => exact minitBody_within s
  | mhalf =>
    exact ((sboxLayer_within _ _ _ s).mono (by simp [footprint])).trans
      ((linearHalf_within _).mono (by simp [footprint]))
  | mkey => exact mkeyBody_within s
  | mperm =>
    exact ((minitBody_within s).mono (by simp [footprint])).trans
      (((setEarly_within false _).mono (by simp [footprint])).trans (mpermRounds_within _ _ _ _ _))
  | rinit => exact rinitBody_within s
  | rget => exact rgetBody_within _ _ _ s
  | rstep => exact rstepBody_within _ s

/-- A command writes its footprint only, whether it is refused, faults or runs. -/
theorem exec_within {i : Instr} {s t : State} (h : exec i s = .next t) : Within (footprint i) s t := by
  obtain ⟨-, rfl⟩ | ⟨e, -, -, rfl⟩ | ⟨-, -, rfl⟩ := exec_cases h
  · exact .refl _ _
  · have hs := Within.refl (footprint i) s
    exact { hs with }
  · have hb := bodyOf_within i s
    exact { hb with }

/-! ### Who has a register in its footprint -/

/-- The commands that draw (R168, R209, R248, R250). -/
def drawsWords : Instr → Prop
  | .smul _ _ _ | .sref _ _ | .slref _ _ | .sfresh _ | .ssbox _ _ | .mhalf _ | .mperm | .rget _ _ => True
  | _ => False

section
variable {i : Instr}

theorem v_mem_footprint (h : .v ∈ footprint i) :
    i ≠ .nop ∧ i ≠ .rinit ∧ i ≠ .rstep ∧ ∀ xk n, i ≠ .rget xk n := by
  cases i <;> simp_all [footprint, drawTargets]

theorem x_mem_footprint (h : .x ∈ footprint i) : ∃ xk n, i = .rget xk n := by
  cases i <;> simp_all [footprint, drawTargets]

theorem tk_mem_footprint (h : .tk ∈ footprint i) : i = .minit ∨ i = .mperm := by
  cases i <;> simp_all [footprint, drawTargets]

theorem core_mem_footprint (h : .core ∈ footprint i) : drawsWords i ∨ i = .rinit ∨ i = .rstep := by
  cases i <;> simp_all [footprint, drawsWords]

theorem tape_mem_footprint (h : .tape ∈ footprint i) : drawsWords i ∨ i = .rinit := by
  cases i <;> simp_all [footprint, drawsWords]

theorem rc_mem_footprint (h : .rc ∈ footprint i) : i = .minit ∨ i = .mperm ∨ ∃ n, i = .mhalf n := by
  cases i <;> simp_all [footprint, drawTargets]

theorem off_mem_footprint (h : .off ∈ footprint i) : i = .minit ∨ i = .mkey ∨ i = .mperm := by
  cases i <;> simp_all [footprint, drawTargets]

theorem permCount_mem_footprint (h : .permCount ∈ footprint i) : drawsWords i ∨ i = .rstep := by
  cases i <;> simp_all [footprint, drawsWords]

theorem cursor_mem_footprint (h : .cursor ∈ footprint i) : drawsWords i ∨ i = .rinit ∨ i = .rstep := by
  cases i <;> simp_all [footprint, drawsWords]

theorem runSet_mem_footprint (h : .runSet ∈ footprint i) : drawsWords i ∨ i = .rstep := by
  cases i <;> simp_all [footprint, drawsWords]

theorem runClear_mem_footprint (h : .runClear ∈ footprint i) : i = .rinit := by
  cases i <;> simp_all [footprint, drawTargets]

theorem dpSet_mem_footprint (h : .dpSet ∈ footprint i) : i = .minit ∨ i = .mperm := by
  cases i <;> simp_all [footprint, drawTargets]

theorem early_mem_footprint (h : .early ∈ footprint i) : i = .mperm := by
  cases i <;> simp_all [footprint, drawTargets]

end

/-- What no command touches, whether it faults or runs: CFG, CFG_VALID, EXIT, LANESEL, and the host's queue
and the word last returned. -/
structure KeepsControl (s t : State) : Prop where
  cfg : t.cfg = s.cfg
  exit : t.exit = s.exit
  laneSel : t.laneSel = s.laneSel
  port : t.port = s.port
  reply : t.reply = s.reply
  cfgValid : t.status.cfgValid = s.status.cfgValid

theorem exec_keepsControl {i : Instr} {s t : State} (h : exec i s = .next t) : KeepsControl s t := by
  obtain ⟨-, rfl⟩ | ⟨e, -, -, rfl⟩ | ⟨-, -, rfl⟩ := exec_cases h
  · exact ⟨rfl, rfl, rfl, rfl, rfl, rfl⟩
  · exact ⟨rfl, rfl, rfl, rfl, rfl, rfl⟩
  · have hb := (bodyOf_changes i s).shared
    constructor <;> simp only [countCommand_cfg, countCommand_exit, countCommand_laneSel,
      countCommand_port, countCommand_reply, countCommand_status] <;> rw [hb]

/-- A command that writes FAULT, ERR or ERRINFO has taken a fault (R310, R312). -/
theorem exec_fault_of_changed {i : Instr} {s t : State} (h : exec i s = .next t)
    (hc : t.status.fault ≠ s.status.fault ∨ t.status.err ≠ s.status.err ∨ t.errinfo ≠ s.errinfo) :
    s.status.fault = false ∧ ∃ e, expectedFault i s = some e ∧ t = s.withFault e (encode i) := by
  obtain ⟨-, rfl⟩ | ⟨e, hf, he, rfl⟩ | ⟨-, -, rfl⟩ := exec_cases h
  · simp at hc
  · exact ⟨hf, e, he, rfl⟩
  · rw [countCommand_status, countCommand_errinfo, (bodyOf_changes i s).shared] at hc
    simp at hc

/-- Settles O17: each STATUS bit a command changes is in its footprint, and FAULT and ERR change by fault
entry. -/
theorem commandsWriteTheirStatusBitsOnly : Obligations.CommandsWriteTheirStatusBitsOnly := by
  intro i s t h
  have hw := exec_within h
  refine ⟨(exec_keepsControl h).cfgValid, fun hne => ?_, fun hne => ?_, fun hne => ?_, fun hne => ?_⟩
  · by_cases ht : t.status.prngRun = true
    · have hm : .runSet ∈ footprint i := by
        by_contra hF
        exact hne (ht.trans (hw.runSet hF ht).symm)
      rw [if_pos ht]
      obtain hd | rfl := runSet_mem_footprint hm
      · cases i with
        | rstep => trivial
        | _ => exact hd
      · trivial
    · have hs : s.status.prngRun = true := by
        by_contra hs
        rw [Bool.not_eq_true] at ht hs
        exact hne (ht.trans hs.symm)
      rw [if_neg ht]
      exact runClear_mem_footprint (not_imp_comm.mp (hw.runClear · hs) ht)
  · have hs : s.status.dpInit = false := by
      by_contra hs
      rw [Bool.not_eq_false] at hs
      exact hne ((hw.dpKept hs).trans hs.symm)
    have ht : t.status.dpInit = true := by simpa [hs] using hne
    exact ⟨ht, dpSet_mem_footprint (not_imp_comm.mp (hw.dpSet · ht) (by simp [hs]))⟩
  · exact early_mem_footprint (not_imp_comm.mp hw.early hne)
  · exact exec_fault_of_changed h (hne.imp_right .inl)

/-- Settles O18: each register a command changes is in its footprint. -/
theorem registersHaveTheirWritersOnly : Obligations.RegistersHaveTheirWritersOnly := by
  intro i s t h draws
  have hd : drawsWords i → draws := by cases i <;> exact id
  have hw := exec_within h
  have hk := exec_keepsControl h
  refine ⟨hk.cfg, hk.exit, hk.laneSel, hk.port, hk.reply, fun hne => ?_, fun hne => ?_, fun hne => ?_,
    fun hne => ?_, fun hne => ?_, hw.lanes.imp fun a b hab => ⟨hab.seed, fun hne => ?_, fun hne => ?_,
      fun hne => ?_, fun hne => ?_, fun hne => ?_⟩⟩
  · obtain ⟨-, e, he, -⟩ := exec_fault_of_changed h (.inr (.inr hne))
    simp [he]
  · exact rc_mem_footprint (not_imp_comm.mp hw.rc hne)
  · exact off_mem_footprint (not_imp_comm.mp hw.off hne)
  · exact (permCount_mem_footprint (not_imp_comm.mp hw.permCount hne)).imp_left hd
  · exact (cursor_mem_footprint (not_imp_comm.mp hw.cursor hne)).imp_left hd
  · exact x_mem_footprint (not_imp_comm.mp hab.x hne)
  · exact tk_mem_footprint (not_imp_comm.mp hab.tk hne)
  · exact (tape_mem_footprint (not_imp_comm.mp hab.tape hne)).imp_left hd
  · exact (core_mem_footprint (not_imp_comm.mp hab.core hne)).imp_left hd
  · exact v_mem_footprint (not_imp_comm.mp hab.v hne)

/-! ## What reset leaves (R55) -/

theorem lane_of_mem_resetOf {nl : Nat} {lane : Lane} (h : lane ∈ (resetOf nl).lanes) :
    lane = resetLane :=
  List.eq_of_mem_replicate h

/-- A banked word that is 0 in a reset lane reads 0 in every lane the window can show. -/
theorem windowWord_resetOf (nl : Nat) {f : Lane → Word} (hf : f resetLane = 0) :
    (resetOf nl).windowWord f = 0 := by
  unfold State.windowWord
  split
  · next lane hl => rw [lane_of_mem_resetOf (List.mem_of_getElem? hl), hf]
  · rfl

/-- ID carries NL in its low byte (R47). -/
theorem idWord_of_range {nl : Nat} (h1 : 1 ≤ nl) (h16 : nl ≤ 16) :
    idWord nl = BitVec.ofNat 32 (0x07106800 + nl) := by
  interval_cases nl <;> decide

/-- Every register but ID reads 0 after reset. -/
theorem portValue_resetOf (nl : Nat) {r : PortReg} (hr : r ≠ .id) : portValue r (resetOf nl) = 0 := by
  cases r with
  | id => exact absurd rfl hr
  | cfg => exact (by decide : (resetOf 1).cfg.word = 0)
  | status => exact (by decide : (resetOf 1).status.word = 0)
  | exit => exact (by decide : (resetOf 1).exit.word = 0)
  | cmd | errinfo | cmdCount | permCount | rc | off | cursor | laneSel => rfl
  | v r i => simp [portValue, State.order, resetOf]
  | x | seed | core | tape | tk => exact windowWord_resetOf nl (by simp [resetLane])

/-- Settles O7: every lane of the reset block is the reset lane, and every register it defines is 0. -/
theorem resetZeroesEveryRegister : Obligations.ResetZeroesEveryRegister := by
  have hnl : State.reset.nl = Config.nl := resetOf_nl _
  obtain ⟨h1, h16⟩ := Config_nl_range
  refine ⟨by rw [hnl]; exact ⟨h1, h16⟩, fun lane hl => ?_, fun r => portValue_resetOf _, ?_, rfl, rfl⟩
  · rw [lane_of_mem_resetOf hl]
    simp [resetLane]
  · rw [hnl]
    exact (congrArg idWord hnl).trans (idWord_of_range h1 h16)

/-! ## The invariant -/

/-- A block of 1..16 lanes meets the invariant at reset (R4, R55). -/
theorem resetOf_inv {nl : Nat} (h1 : 1 ≤ nl) (h16 : nl ≤ 16) : (resetOf nl).Inv where
  lanes := by rw [resetOf_nl]; exact ⟨h1, h16⟩
  laneSel := by rw [resetOf_nl]; exact h1
  cursor := Nat.zero_le _
  uninit _ := ⟨rfl, fun lane hl => by rw [lane_of_mem_resetOf hl]; exact ⟨rfl, rfl⟩⟩
  unconfigured _ := ⟨rfl, rfl, rfl⟩
  configured := nofun
  shares lane hl r i _ := by rw [lane_of_mem_resetOf hl]; simp [resetLane]
  off := by simp [resetOf, scheduleValues]
  rc := Nat.zero_lt_succ _
  noDp _ := ⟨rfl, rfl, rfl, fun lane hl => by rw [lane_of_mem_resetOf hl]; rfl⟩
  noFault _ := ⟨rfl, rfl⟩
  faulted := nofun

/-- Settles O9: NL is one of 1..16, and any such block meets the invariant at reset. -/
theorem resetMeetsInvariant : Obligations.ResetMeetsInvariant :=
  resetOf_inv Config_nl_range.1 Config_nl_range.2

/-! ### Changes of the lanes -/

/-- What the invariant of block `s` asks a lane to keep: words D..7 of every V register, CORE and TAPE in
UNINIT mode, TK before MINIT or MPERM. -/
structure LaneKeeps (s : State) (a b : Lane) : Prop where
  shares : ∀ (r : VReg) (i : Fin 8), s.order ≤ i.val → b.v[r][i] = a.v[r][i]
  prng : s.status.prngRun = false → b.core = a.core ∧ b.tape = a.tape
  tk : s.status.dpInit = false → b.tk = a.tk

/-- A change of V alone, in words below D. -/
theorem LaneKeeps.of_v {s : State} {a b : Lane} (hb : LaneWithin [.v] a b)
    (hv : ∀ (r : VReg) (i : Fin 8), s.order ≤ i.val → b.v[r][i] = a.v[r][i]) : LaneKeeps s a b :=
  ⟨hv, fun _ => ⟨hb.core (by simp), hb.tape (by simp)⟩, fun _ => hb.tk (by simp)⟩

theorem LaneKeeps.refl (s : State) (a : Lane) : LaneKeeps s a a :=
  .of_v (.refl _ a) fun _ _ _ => rfl

theorem LaneKeeps.trans {s : State} {a b c : Lane} (h : LaneKeeps s a b) (k : LaneKeeps s b c) :
    LaneKeeps s a c where
  shares r i hi := (k.shares r i hi).trans (h.shares r i hi)
  prng hr := ⟨(k.prng hr).1.trans (h.prng hr).1, (k.prng hr).2.trans (h.prng hr).2⟩
  tk hd := (k.tk hd).trans (h.tk hd)

/-- A group write leaves words D..7 alone (R160(b)). -/
theorem writeGroup_keeps (s : State) (base : Nat) (new : List ShareVec) (a : Lane) :
    LaneKeeps s a (a.writeGroup s.order base new) :=
  .of_v (writeGroup_within _ _ _ a) fun r i hi => by
    rw [writeGroup_wrote _ _ _ a r i, if_neg (by omega)]

/-- The lanes of a block may change as `LaneKeeps` says. -/
theorem State.Inv.with_lanes {s : State} (h : s.Inv) {ls : List Lane}
    (hl : List.Forall₂ (LaneKeeps s) s.lanes ls) : State.Inv { s with lanes := ls } where
  lanes := by
    have hn : ls.length = s.nl := hl.length_eq.symm
    change 1 ≤ ls.length ∧ ls.length ≤ 16
    rw [hn]
    exact h.lanes
  laneSel := h.laneSel.trans_eq hl.length_eq
  cursor := h.cursor
  uninit hr := by
    obtain ⟨hc, hz⟩ := h.uninit hr
    refine ⟨hc, fun b hb => ?_⟩
    obtain ⟨a, ha, hab⟩ := exists_of_forall₂_mem hl hb
    rw [(hab.prng hr).1, (hab.prng hr).2]
    exact hz a ha
  unconfigured := h.unconfigured
  configured := h.configured
  shares b hb r i hi := by
    obtain ⟨a, ha, hab⟩ := exists_of_forall₂_mem hl hb
    rw [hab.shares r i hi]
    exact h.shares a ha r i hi
  off := h.off
  rc := h.rc
  noDp hd := by
    obtain ⟨he, hrc, hoff, htk⟩ := h.noDp hd
    refine ⟨he, hrc, hoff, fun b hb => ?_⟩
    obtain ⟨a, ha, hab⟩ := exists_of_forall₂_mem hl hb
    rw [hab.tk hd]
    exact htk a ha
  noFault := h.noFault
  faulted := h.faulted

theorem mapLanes_inv {s : State} (h : s.Inv) {f : Lane → Lane} (hf : ∀ a, LaneKeeps s a (f a)) :
    (s.mapLanes f).Inv :=
  h.with_lanes (forall₂_map_self hf _)

theorem zipLanes_inv {s : State} (h : s.Inv) {f : Lane → List Word → Lane}
    (hf : ∀ a ws, LaneKeeps s a (f a ws)) {ws : List (List Word)} (hl : ws.length = s.nl) :
    (s.zipLanes f ws).Inv :=
  h.with_lanes (forall₂_zipWith_self hf hl)

theorem windowWrite_inv {s : State} (h : s.Inv) {f : Lane → Lane} (hf : ∀ a, LaneKeeps s a (f a)) :
    (s.windowWrite f).Inv :=
  h.with_lanes (forall₂_modify_self (LaneKeeps.refl s) hf _ _)

/-! ### The PRNG -/

/-- The invariant on a configured block: where a command other than NOP runs (R303). -/
structure State.InvConfigured (s : State) : Prop where
  inv : s.Inv
  cfgValid : s.status.cfgValid = true

/-- A command leaves the block configured. -/
theorem State.InvConfigured.of_body {s t : State} (h : s.InvConfigured) (hb : BodyChanges s t)
    (ht : t.Inv) : t.InvConfigured :=
  ⟨ht, hb.keepsConfig.cfgValid h.cfgValid⟩

/-- A configured block may change its PRNG state to any that runs with CURSOR in 0..16. -/
theorem State.InvConfigured.of_prng {s t : State} (h : s.InvConfigured) (ht : SameButPrng s t)
    (hr : t.status.prngRun = true) (hc : t.cursor.toNat ≤ 16) : t.Inv := by
  have hu : State.Inv { s with
      cursor := t.cursor, permCount := t.permCount, status := { s.status with prngRun := true } } :=
    { h.inv with
      cursor := hc
      uninit := nofun
      unconfigured := fun hv => absurd (h.cfgValid.symm.trans hv) (by decide) }
  rw [ht.shared, hr]
  refine hu.with_lanes (ht.lanes.imp fun a b hab => ?_)
  rw [hab]
  exact ⟨fun _ _ _ => rfl, nofun, fun _ => rfl⟩

/-- The cursor of the tape a draw reads is `c0` of R209. -/
theorem readyTape_cursor_eq (P : Prng) (s : State) :
    (readyTape P s).cursor.toNat = cursorAfterRefill s := by
  unfold readyTape cursorAfterRefill
  cases hr : s.status.prngRun with
  | false =>
    rw [ensureRunning_of_uninit P hr, refillAtEnd_of_end P (by simp)]
    simp
  | true =>
    rw [ensureRunning_of_run P hr]
    by_cases hc : s.cursor.toNat < 16
    · simp [refillAtEnd_of_left P hc, hc]
    · simp [refillAtEnd_of_end P (Nat.not_lt.mp hc), hc]

theorem cursorAfterRefill_lt (s : State) : cursorAfterRefill s < 16 :=
  readyTape_cursor_eq Config.prng s ▸ readyTape_cursor Config.prng s

/-- A draw that the tape has words for moves CURSOR no further than 16 (R37, R209). -/
theorem draw_cursor_le (P : Prng) {n : Nat} {s : State} (hn : cursorAfterRefill s + n ≤ 16) :
    (draw P n s).1.cursor.toNat ≤ 16 := by
  change ((readyTape P s).cursor + BitVec.ofNat 5 n).toNat ≤ 16
  rw [BitVec.toNat_add, readyTape_cursor_eq, BitVec.toNat_ofNat]
  omega

theorem draw_invConfigured {s : State} (h : s.InvConfigured) (P : Prng) {n : Nat}
    (hn : cursorAfterRefill s + n ≤ 16) : (draw P n s).1.InvConfigured :=
  h.of_body (draw_same P n s).body
    (h.of_prng (draw_same P n s) (readyTape_run P s) (draw_cursor_le P hn))

theorem drawWords_invConfigured {s : State} (h : s.InvConfigured) (P : Prng) (k : Nat) :
    (drawWords P k s).1.InvConfigured := by
  induction k generalizing s with
  | zero => exact h
  | succ k ih => exact ih (draw_invConfigured h P (cursorAfterRefill_lt s))

/-- A command that draws and then writes one group of share-vectors. -/
theorem drawThen_writeGroup_inv {s : State} (h : s.InvConfigured) (P : Prng)
    (k base : Nat) (new : Lane → List Word → List ShareVec) :
    (drawThen P k (fun lane ws => lane.writeGroup s.order base (new lane ws)) s).Inv := by
  have hs := drawWords_same P k s
  rw [← hs.order]
  exact zipLanes_inv (drawWords_invConfigured h P k).inv (fun a ws => writeGroup_keeps _ base _ a)
    (by rw [drawWords_length, hs.nl])

theorem ensureRunning_cursor_le (P : Prng) {s : State} (hc : s.cursor.toNat ≤ 16) :
    (ensureRunning P s).cursor.toNat ≤ 16 := by
  cases hr : s.status.prngRun with
  | false => simp [ensureRunning_of_uninit P hr]
  | true => rwa [ensureRunning_of_run P hr]

theorem rstepBody_inv {s : State} (h : s.InvConfigured) (P : Prng) :
    (rstepBody P s).Inv :=
  h.of_prng ((ensureRunning_same P s).trans (stepCores_same P _)) (ensureRunning_run P s)
    (ensureRunning_cursor_le P h.inv.cursor)

theorem rgetBody_inv {s : State} (h : s.InvConfigured) (P : Prng) (xk : XReg) {n : Nat}
    (hn : cursorAfterRefill s + n ≤ 16) : (rgetBody P xk n s).Inv := by
  rw [rgetBody_eq]
  refine zipLanes_inv (draw_invConfigured h P hn).inv (fun a ws => ?_)
    (by rw [draw_words_length, (draw_same P n s).nl])
  exact ⟨fun _ _ _ => by simp, fun _ => by simp, fun _ => by simp⟩

/-- RINIT leaves CORE, TAPE and CURSOR as the UNINIT mode asks (R208). -/
theorem rinitBody_inv {s : State} (h : s.Inv) : (rinitBody s).Inv where
  lanes := by simpa [rinitBody, State.nl] using h.lanes
  laneSel := by simpa [rinitBody, State.nl] using h.laneSel
  cursor := Nat.zero_le _
  uninit _ := ⟨rfl, fun lane hl => by
    obtain ⟨a, -, rfl⟩ := List.mem_map.mp hl
    exact ⟨rfl, rfl⟩⟩
  unconfigured hv := by
    obtain ⟨hc, -, hd⟩ := h.unconfigured hv
    exact ⟨hc, rfl, hd⟩
  configured := h.configured
  shares lane hl r i hi := by
    obtain ⟨a, ha, rfl⟩ := List.mem_map.mp hl
    exact h.shares a ha r i hi
  off := h.off
  rc := h.rc
  noDp hd := by
    obtain ⟨he, hrc, hoff, htk⟩ := h.noDp hd
    refine ⟨he, hrc, hoff, fun lane hl => ?_⟩
    obtain ⟨a, ha, rfl⟩ := List.mem_map.mp hl
    exact htk a ha
  noFault := h.noFault
  faulted := h.faulted

/-! ### The datapath -/

/-- The LFSR stays in 4 bits (R241). -/
theorem lfsrNext_lt {x : BitVec 8} (h : x.toNat < 16) : (lfsrNext x).toNat < 16 := by
  have hx : x = BitVec.ofNat 8 x.toNat := by simp
  rw [hx]
  generalize x.toNat = n at h
  interval_cases n <;> decide

/-- A schedule value shifted right by two is a schedule value (R249). -/
theorem scheduleValues_shift {w : Word} (h : w ∈ scheduleValues) : w >>> 2 ∈ scheduleValues := by
  simp only [scheduleValues, List.mem_cons, List.not_mem_nil, or_false] at h
  obtain rfl | rfl | rfl | rfl | rfl | rfl | rfl := h <;> decide

theorem advanceRc_inv {s : State} (h : s.Inv) : (advanceRc s).Inv :=
  { h with
    rc := lfsrNext_lt h.rc
    noDp := fun hd => by
      obtain ⟨he, hrc, hoff, htk⟩ := h.noDp hd
      exact ⟨he, by simp [hrc, lfsrNext], hoff, htk⟩ }

theorem linearHalf_inv {s : State} (h : s.Inv) : (linearHalf s).Inv := by
  have hl : (lboxLayer s).Inv := mapLanes_inv h fun a => writeGroup_keeps s 0 _ a
  have hi : (injectRc (lboxLayer s)).Inv := mapLanes_inv hl fun a => writeGroup_keeps _ 0 _ a
  exact advanceRc_inv hi

theorem mkeyBody_inv {s : State} (h : s.Inv) : (mkeyBody s).Inv := by
  have hu : State.Inv { s with off := s.off >>> 2 } :=
    { h with
      off := scheduleValues_shift h.off
      noDp := fun hd => by
        obtain ⟨he, hrc, hoff, htk⟩ := h.noDp hd
        exact ⟨he, hrc, by simp [hoff], htk⟩ }
  exact hu.with_lanes (forall₂_map_self (fun a => writeGroup_keeps _ 0 _ a) _)

theorem minitBody_inv {s : State} (h : s.InvConfigured) : (minitBody s).Inv := by
  have hu : State.Inv { s with
      rc := 0x08, off := 0x924, status := { s.status with dpInit := true } } :=
    { h.inv with
      unconfigured := fun hv => absurd (h.cfgValid.symm.trans hv) (by decide)
      off := by simp [scheduleValues]
      rc := by simp
      noDp := nofun }
  refine hu.with_lanes (forall₂_map_self (fun a => ?_) _)
  exact .trans (b := { a with tk := tweakExpand a.x[4] a.x[5] a.x[6] a.x[7] })
    ⟨fun _ _ _ => rfl, fun _ => ⟨rfl, rfl⟩, nofun⟩ (writeGroup_keeps _ 0 _ _)

/-- EARLY may change once MINIT or MPERM has run. -/
theorem setEarly_inv {s : State} (h : s.Inv) (hd : s.status.dpInit = true) (b : Bool) :
    (setEarly b s).Inv :=
  { h with noDp := fun hd' => absurd (hd.symm.trans hd') (by decide) }

theorem sboxLayer_invConfigured {s : State} (h : s.InvConfigured) (P : Prng) (r : VReg)
    (ref : Bool) : (sboxLayer P r ref s).InvConfigured :=
  h.of_body (sboxLayer_body P r ref s) (drawThen_writeGroup_inv h P _ _ _)

theorem linearHalf_invConfigured {s : State} (h : s.InvConfigured) : (linearHalf s).InvConfigured :=
  h.of_body (linearHalf_body s) (linearHalf_inv h.inv)

theorem mkeyBody_invConfigured {s : State} (h : s.InvConfigured) : (mkeyBody s).InvConfigured :=
  h.of_body (mkeyBody_body s) (mkeyBody_inv h.inv)

theorem mpermRounds_inv {s : State} (h : s.InvConfigured)
    (hd : s.status.dpInit = true) (P : Prng) (m : ExitMarker) (n r : Nat) :
    (mpermRounds P m n r s).Inv := by
  induction n generalizing r s with
  | zero => exact h.inv
  | succ n ih =>
    have h1 := sboxLayer_invConfigured h P 0 true
    have d1 := (sboxLayer_within P 0 true s).dpKept hd
    have h2 := sboxLayer_invConfigured (linearHalf_invConfigured h1) P 0 false
    have d2 := (sboxLayer_within P 0 false _).dpKept ((linearHalf_within _).dpKept d1)
    unfold mpermRounds
    simp only
    split
    · exact setEarly_inv h1.inv d1 true
    · split
      · exact setEarly_inv h2.inv d2 true
      · exact ih (mkeyBody_invConfigured (linearHalf_invConfigured h2))
          ((mkeyBody_within _).dpKept ((linearHalf_within _).dpKept d2)) _

theorem mpermBody_inv {s : State} (h : s.InvConfigured) (P : Prng) :
    (mpermBody P s).Inv := by
  have hm := h.of_body (minitBody_body s) (minitBody_inv h)
  have he := hm.of_body (setEarly_body false _) (setEarly_inv hm.inv rfl false)
  exact mpermRounds_inv he rfl P _ _ _

/-! ### Commands -/

/-- Every command but NOP is refused with E_NOCFG before configuration (R303). -/
theorem cfgValid_of_pass {i : Instr} {s : State} (hp : expectedFault i s = none) (hi : i ≠ .nop) :
    s.status.cfgValid = true := by
  rw [← firstFault_eq_expected, firstFault_eq_none] at hp
  obtain ⟨-, hc, -⟩ := hp
  refine hc ?_
  cases i with
  | nop => exact absurd rfl hi
  | _ => rfl

/-- An RGET that passes its checks finds its words on the tape (R209). -/
theorem tape_of_pass {xk : XReg} {n : Imm} {s : State} (hp : expectedFault (.rget xk n) s = none) :
    cursorAfterRefill s + n.val ≤ 16 := by
  rw [← firstFault_eq_expected, firstFault_eq_none] at hp
  obtain ⟨-, -, -, -, -, ht⟩ := hp
  simpa [checksOf] using ht

/-- The execution of a command that passed its checks keeps the invariant. -/
theorem bodyOf_inv {i : Instr} {s : State} (h : s.Inv) (hp : expectedFault i s = none) :
    (bodyOf i s).Inv := by
  by_cases hi : i = .nop
  · subst hi
    exact h
  have hc : s.InvConfigured := ⟨h, cfgValid_of_pass hp hi⟩
  cases i with
  | nop => exact h
  | sadd | spub | smov | slbox => exact mapLanes_inv h fun a => writeGroup_keeps s _ _ a
  | smul | sref | slref | sfresh => exact drawThen_writeGroup_inv hc _ _ _ _
  | ssbox => exact (sboxLayer_invConfigured hc _ _ _).inv
  | minit => exact minitBody_inv hc
  | mhalf => exact linearHalf_inv (sboxLayer_invConfigured hc _ _ _).inv
  | mkey => exact mkeyBody_inv h
  | mperm => exact mpermBody_inv hc _
  | rinit => exact rinitBody_inv h
  | rget => exact rgetBody_inv hc _ _ (tape_of_pass hp)
  | rstep => exact rstepBody_inv hc _

/-- Fault entry names its fault (R310). -/
theorem withFault_inv {s : State} (h : s.Inv) {code : ErrCode} (hc : code ≠ .none) (info : Word) :
    (s.withFault code info).Inv :=
  { h with
    noFault := nofun
    faulted := fun _ => hc }

theorem raiseFault_inv {s : State} (h : s.Inv) {code : ErrCode} (hc : code ≠ .none) (info : Word) :
    (raiseFault code info s).Inv := by
  cases hf : s.status.fault with
  | true => rwa [raiseFault_of_faulted hf]
  | false => rw [raiseFault_of_ok hf]; exact withFault_inv h hc info

theorem expectedFault_ne_none {i : Instr} {s : State} {e : ErrCode} (h : expectedFault i s = some e) :
    e ≠ .none :=
  firstFault_ne_none ((firstFault_eq_expected i s).trans h)

theorem exec_inv {i : Instr} {s t : State} (h : s.Inv) (he : exec i s = .next t) : t.Inv := by
  obtain ⟨-, rfl⟩ | ⟨e, -, hf, rfl⟩ | ⟨-, hp, rfl⟩ := exec_cases he
  · exact h
  · exact withFault_inv h (expectedFault_ne_none hf) _
  · have hb := bodyOf_inv h hp
    exact { hb with }

/-! ### The host's accesses -/

/-- The host's queue and the word last returned are no part of the invariant. -/
theorem State.Inv.host {s : State} (h : s.Inv) (port : List Access) (reply : Option Word) :
    State.Inv { s with port := port, reply := reply } :=
  { h with }

/-- Before configuration D is 0 (R40). -/
theorem State.Inv.order_of_unconfigured {s : State} (h : s.Inv) (hv : s.status.cfgValid = false) :
    s.order = 0 := by
  obtain ⟨hc, -, -⟩ := h.unconfigured hv
  simp [State.order, hc]

/-- An accepted configuration: every V word is still 0 then, so words D..7 are for every new D. -/
theorem State.Inv.configure {s : State} (h : s.Inv) (hv : s.status.cfgValid = false) {c : Cfg}
    (hd : 2 ≤ c.d.toNat ∧ c.d.toNat ≤ 8) (hr : 1 ≤ c.rnd.toNat ∧ c.rnd.toNat ≤ 6) :
    State.Inv { s with cfg := c, status := { s.status with cfgValid := true } } :=
  { h with
    unconfigured := nofun
    configured := fun _ => ⟨hd, hr⟩
    shares := fun lane hl r i _ =>
      h.shares lane hl r i ((h.order_of_unconfigured hv).trans_le (Nat.zero_le _)) }

/-- The round count an accepted CFG write stores is in 1..6 (R40, R301). -/
theorem storedRounds_range {rnd : BitVec 4} (h : ¬ 6 < rnd.toNat) :
    1 ≤ (if rnd = 0 then 6 else rnd).toNat ∧ (if rnd = 0 then 6 else rnd).toNat ≤ 6 := by
  split
  · decide
  · next h0 =>
    have : rnd.toNat ≠ 0 := fun e => h0 (BitVec.eq_of_toNat_eq e)
    omega

theorem cfgWrite_inv {s : State} (h : s.Inv) (w : Word) : (cfgWrite w s).Inv := by
  unfold cfgWrite
  simp only
  split
  · exact raiseFault_inv h (by decide) w
  next hv =>
  split
  · exact raiseFault_inv h (by decide) w
  next hd =>
  split
  · exact raiseFault_inv h (by decide) w
  next hr =>
  have hrange : 2 ≤ (w.extractLsb' 0 4).toNat ∧ (w.extractLsb' 0 4).toNat ≤ 8 := by omega
  exact h.configure (by simpa using hv) hrange (storedRounds_range hr)

theorem laneSelWrite_inv {s : State} (h : s.Inv) (w : Word) : (laneSelWrite w s).Inv := by
  unfold laneSelWrite
  simp only
  split
  · exact raiseFault_inv h (by decide) w
  · next hl => exact { h with laneSel := Nat.not_le.mp hl }

theorem hostWriteV_inv {s : State} (h : s.Inv) (r : VReg) (i : Fin 8) (w : Word) :
    (hostWriteV r i w s).Inv := by
  by_cases hi : i.val < s.order
  · rw [hostWriteV_word hi]
    refine windowWrite_inv h fun a => ⟨fun p j hj => ?_, fun _ => ⟨rfl, rfl⟩, fun _ => rfl⟩
    have hne : ¬ (p = r ∧ j = i) := by
      rintro ⟨-, rfl⟩
      omega
    exact (setWord_v a.v r i w p j).trans (if_neg hne)
  · rwa [hostWriteV_past (Nat.not_lt.mp hi)]

theorem portFault_inv {s : State} (h : s.Inv) (addr : BitVec 12) : (portFault addr s).Inv :=
  raiseFault_inv h (by decide) _

theorem issue_inv {w : Word} {s t : State} (h : s.Inv) (hi : issue w s = .next t) : t.Inv := by
  unfold issue at hi
  split at hi
  · cases hi; exact h
  · split at hi
    · cases hi; exact raiseFault_inv h (by decide) w
    · exact exec_inv h hi

theorem writeReg_inv {addr : BitVec 12} {r : PortReg} {w : Word} {s t : State} (h : s.Inv)
    (hw : writeReg addr r w s = .next t) : t.Inv := by
  cases r with
  | cmd => exact issue_inv h hw
  | cfg => cases hw; exact cfgWrite_inv h w
  | exit => cases hw; exact { h with }
  | laneSel => cases hw; exact laneSelWrite_inv h w
  | v r i => cases hw; exact hostWriteV_inv h r i w
  | x | seed =>
    cases hw
    exact windowWrite_inv h fun a => ⟨fun _ _ _ => rfl, fun _ => ⟨rfl, rfl⟩, fun _ => rfl⟩
  | id | status | errinfo | cmdCount | permCount | rc | off | cursor | core | tape | tk =>
    cases hw; exact portFault_inv h addr

theorem portRead_inv {s : State} (h : s.Inv) (addr : BitVec 12) (bits : Nat) :
    (portRead addr bits s).Inv := by
  unfold portRead
  split
  · exact h.host _ _
  · exact (portFault_inv h addr).host _ _

theorem portWrite_inv {addr : BitVec 12} {bits : Nat} {w : Word} {s t : State} (h : s.Inv)
    (hw : portWrite addr bits w s = .next t) : t.Inv := by
  unfold portWrite at hw
  split at hw
  · cases hw; exact h
  · split at hw
    · cases hw; exact portFault_inv h addr
    · exact writeReg_inv h hw

theorem portWriteV_inv {s : State} (h : s.Inv) (r : VReg) (i : Fin 8) (w : Word) :
    (portWriteV r i w s).Inv := by
  unfold portWriteV
  split
  · exact h
  · exact hostWriteV_inv h r i w

theorem performAccess_inv {a : Access} {s t : State} (h : s.Inv) (hs : performAccess a s = .next t) :
    t.Inv := by
  cases a with
  | read addr bits => cases hs; exact portRead_inv h addr bits
  | write addr bits w => exact portWrite_inv (h.host s.port none) hs
  | readV r i => cases hs; exact h.host _ _
  | writeV r i w => cases hs; exact portWriteV_inv (h.host s.port none) r i w
  | reset => cases hs; exact (resetOf_inv h.lanes.1 h.lanes.2).host s.port none

/-- Settles O10: whatever access the host makes next, the registers it writes stay in the invariant. -/
theorem stepKeepsInvariant : Obligations.StepKeepsInvariant := by
  intro s t h hs
  cases hp : s.port with
  | nil => rw [step_idle hp] at hs; cases hs; exact h
  | cons a rest => rw [step_access hp] at hs; exact performAccess_inv (h.host rest s.reply) hs

/-! ## The host's access to LANESEL and to V by name -/

/-- Settles O23: address 0x02C is LANESEL, and the lane the write names is the low four bits. -/
theorem laneSelectWrite : Obligations.LaneSelectWrite := by
  intro s w rest hp hf u
  have hl : (w.extractLsb' 0 4).toNat = w.toNat % 16 := by simp [BitVec.extractLsb'_toNat]
  have hstep : step s = .next (laneSelWrite w u) := by
    rw [step_access hp]
    exact portWrite_of_reg (addr := 0x02C) (r := .laneSel) (by decide) (by decide) (s := u) hf w
  refine ⟨fun hge => ?_, fun hlt => ?_⟩
  · have hge : u.nl ≤ (w.extractLsb' 0 4).toNat := hge.trans_eq hl.symm
    rw [hstep, laneSelWrite, if_pos hge, raiseFault_of_ok (s := u) hf]
    rfl
  · have hlt : ¬ u.nl ≤ (w.extractLsb' 0 4).toNat := Nat.not_le.mpr (hl.trans_lt hlt)
    rw [hstep, laneSelWrite, if_neg hlt, ← hl, BitVec.ofNat_toNat, BitVec.setWidth_eq]

/-- R82's address of word i of V[r], where the window reaches it. -/
theorem portRegAt_v {a : BitVec 12} {r : VReg} {i : Fin 8}
    (ha : a.toNat = 0x100 + 32 * r.val + 4 * i.val) (hw : a.toNat ≤ 0x1FF) :
    portRegAt a = some (.v r i) := by
  have hr : (a.toNat - 0x100) / 32 = r.val := by omega
  have hi : (a.toNat - 0x100) / 4 % 8 = i.val := by omega
  simp only [portRegAt]
  rw [if_neg (by omega), if_neg (by omega), if_pos (by omega), hr, hi, Fin.ofNat_val_eq_self,
    Fin.ofNat_val_eq_self]

/-- The write of a V word by name is the write at the word's address, on a faulted block too. -/
theorem portWrite_v_address {a : BitVec 12} {r : VReg} {i : Fin 8}
    (ha : a.toNat = 0x100 + 32 * r.val + 4 * i.val) (hw : a.toNat ≤ 0x1FF) (w : Word) (s : State) :
    portWrite a 32 w s = .next (portWriteV r i w s) := by
  unfold portWriteV
  cases hf : s.status.fault with
  | true => rw [portWrite_faulted hf, if_pos rfl]
  | false =>
    rw [portWrite_of_reg (by omega) (portRegAt_v ha hw) hf, if_neg Bool.false_ne_true]
    rfl

/-- A host write of word i < D of V changes that word in lane LANESEL and nothing else (R83, R85). -/
theorem hostWriteV_changes {r : VReg} {i : Fin 8} {s : State} (hi : i.val < s.order) (w : Word)
    {l : Nat} {a b : Lane} (ha : s.lanes[l]? = some a) (hb : (hostWriteV r i w s).lanes[l]? = some b) :
    if l = s.laneSel.toNat then
      b = { a with v := b.v } ∧
        ∀ (p : VReg) (j : Fin 8), b.v[p][j] = if p = r ∧ j = i then w else a.v[p][j]
    else b = a := by
  rw [hostWriteV_word hi, windowWrite_lane, ha] at hb
  split
  · next hl =>
    rw [if_pos hl] at hb
    cases hb
    exact ⟨rfl, setWord_v a.v r i w⟩
  · next hl =>
    rw [if_neg hl] at hb
    cases hb
    rfl

/-- Settles O60: the accesses by name are `portReadV` and `portWriteV`, and those are the accesses at the
word's address. -/
theorem everyVWordIsHostReadableAndWritable : Obligations.EveryVWordIsHostReadableAndWritable := by
  intro s r i rest
  refine ⟨fun hp => ?_, ?_, fun a ha hw => ⟨?_, fun w => (portWrite_v_address ha hw w _).symm⟩⟩
  · refine ⟨portValue (.v r i) s, by rw [step_access hp]; rfl, fun hi => if_neg (Nat.not_lt.mpr hi), ?_⟩
    intro lane hi hl
    exact (if_pos hi).trans (windowWord_of_lane hl _)
  · intro w hp u
    have hstep : step s = .next (portWriteV r i w u) := by rw [step_access hp]; rfl
    refine ⟨fun h => ?_, fun hf hi => ⟨hostWriteV r i w u, ?_, hostWriteV_frame r i w u, ?_, ?_⟩⟩
    · rw [hstep, portWriteV]
      split
      · rfl
      · next hf => rw [hostWriteV_past (s := u) (h.resolve_left hf)]
    · rw [hstep, portWriteV, if_neg (by simp [u, hf])]
    · exact (hostWriteV_keepsConfig r i w u).nl
    · exact fun l a b ha hb => hostWriteV_changes (s := u) hi w ha hb
  · exact congrArg Host.Outcome.next (portRead_of_reg (by omega) (portRegAt_v ha hw) _).symm

end Sys2Proof.Machine

/-! Proofs about the host port (spec/20_memory.md): the address map (R82), what a read returns (R84), the
accesses the port refuses (R81, R87), the host's writes (R85, R86) and the byte order of a word (R89). -/

namespace Sys2Proof.Machine

/-! ## Words by their bits -/

/-- The field of `m` bits from bit `k` up, by division (R8). -/
theorem extractLsb'_eq_div {n : Nat} (w : BitVec n) (k m : Nat) :
    w.extractLsb' k m = BitVec.ofNat m (w.toNat / 2 ^ k) := by
  rw [BitVec.extractLsb', Nat.shiftRight_eq_div_pow]

/-- One bit of a word, by division. -/
theorem getLsbD_eq_div {n : Nat} (w : BitVec n) (k : Nat) :
    w.getLsbD k = decide (w.toNat / 2 ^ k % 2 = 1) :=
  Nat.testBit_eq_decide_div_mod_eq

/-- Settles O4: a byte is an 8-bit field, and the four bytes put together again are the word. -/
theorem serialisedWordsAreLittleEndian : Obligations.SerialisedWordsAreLittleEndian := by
  intro w rest
  refine ⟨fun k hk => ?_, fun i hi => ?_⟩
  · rw [← extractLsb'_eq_div]
    interval_cases k <;> rfl
  · simp [bytesOfWord, decodeBytes, wordOfBytes_extract, hi]

/-- A field put at bit `k` counts `2 ^ k` for each of its units. -/
theorem fieldAt_eq_mul {m : Nat} (x : BitVec m) (k : Nat) :
    fieldAt x k = BitVec.ofNat 32 (2 ^ k * x.toNat) := by
  apply BitVec.eq_of_toNat_eq
  simp [fieldAt, Nat.shiftLeft_eq, Nat.mul_comm]

/-- A field put above the bits of `y` is added to `y`. -/
theorem fieldAt_or_below {m k : Nat} (x : BitVec m) {y : Nat} (hy : y < 2 ^ k) :
    fieldAt x k ||| BitVec.ofNat 32 y = BitVec.ofNat 32 (2 ^ k * x.toNat + y) := by
  rw [fieldAt_eq_mul, ← BitVec.ofNat_or, Nat.two_pow_add_eq_or_of_lt hy]

/-- A flag put above the bits of `y` is added to `y`. -/
theorem flagAt_or_below (b : Bool) {k y : Nat} (hy : y < 2 ^ k) :
    flagAt b k ||| BitVec.ofNat 32 y = BitVec.ofNat 32 (2 ^ k * b.toNat + y) := by
  rw [flagAt, fieldAt_or_below _ hy, BitVec.toNat_ofBool]

/-- A flag at bit 0 is its value. -/
theorem flagAt_zero (b : Bool) : flagAt b 0 = BitVec.ofNat 32 b.toNat := by
  rw [flagAt, fieldAt_eq_mul, BitVec.toNat_ofBool, pow_zero, one_mul]

/-- ID by the places of its fields (R47). -/
theorem idWord_eq_sum (nl : Nat) : idWord nl = BitVec.ofNat 32 (0x07106800 + nl % 256) := by
  have hfixed : idWord nl = fieldAt 0x071068#24 8 ||| fieldAt (BitVec.ofNat 8 nl) 0 :=
    congrArg (· ||| _) (by decide)
  rw [hfixed, fieldAt_eq_mul (BitVec.ofNat 8 nl), BitVec.toNat_ofNat, pow_zero, one_mul,
    fieldAt_or_below _ (Nat.mod_lt _ (by decide))]
  rfl

/-- CFG by the places of its fields (R40). -/
theorem Cfg.word_eq_sum (c : Cfg) :
    c.word = BitVec.ofNat 32 (c.d.toNat + 16 * c.rnd.toNat + 256 * c.rngDis.toNat) := by
  have hd := c.d.isLt
  have hr := c.rnd.isLt
  rw [Cfg.word, BitVec.or_assoc, fieldAt_eq_mul c.d, fieldAt_or_below _ (by omega),
    flagAt_or_below _ (by omega)]
  congr 1
  omega

/-- STATUS by the places of its fields (R41). -/
theorem Status.word_eq_sum (t : Status) :
    t.word = BitVec.ofNat 32 (t.cfgValid.toNat + 2 * t.prngRun.toNat + 4 * t.dpInit.toNat +
      8 * t.early.toNat + 16 * t.fault.toNat + 256 * t.err.code.toNat) := by
  have hv := t.cfgValid.toNat_lt
  have hr := t.prngRun.toNat_lt
  have hd := t.dpInit.toNat_lt
  have he := t.early.toNat_lt
  have hf := t.fault.toNat_lt
  simp only [Status.word, BitVec.or_assoc, flagAt_zero]
  rw [flagAt_or_below _ (by omega), flagAt_or_below _ (by omega), flagAt_or_below _ (by omega),
    flagAt_or_below _ (by omega), fieldAt_or_below _ (by omega)]
  congr 1
  omega

/-- EXIT by the places of its fields (R42). -/
theorem ExitMarker.word_eq_sum (m : ExitMarker) :
    m.word = BitVec.ofNat 32 (m.en.toNat + 2 * m.half.toNat + 16 * m.round.toNat) := by
  have he := m.en.toNat_lt
  have hh := m.half.toNat_lt
  rw [ExitMarker.word, BitVec.or_assoc, flagAt_zero, flagAt_or_below _ (by omega),
    fieldAt_or_below _ (by omega)]
  congr 1
  omega

/-- EXIT from the written word, by the places of its fields (R42, R85). -/
theorem exitOfWord_eq_div (w : Word) :
    exitOfWord w =
      { en := decide (w.toNat % 2 = 1), half := decide (w.toNat / 2 % 2 = 1),
        round := BitVec.ofNat 4 (w.toNat / 16) } := by
  rw [exitOfWord, getLsbD_eq_div, getLsbD_eq_div, extractLsb'_eq_div, pow_zero, pow_one, Nat.div_one]
  rfl

/-! ## The address map (R82) -/

/-- The registers of the control window 0x000..0x02F, in address order. -/
def controlRegs : List PortReg :=
  [.id, .cfg, .status, .cmd, .errinfo, .exit, .cmdCount, .permCount, .rc, .off, .cursor, .laneSel]

section
variable {a : BitVec 12}

theorem portRegAt_control {k : Fin 12} (ha : a.toNat = 4 * k.val) :
    portRegAt a = controlRegs[k.val]? := by
  have hk : a.toNat / 4 = k.val := by omega
  simp (disch := omega) only [portRegAt, if_pos, hk, controlRegs]

theorem portRegAt_x {k : Fin 16} (ha : a.toNat = 0x200 + 4 * k.val) : portRegAt a = some (.x k) := by
  have hk : (a.toNat - 0x200) / 4 = k.val := by omega
  simp (disch := omega) only [portRegAt, if_pos, if_neg, hk, Fin.ofNat_val_eq_self]

theorem portRegAt_seed {k : Fin 4} (ha : a.toNat = 0x240 + 4 * k.val) :
    portRegAt a = some (.seed k) := by
  have hk : (a.toNat - 0x240) / 4 = k.val := by omega
  simp (disch := omega) only [portRegAt, if_pos, if_neg, hk, Fin.ofNat_val_eq_self]

theorem portRegAt_core {k : Fin 16} (ha : a.toNat = 0x280 + 4 * k.val) :
    portRegAt a = some (.core k) := by
  have hk : (a.toNat - 0x280) / 4 = k.val := by omega
  simp (disch := omega) only [portRegAt, if_pos, if_neg, hk, Fin.ofNat_val_eq_self]

theorem portRegAt_tape {k : Fin 16} (ha : a.toNat = 0x2C0 + 4 * k.val) :
    portRegAt a = some (.tape k) := by
  have hk : (a.toNat - 0x2C0) / 4 = k.val := by omega
  simp (disch := omega) only [portRegAt, if_pos, if_neg, hk, Fin.ofNat_val_eq_self]

theorem portRegAt_tk {e : Fin 3} {c : Fin 4} (ha : a.toNat = 0x300 + 16 * e.val + 4 * c.val) :
    portRegAt a = some (.tk e c) := by
  have he : (a.toNat - 0x300) / 16 = e.val := by omega
  have hc : (a.toNat - 0x300) / 4 % 4 = c.val := by omega
  simp (disch := omega) only [portRegAt, if_pos, if_neg, he, hc, Fin.ofNat_val_eq_self]

theorem portRegAt_reserved (h : reservedAddr a.toNat) : portRegAt a = none := by
  obtain h | h | h := h <;> simp (disch := omega) only [portRegAt, if_pos, if_neg]

end

/-- An address of the port's 4096 bytes is its number (R80). -/
theorem toNat_address {n : Nat} (h : n < 4096) : (BitVec.ofNat 12 n).toNat = n :=
  (BitVec.toNat_ofNat n 12).trans (Nat.mod_eq_of_lt h)

/-- Settles O19: each row's formula falls in its own window, and no window holds a reserved address. -/
theorem addressMapOfThePort : Obligations.AddressMapOfThePort := by
  refine ⟨fun k => portRegAt_control (toNat_address (by omega)), fun r i => ?_,
    fun k => portRegAt_x (toNat_address (by omega)),
    fun k => portRegAt_seed (toNat_address (by omega)), fun r c => portRegAt_core ?_,
    fun k => portRegAt_tape (toNat_address (by omega)),
    fun e c => portRegAt_tk (toNat_address (by omega)), fun addr => portRegAt_reserved⟩
  · have ha := toNat_address (n := 0x100 + 32 * r.val + 4 * i.val) (by omega)
    have hr : (Fin.ofNat 16 r.val).val = r.val := Nat.mod_eq_of_lt (by omega)
    exact portRegAt_v (by rw [ha, hr]) (by omega)
  · have hk : (Fin.ofNat 16 (4 * r.val + c.val)).val = 4 * r.val + c.val := Nat.mod_eq_of_lt (by omega)
    rw [toNat_address (by omega), hk]
    omega

/-! ## Steps by the access (R91) -/

section
variable {s : State} {rest : List Access}

theorem step_read {addr : BitVec 12} {bits : Nat} (h : s.port = .read addr bits :: rest) :
    step s = .next (portRead addr bits { s with port := rest }) := step_access h

theorem step_write {addr : BitVec 12} {bits : Nat} {w : Word} (h : s.port = .write addr bits w :: rest) :
    step s = portWrite addr bits w { s with port := rest, reply := none } := step_access h

theorem step_readV {r : VReg} {i : Fin 8} (h : s.port = .readV r i :: rest) :
    step s = .next (portReadV r i { s with port := rest }) := step_access h

theorem step_writeV {r : VReg} {i : Fin 8} {w : Word} (h : s.port = .writeV r i w :: rest) :
    step s = .next (portWriteV r i w { s with port := rest, reply := none }) := step_access h

/-- A read that reaches a register takes the access off the queue and returns the register's word; no
register changes (R84, R88). -/
theorem step_read_of_reg {addr : BitVec 12} {r : PortReg} (h : s.port = .read addr 32 :: rest)
    (h4 : addr.toNat % 4 = 0) (hr : portRegAt addr = some r) :
    step s = .next { s with port := rest, reply := some (portValue r s) } :=
  (step_read h).trans (congrArg _ (portRead_of_reg h4 hr _))

/-- A write that reaches a register is the register's own write (R85). -/
theorem step_write_of_reg {addr : BitVec 12} {w : Word} {r : PortReg}
    (h : s.port = .write addr 32 w :: rest) (hf : s.status.fault = false) (h4 : addr.toNat % 4 = 0)
    (hr : portRegAt addr = some r) :
    step s = writeReg addr r w { s with port := rest, reply := none } :=
  (step_write h).trans
    (portWrite_of_reg h4 hr (s := { s with port := rest, reply := none }) hf w)

end

/-! ## Reads (R84) -/

/-- Settles O20: a read that reaches a register changes the returned word alone, and every register's word
is its fields at their places or the window's word of lane LANESEL. -/
theorem readsReturnTheRegister : Obligations.ReadsReturnTheRegister := by
  intro s addr rest r hp h4 hr
  refine ⟨step_read_of_reg hp h4 hr, fun lane hl => ?_⟩
  cases r with
  | id => exact idWord_eq_sum s.nl
  | cfg => exact s.cfg.word_eq_sum
  | status => exact s.status.word_eq_sum
  | exit => exact s.exit.word_eq_sum
  | cmd | errinfo | cmdCount | permCount | off => rfl
  | rc | cursor | laneSel => exact (BitVec.ofNat_toNat ..).symm
  | v q i => simp only [portValue, windowWord_of_lane hl]
  | x | seed | core | tape | tk => exact windowWord_of_lane hl _

/-! ## The accesses the port refuses (R81, R87) -/

/-- The access reaches no register: it is not 32 bits wide, it is misaligned, or its address is reserved. -/
def ReachesNoRegister (addr : BitVec 12) (bits : Nat) : Prop :=
  bits ≠ 32 ∨ addr.toNat % 4 ≠ 0 ∨ reservedAddr addr.toNat

theorem ReachesNoRegister.target_eq_none {addr : BitVec 12} {bits : Nat}
    (h : ReachesNoRegister addr bits) :
    (if accessFits addr bits then portRegAt addr else none) = none := by
  obtain hb | ha | hr := h
  · simp [accessFits, hb]
  · simp [accessFits, ha]
  · rw [portRegAt_reserved hr, ite_self]

/-- E_PORT is taken with the byte address in ERRINFO (R302). -/
theorem portFault_of_ok {s : State} (hf : s.status.fault = false) (addr : BitVec 12) :
    portFault addr s = s.withFault .port (BitVec.ofNat 32 addr.toNat) := by
  rw [portFault, raiseFault_of_ok hf, BitVec.ofNat_toNat]
  rfl

theorem portRead_refused {addr : BitVec 12} {bits : Nat} (h : ReachesNoRegister addr bits) {s : State}
    (hf : s.status.fault = false) :
    portRead addr bits s =
      { s.withFault .port (BitVec.ofNat 32 addr.toNat) with reply := some 0 } := by
  rw [portRead, h.target_eq_none, ← portFault_of_ok hf]

theorem portWrite_refused {addr : BitVec 12} {bits : Nat} (h : ReachesNoRegister addr bits) {s : State}
    (hf : s.status.fault = false) (w : Word) :
    portWrite addr bits w s = .next (s.withFault .port (BitVec.ofNat 32 addr.toNat)) := by
  rw [portWrite, h.target_eq_none, if_neg (by simp [hf]), ← portFault_of_ok hf]

/-- The registers no host access writes: ID, STATUS, ERRINFO, CMD_COUNT, PERM_COUNT, RC, OFF, CURSOR, CORE,
TAPE, TK (R87). -/
def PortReg.readOnly : PortReg → Bool
  | .cfg | .cmd | .exit | .laneSel | .v .. | .x _ | .seed _ => false
  | .id | .status | .errinfo | .cmdCount | .permCount | .rc | .off | .cursor | .core _ | .tape _
  | .tk .. => true

theorem writeReg_readOnly {r : PortReg} (h : r.readOnly = true) (addr : BitVec 12) (w : Word)
    (s : State) : writeReg addr r w s = .next (portFault addr s) := by
  cases r with
  | cfg | cmd | exit | laneSel | v | x | seed => cases h
  | id | status | errinfo | cmdCount | permCount | rc | off | cursor | core | tape | tk => rfl

/-- An aligned read-only address reaches a read-only register (R82, R87). -/
theorem portRegAt_readOnly {addr : BitVec 12} (h : readOnlyAddr addr.toNat) (h4 : addr.toNat % 4 = 0) :
    ∃ r, portRegAt addr = some r ∧ r.readOnly = true := by
  obtain h | ⟨hlo, hhi⟩ := h
  · have hall : ∀ k : Fin 12, 4 * k.val ∈ [0x000, 0x008, 0x010, 0x018, 0x01C, 0x020, 0x024, 0x028] →
        controlRegs[k.val]?.any PortReg.readOnly = true := by decide
    have hlt : addr.toNat / 4 < 12 := by
      simp only [List.mem_cons, List.not_mem_nil, or_false] at h
      omega
    have ha : addr.toNat = 4 * (addr.toNat / 4) := by omega
    rw [portRegAt_control (k := ⟨_, hlt⟩) ha]
    exact (Option.any_eq_true _ _).mp (hall ⟨_, hlt⟩ (ha ▸ h))
  · by_cases hcore : addr.toNat < 0x2C0
    · have ha : addr.toNat = 0x280 + 4 * ((addr.toNat - 0x280) / 4) := by omega
      exact ⟨_, portRegAt_core (k := ⟨_, by omega⟩) ha, rfl⟩
    by_cases htape : addr.toNat < 0x300
    · have ha : addr.toNat = 0x2C0 + 4 * ((addr.toNat - 0x2C0) / 4) := by omega
      exact ⟨_, portRegAt_tape (k := ⟨_, by omega⟩) ha, rfl⟩
    · have ha : addr.toNat =
          0x300 + 16 * ((addr.toNat - 0x300) / 16) + 4 * (addr.toNat / 4 % 4) := by omega
      exact ⟨_, portRegAt_tk (e := ⟨_, by omega⟩) (c := ⟨_, by omega⟩) ha, rfl⟩

/-- A write of a read-only address is refused, misaligned or of another width too. -/
theorem portWrite_readOnly {addr : BitVec 12} (h : readOnlyAddr addr.toNat) (bits : Nat) {s : State}
    (hf : s.status.fault = false) (w : Word) :
    portWrite addr bits w s = .next (s.withFault .port (BitVec.ofNat 32 addr.toNat)) := by
  by_cases hn : ReachesNoRegister addr bits
  · exact portWrite_refused hn hf w
  · obtain ⟨hb, h4, -⟩ : bits = 32 ∧ addr.toNat % 4 = 0 ∧ ¬ reservedAddr addr.toNat := by
      simpa [ReachesNoRegister] using hn
    obtain ⟨r, hr, hro⟩ := portRegAt_readOnly h h4
    rw [hb, portWrite_of_reg h4 hr hf, writeReg_readOnly hro, portFault_of_ok hf]

/-- Settles O21: an access that reaches no register, or a write of a read-only one, takes E_PORT; CMD is a
readable register whose word is 0. -/
theorem refusedAccessesFault : Obligations.RefusedAccessesFault := by
  refine ⟨fun s rest hp => step_read_of_reg (r := .cmd) hp (by decide) (by decide),
    fun s addr bits rest hf => ⟨fun h => ⟨fun hp => ?_, fun w hp => ?_⟩, fun h w hp => ?_⟩⟩
  · exact (step_read hp).trans (congrArg _ (portRead_refused h hf))
  · rw [step_write hp]
    exact portWrite_refused h (s := { s with port := rest, reply := none }) hf w
  · rw [step_write hp]
    exact portWrite_readOnly h bits (s := { s with port := rest, reply := none }) hf w

/-! ## The host's writes of the data words (R85, R86) -/

/-- A lane after a window write: related to the old lane as the write says where the window shows it, and as
it was elsewhere (R83). -/
theorem windowWrite_changes {s : State} {f : Lane → Lane} {R : Lane → Lane → Prop}
    (hR : ∀ a, R a (f a)) {l : Nat} {a b : Lane} (ha : s.lanes[l]? = some a)
    (hb : (s.windowWrite f).lanes[l]? = some b) :
    if l = s.laneSel.toNat then R a b else b = a := by
  rw [windowWrite_lane, ha] at hb
  split
  · next hl => rw [if_pos hl] at hb; cases hb; exact hR a
  · next hl => rw [if_neg hl] at hb; cases hb; rfl

/-- Every word of a register file after one of them is set. -/
theorem getElem_set_fin {α : Type} {n : Nat} (xs : Vector α n) (k j : Fin n) (w : α) :
    (xs.set k w)[j] = if j = k then w else xs[j] := by
  simp only [Fin.getElem_fin, Vector.getElem_set, Fin.ext_iff, eq_comm]

/-- Settles O22: the step is the register's own write, which is a window write for V, X and SEED. -/
theorem hostWritesChangeOneWord : Obligations.HostWritesChangeOneWord := by
  intro s addr w rest r hp hf h4 hr u banked
  have hstep : step s = writeReg addr r w u := step_write_of_reg hp hf h4 hr
  have hbanked {f : Lane → Lane} {R : Lane → Lane → Prop}
      (hw : writeReg addr r w u = .next (u.windowWrite f)) (hR : ∀ a, R a (f a)) : banked R :=
    ⟨_, hstep.trans hw, rfl, windowWrite_nl u f, fun _ _ _ => windowWrite_changes (s := u) hR⟩
  cases r with
  | v q i =>
    simp only
    split
    · next hi =>
      have hw : writeReg addr (.v q i) w u = .next (u.windowWrite _) :=
        congrArg Host.Outcome.next (hostWriteV_word (s := u) hi w)
      exact hbanked hw fun a => ⟨rfl, setWord_v a.v q i w⟩
    · next hi => rw [hstep, writeReg, hostWriteV_past (s := u) (Nat.not_lt.mp hi)]
  | x k => exact hbanked rfl fun a => ⟨rfl, fun j => getElem_set_fin a.x k j w⟩
  | seed k => exact hbanked rfl fun a => ⟨rfl, fun j => getElem_set_fin a.seed k j w⟩
  | exit => rw [hstep, writeReg, exitOfWord_eq_div]
  | id | cfg | status | cmd | errinfo | cmdCount | permCount | rc | off | cursor | laneSel | core | tape
  | tk => trivial

/-! ## A read after a write -/

/-- The data words the host writes at order `d`: words below `d` of V, and X and SEED (R85, R86). -/
def PortReg.IsData (d : Nat) : PortReg → Prop
  | .v _ i => i.val < d
  | .x _ | .seed _ => True
  | _ => False

/-- The window's word after a window write, in any lane the window shows. -/
theorem windowWord_windowWrite (s : State) (f : Lane → Lane) (g : Lane → Word) :
    (s.windowWrite f).windowWord g = s.windowWord fun a => g (f a) := by
  unfold State.windowWord
  rw [State.windowWrite_laneSel, windowWrite_lane, if_pos rfl]
  cases s.lanes[s.laneSel.toNat]? <;> rfl

/-- The window shows a lane the block has (R46). -/
theorem State.Inv.windowLane {s : State} (h : s.Inv) : ∃ lane, s.lanes[s.laneSel.toNat]? = some lane :=
  ⟨_, List.getElem?_eq_getElem h.laneSel⟩

/-- The write of a data word leaves the register with the word, and the queue and STATUS as they are (R83,
R85). -/
theorem writeReg_data {s : State} (h : s.Inv) {r : PortReg} (hr : r.IsData s.order) (addr : BitVec 12)
    (w : Word) :
    ∃ t, writeReg addr r w s = .next t ∧ portValue r t = w ∧ t.port = s.port ∧
      t.status = s.status := by
  obtain ⟨lane, hl⟩ := h.windowLane
  have hread (f : Lane → Lane) (g : Lane → Word) : (s.windowWrite f).windowWord g = g (f lane) := by
    rw [windowWord_windowWrite, windowWord_of_lane hl]
  cases r with
  | v q i =>
    refine ⟨_, congrArg Host.Outcome.next (hostWriteV_word hr w), ?_, rfl, rfl⟩
    exact (if_pos hr).trans ((hread ..).trans ((setWord_v lane.v q i w q i).trans (if_pos ⟨rfl, rfl⟩)))
  | x k =>
    exact ⟨_, rfl, (hread ..).trans ((getElem_set_fin lane.x k k w).trans (if_pos rfl)), rfl, rfl⟩
  | seed k =>
    exact ⟨_, rfl, (hread ..).trans ((getElem_set_fin lane.seed k k w).trans (if_pos rfl)), rfl, rfl⟩
  | _ => exact hr.elim

/-- The addresses of the data words at order `d` (R82). -/
theorem portRegAt_data {addr : BitVec 12} {d : Nat} (h4 : addr.toNat % 4 = 0)
    (h : (0x100 ≤ addr.toNat ∧ addr.toNat ≤ 0x1FF ∧ addr.toNat / 4 % 8 < d) ∨
      (0x200 ≤ addr.toNat ∧ addr.toNat ≤ 0x24F)) :
    ∃ r, portRegAt addr = some r ∧ r.IsData d := by
  obtain ⟨hlo, hhi, hd⟩ | ⟨hlo, hhi⟩ := h
  · have ha : addr.toNat =
        0x100 + 32 * ((addr.toNat - 0x100) / 32) + 4 * (addr.toNat / 4 % 8) := by omega
    exact ⟨_, portRegAt_v (r := ⟨_, by omega⟩) (i := ⟨_, by omega⟩) ha hhi, hd⟩
  by_cases hx : addr.toNat < 0x240
  · have ha : addr.toNat = 0x200 + 4 * ((addr.toNat - 0x200) / 4) := by omega
    exact ⟨_, portRegAt_x (k := ⟨_, by omega⟩) ha, trivial⟩
  · have ha : addr.toNat = 0x240 + 4 * ((addr.toNat - 0x240) / 4) := by omega
    exact ⟨_, portRegAt_seed (k := ⟨_, by omega⟩) ha, trivial⟩

/-- Settles O24: the write leaves the word in the register, and the queue and LANESEL as they are, so the read
that follows finds it. -/
theorem writeThenReadReturnsTheWord : Obligations.WriteThenReadReturnsTheWord := by
  refine ⟨fun s r i w rest h hf hi hp => ?_, fun s addr w rest h hf h4 hd hp => ?_⟩
  · obtain ⟨t, hw, hv, ht, hst⟩ :=
      writeReg_data (h.host (.readV r i :: rest) none) (r := .v r i) hi 0 w
    have hwrite : step s = .next t := by
      rw [step_writeV hp, portWriteV, if_neg (by simp [hf])]
      exact hw
    exact ⟨t, _, hwrite, step_readV ht, congrArg some hv, (congrArg _ hst).trans hf⟩
  · obtain ⟨r, hr, hdata⟩ := portRegAt_data h4 hd
    obtain ⟨t, hw, hv, ht, hst⟩ := writeReg_data (h.host (.read addr 32 :: rest) none) hdata addr w
    exact ⟨t, _, (step_write_of_reg hp hf h4 hr).trans hw, step_read_of_reg ht h4 hr, congrArg some hv,
      (congrArg _ hst).trans hf⟩

end Sys2Proof.Machine

/-! Proofs about the command word (spec/30_encoding.md): decoding and encoding agree (R121-R124), the legal
words are those of the opcode table's rows (R122-R125), and an illegal word takes E_ILLEGAL (R124, R300). -/

namespace Sys2Proof

/-! ## The opcode map and the encoder agree (R122, R123) -/

/-- The map gives a command back at its own opcode and fields, with its format. -/
theorem opcodeMap_fieldsFor (i : Instr) :
    opcodeMap (fieldsFor i).op.toNat (fieldsFor i) = some (formatOf i, i) := by
  cases i <;> rfl

/-- A command's fields are zero where its format names none. -/
theorem unusedZero_fieldsFor (i : Instr) : unusedZero (formatOf i) (fieldsFor i) = true := by
  cases i <;> rfl

/-- Fields the map names a command for are the command's own once the unused ones are zero: the opcode is
the row's, and each field the format names is an operand. -/
theorem fieldsFor_of_opcodeMap {f : Fields} {fmt : Format} {i : Instr}
    (h : opcodeMap f.op.toNat f = some (fmt, i)) (hu : unusedZero fmt f = true) : fieldsFor i = f := by
  obtain ⟨op, vd, va, vb, xk, n, res⟩ := f
  have hop : BitVec.ofNat 5 op.toNat = op := by simp
  unfold opcodeMap at h
  split at h <;> cases h
  all_goals
    next hn =>
    rw [show op.toNat = _ from hn] at hop
    simp only [unusedZero, Bool.and_eq_true, beq_iff_eq] at hu
    simp [fieldsFor, ← hop, hu]

/-- The decoder answers a command on exactly one word, the command's own (R124). -/
theorem decode_eq_ok_iff_encode {w : Word} {i : Instr} : decode w = .ok i ↔ encode i = w := by
  rw [decode_eq_ok]
  constructor
  · rintro ⟨fmt, hmap, hunused⟩
    rw [encode, fieldsFor_of_opcodeMap hmap hunused, assemble_fieldsOf]
  · rintro rfl
    rw [encode, fieldsOf_assemble]
    exact ⟨_, opcodeMap_fieldsFor i, unusedZero_fieldsFor i⟩

/-- Settles O1: both directions are the decoder's one answer, the command whose word it reads. -/
theorem decodeAndEncodeAgree : Obligations.DecodeAndEncodeAgree :=
  ⟨fun _ => decode_eq_ok_iff_encode.mpr rfl, fun _ _ => decode_eq_ok_iff_encode.mp⟩

/-- Settles O3: each word is the encoder's word of its command. -/
theorem writtenOutWordsDecode : Obligations.WrittenOutWordsDecode := by
  simp only [Obligations.WrittenOutWordsDecode, decode_eq_ok_iff_encode]
  decide

/-! ## The rows of the opcode table by opcode and format (R122, R123) -/

/-- The format the opcode map gives an opcode; `none` where it is reserved (R125). -/
def formatAt (op : BitVec 5) : Option Format := (opcodeMap op.toNat {}).map Prod.fst

/-- The format depends on the opcode alone. -/
theorem opcodeMap_format (op : BitVec 5) (f : Fields) :
    (opcodeMap op.toNat f).map Prod.fst = formatAt op := by
  unfold formatAt opcodeMap
  split <;> rfl

/-- A word decodes exactly when its opcode has a format and the fields that format does not use are zero
(R124). -/
theorem exists_decode_iff {w : Word} :
    (∃ i, decode w = .ok i) ↔
      ∃ fmt, formatAt (fieldsOf w).op = some fmt ∧ unusedZero fmt (fieldsOf w) = true := by
  simp only [decode_eq_ok, ← opcodeMap_format _ (fieldsOf w), Option.map_eq_some_iff]
  constructor
  · rintro ⟨i, fmt, hmap, hunused⟩
    exact ⟨fmt, ⟨(fmt, i), hmap, rfl⟩, hunused⟩
  · rintro ⟨fmt, ⟨⟨_, i⟩, hmap, rfl⟩, hunused⟩
    exact ⟨i, _, hmap, hunused⟩

/-- The row of an opcode of format `fmt`: OP at its place is the match, the format's mask the mask (R123). -/
def tableRow (op : BitVec 5) (fmt : Format) : Word × Word := (fieldAt op 27, fixedMask fmt)

/-- The table is the opcode map, row by row in the order of the opcodes. -/
theorem tableRows_eq :
    Machine.tableRows = (List.finRange 32).filterMap fun op =>
      (formatAt (.ofFin op)).map (tableRow (.ofFin op)) := by
  decide

/-- The table's rows are those of the opcodes in the map. -/
theorem mem_tableRows {r : Word × Word} :
    r ∈ Machine.tableRows ↔ ∃ op fmt, formatAt op = some fmt ∧ tableRow op fmt = r := by
  simp only [tableRows_eq, List.mem_filterMap, List.mem_finRange, true_and, Option.map_eq_some_iff]
  exact ⟨fun ⟨op, fmt, h⟩ => ⟨.ofFin op, fmt, h⟩, fun ⟨op, fmt, h⟩ => ⟨op.toFin, fmt, h⟩⟩

/-! ## A row's fixed bits by the fields of the word -/

/-- Words are equal when their fields are (R121). -/
theorem fieldsOf_inj {v w : Word} : fieldsOf v = fieldsOf w ↔ v = w :=
  (Function.LeftInverse.injective assemble_fieldsOf).eq_iff

/-- The fields of a masked word are the word's fields, masked. -/
theorem fieldsOf_and (v w : Word) :
    fieldsOf (v &&& w) =
      { op := (fieldsOf v).op &&& (fieldsOf w).op, vd := (fieldsOf v).vd &&& (fieldsOf w).vd
        va := (fieldsOf v).va &&& (fieldsOf w).va, vb := (fieldsOf v).vb &&& (fieldsOf w).vb
        xk := (fieldsOf v).xk &&& (fieldsOf w).xk, n := (fieldsOf v).n &&& (fieldsOf w).n
        res := (fieldsOf v).res &&& (fieldsOf w).res } := by
  simp only [fieldsOf, BitVec.extractLsb'_and]

/-- A match value holds its opcode, and zero in every other field. -/
theorem fieldsOf_opcode (op : BitVec 5) : fieldsOf (fieldAt op 27) = { op := op } := by
  have hword : fieldAt op 27 = assemble { op := op } := by simp [assemble, fieldAt]
  rw [hword, fieldsOf_assemble]

/-- Every bit of every field a one. -/
def onesFields : Fields where
  op := .allOnes 5
  vd := .allOnes 4
  va := .allOnes 4
  vb := .allOnes 4
  xk := .allOnes 4
  n := .allOnes 5
  res := .allOnes 6

/-- The fields of a format's fixed-bit mask: ones in OP, in RES and where the format names no field, and zero
where it names one (R122). -/
def maskFields : Format → Fields
  | .n  => onesFields
  | .r3 => { onesFields with vd := 0, va := 0, vb := 0 }
  | .r2 => { onesFields with vd := 0, va := 0 }
  | .r1 => { onesFields with vd := 0 }
  | .rp => { onesFields with vd := 0, va := 0, xk := 0 }
  | .sb => { onesFields with vd := 0, n := 0 }
  | .h  => { onesFields with n := 0 }
  | .c  => { onesFields with xk := 0, n := 0 }

/-- The masks of R122 are ones in the fields they say. -/
theorem fieldsOf_fixedMask (fmt : Format) : fieldsOf (fixedMask fmt) = maskFields fmt := by
  cases fmt <;> rfl

/-- A word's fixed bits are a row's exactly when its opcode is the row's and the fields the format does not
use are zero (R122, R124). -/
theorem and_mask_eq_match {w : Word} {op : BitVec 5} {fmt : Format} :
    w &&& (tableRow op fmt).2 = (tableRow op fmt).1 ↔
      (fieldsOf w).op = op ∧ unusedZero fmt (fieldsOf w) = true := by
  rw [tableRow, ← fieldsOf_inj, fieldsOf_opcode, fieldsOf_and, fieldsOf_fixedMask, Fields.mk.injEq]
  cases fmt <;>
    simp only [maskFields, onesFields, BitVec.and_allOnes, BitVec.ofNat_eq_ofNat, BitVec.and_zero, true_and,
      unusedZero, Bool.and_eq_true, beq_iff_eq, and_assoc, and_left_comm, and_comm]

/-- A legal word is one whose opcode has a format and whose fields outside that format are zero (R124). -/
theorem legalWord_iff {w : Word} :
    Machine.legalWord w ↔
      ∃ fmt, formatAt (fieldsOf w).op = some fmt ∧ unusedZero fmt (fieldsOf w) = true := by
  constructor
  · rintro ⟨r, hr, hbits⟩
    obtain ⟨op, fmt, hfmt, rfl⟩ := mem_tableRows.mp hr
    obtain ⟨rfl, hunused⟩ := and_mask_eq_match.mp hbits
    exact ⟨fmt, hfmt, hunused⟩
  · rintro ⟨fmt, hfmt, hunused⟩
    exact ⟨_, mem_tableRows.mpr ⟨_, fmt, hfmt, rfl⟩, and_mask_eq_match.mpr ⟨rfl, hunused⟩⟩

/-- A word is of one row at most: the row is that of the word's opcode. -/
theorem tableRow_unique {w : Word} {r q : Word × Word} (hr : r ∈ Machine.tableRows)
    (hq : q ∈ Machine.tableRows) (hwr : w &&& r.2 = r.1) (hwq : w &&& q.2 = q.1) : r = q := by
  obtain ⟨op, fmt, hfmt, rfl⟩ := mem_tableRows.mp hr
  obtain ⟨op', fmt', hfmt', rfl⟩ := mem_tableRows.mp hq
  obtain ⟨rfl, -⟩ := and_mask_eq_match.mp hwr
  obtain ⟨rfl, -⟩ := and_mask_eq_match.mp hwq
  rw [Option.some.inj (hfmt.symm.trans hfmt')]

theorem exists_decode_iff_legalWord {w : Word} : (∃ i, decode w = .ok i) ↔ Machine.legalWord w :=
  exists_decode_iff.trans legalWord_iff.symm

end Sys2Proof

namespace Sys2Proof.Machine

/-! ## Illegal words at issue (R124, R300) -/

/-- The issue of a word that is no command takes E_ILLEGAL, with the word in ERRINFO (R124, R300). -/
theorem issue_of_no_command {w : Word} {s : State} (hf : s.status.fault = false)
    (h : ∀ i, decode w ≠ .ok i) : issue w s = .next (s.withFault .illegal w) := by
  cases hd : decode w with
  | ok i => exact absurd hd (h i)
  | error e => simp [issue, hf, hd, raiseFault, State.withFault]

theorem issue_of_not_legal {w : Word} {s : State} (hf : s.status.fault = false) (h : ¬ legalWord w) :
    issue w s = .next (s.withFault .illegal w) :=
  issue_of_no_command hf fun i hi => h (exists_decode_iff_legalWord.mp ⟨i, hi⟩)

/-- Settles O2: both sides say that the opcode has a format whose unused fields are zero, and the opcode
names the row. -/
theorem legalWordsAreTheTablesRows : Obligations.LegalWordsAreTheTablesRows := fun _ =>
  ⟨exists_decode_iff_legalWord, fun _ hr _ hq => tableRow_unique hr hq, fun _ => issue_of_not_legal⟩

/-- Settles O6: the step is the write of CMD, the issue of the word. -/
theorem illegalWordsFault : Obligations.IllegalWordsFault := fun _ _ _ hp hf hw =>
  (step_write_of_reg (r := .cmd) hp hf (by decide) (by decide)).trans (issue_of_not_legal hf hw)

end Sys2Proof.Machine

/-! Proofs about the masking arithmetic commands (spec/41_masking.md): what each leaves in every share
(R161-R167), which words it draws for it (R168), and what becomes of the unmasked value (R14). -/

namespace Sys2Proof.Machine

/-! ## XOR sums

A share of a gadget's result, and a sharing's value, are XOR sums: over the shares below the order
(`xorSum`), or over the share pairs of an ISW multiplication (`pairSum`). -/

/-- The XOR of a list of words. -/
def xorAll (l : List Word) : Word := l.foldl (· ^^^ ·) 0

/-- The XOR of f 0, ..., f (n-1). -/
def xorSum (n : Nat) (f : Nat → Word) : Word := xorAll ((List.range n).map f)

/-- The XOR of c i j over the share pairs i < j < d of an ISW multiplication. -/
def pairSum (d : Nat) (c : Nat → Nat → Word) : Word := xorAll ((iswPairs d).map fun p => c p.1 p.2)

/-! The XOR laws of the library with the zero word as the model writes it -/

theorem word_xor_zero (w : Word) : w ^^^ 0 = w := BitVec.xor_zero

theorem word_zero_xor (w : Word) : 0 ^^^ w = w := BitVec.zero_xor

@[simp] theorem xorAll_nil : xorAll [] = 0 := rfl

@[simp] theorem xorAll_cons (w : Word) (l : List Word) : xorAll (w :: l) = w ^^^ xorAll l := by
  rw [xorAll, List.foldl_cons, BitVec.xor_comm, List.foldl_assoc, xorAll]

theorem xorAll_append (l m : List Word) : xorAll (l ++ m) = xorAll l ^^^ xorAll m := by
  induction l with
  | nil => simp
  | cons w l ih => simp [ih, BitVec.xor_assoc]

theorem xorAll_flatMap {α : Type} (l : List α) (f : α → List Word) :
    xorAll (l.flatMap f) = xorAll (l.map fun x => xorAll (f x)) := by
  induction l with
  | nil => rfl
  | cons x l ih => simp [xorAll_append, ih]

theorem xorAll_map_zero {α : Type} {l : List α} {f : α → Word} (h : ∀ x ∈ l, f x = 0) :
    xorAll (l.map f) = 0 := by
  induction l with
  | nil => rfl
  | cons x l ih => simp [h x (by simp), ih fun y hy => h y (by simp [hy])]

/-- A fold each step of which XORs a word into some measure XORs the words of all its steps into it. -/
theorem measure_foldl {α β : Type} {f : β → α → β} (m : β → Word) {c : α → Word} {l : List α}
    (h : ∀ b, ∀ x ∈ l, m (f b x) = m b ^^^ c x) (b : β) :
    m (l.foldl f b) = m b ^^^ xorAll (l.map c) := by
  induction l generalizing b with
  | nil => simp
  | cons x l ih =>
    rw [List.foldl_cons, ih fun b y hy => h b y (by simp [hy]), h b x (by simp), List.map_cons,
      xorAll_cons, BitVec.xor_assoc]

@[simp] theorem xorSum_zero (f : Nat → Word) : xorSum 0 f = 0 := rfl

theorem xorSum_succ (n : Nat) (f : Nat → Word) : xorSum (n + 1) f = xorSum n f ^^^ f n := by
  simp [xorSum, List.range_succ, xorAll_append]

theorem xorSum_congr {n : Nat} {f g : Nat → Word} (h : ∀ j, j < n → f j = g j) :
    xorSum n f = xorSum n g := by
  unfold xorSum
  rw [List.map_congr_left fun j hj => h j (List.mem_range.mp hj)]

theorem xorSum_xor (n : Nat) (f g : Nat → Word) :
    xorSum n (fun j => f j ^^^ g j) = xorSum n f ^^^ xorSum n g := by
  induction n with
  | zero => simp
  | succ n ih => rw [xorSum_succ, xorSum_succ, xorSum_succ, ih]; ac_rfl

/-- A sum with one term only. -/
theorem xorSum_single {n i : Nat} (hi : i < n) (f : Nat → Word) :
    xorSum n (fun j => if j = i then f j else 0) = f i := by
  induction n with
  | zero => omega
  | succ n ih =>
    rw [xorSum_succ]
    by_cases e : n = i
    · subst e
      rw [xorSum, xorAll_map_zero fun j hj => if_neg (Nat.ne_of_lt (List.mem_range.mp hj)), if_pos rfl,
        word_zero_xor]
    · rw [ih (by omega), if_neg e, word_xor_zero]

theorem and_xor_distrib (x y z : Word) : x &&& (y ^^^ z) = (x &&& y) ^^^ (x &&& z) := by
  refine BitVec.eq_of_getLsbD_eq fun k _ => ?_
  simp [Bool.and_xor_distrib_left]

theorem xorSum_and_left (n : Nat) (x : Word) (f : Nat → Word) :
    xorSum n (fun j => x &&& f j) = x &&& xorSum n f := by
  induction n with
  | zero => simp
  | succ n ih => rw [xorSum_succ, xorSum_succ, ih, and_xor_distrib]

/-- The value of a sharing is the sum of its shares (R13). -/
theorem unmask_eq_xorSum (d : Nat) (s : ShareVec) : unmask d s = xorSum d (share s) := by
  rw [unmask, xorSum, xorAll, List.foldl_map]

/-- One more share makes a pair with each share below it. -/
theorem pairSum_succ (d : Nat) (c : Nat → Nat → Word) :
    pairSum (d + 1) c = pairSum d c ^^^ xorSum d fun i => c i d := by
  have rows : ∀ n, pairSum n c =
      xorSum n fun i => xorAll ((List.range' (i + 1) (n - 1 - i)).map (c i)) := fun n => by
    simp only [pairSum, iswPairs, List.map_flatMap, List.map_map, xorAll_flatMap]
    rfl
  rw [rows, rows, xorSum_succ, ← xorSum_xor]
  have hlast : d + 1 - 1 - d = 0 := by omega
  simp only [hlast, List.range'_zero, List.map_nil, xorAll_nil, word_xor_zero]
  refine xorSum_congr fun i hi => ?_
  have hrow : d + 1 - 1 - i = d - 1 - i + 1 := by omega
  have hend : i + 1 + 1 * (d - 1 - i) = d := by omega
  rw [hrow, List.range'_concat, hend, List.map_append, xorAll_append]
  simp

/-- The product of two sums: the products of equal places, and both products of every pair. -/
theorem xorSum_and_xorSum (d : Nat) (a b : Nat → Word) :
    xorSum d a &&& xorSum d b =
      xorSum d (fun i => a i &&& b i) ^^^ pairSum d fun i j => (a i &&& b j) ^^^ (a j &&& b i) := by
  induction d with
  | zero => simp [pairSum, iswPairs]
  | succ d ih =>
    have hcross : (xorSum d fun i => (a i &&& b d) ^^^ (a d &&& b i)) =
        (xorSum d a &&& b d) ^^^ (a d &&& xorSum d b) := by
      rw [xorSum_xor, xorSum_and_left]
      simp only [BitVec.and_comm _ (b d), xorSum_and_left]
    have hexpand : ∀ x y u v : Word, (x ^^^ u) &&& (y ^^^ v) =
        ((x &&& y) ^^^ (u &&& v)) ^^^ ((x &&& v) ^^^ (u &&& y)) := fun x y u v => by
      simp only [BitVec.and_comm (x ^^^ u), and_xor_distrib, BitVec.and_comm _ x, BitVec.and_comm _ u]
      ac_rfl
    simp only [xorSum_succ, pairSum_succ]
    rw [hcross, hexpand, ih]
    ac_rfl

/-- The pairs share i is in: it is the lower share of those with a greater share, the higher share of
those with a smaller one. -/
theorem pairSum_at {d i : Nat} (hi : i < d) (u v : Nat → Nat → Word) :
    pairSum d (fun p q => (if p = i then u p q else 0) ^^^ (if q = i then v p q else 0)) =
      xorSum d fun j => if i < j then u i j else if j < i then v j i else 0 := by
  induction d, hi using Nat.le_induction with
  | base =>
    have hbelow : pairSum i (fun p q =>
        (if p = i then u p q else 0) ^^^ (if q = i then v p q else 0)) = 0 :=
      xorAll_map_zero fun p hp => by
        obtain ⟨hpq, hq⟩ := iswPairs_mem hp
        simp [show p.1 ≠ i by omega, show p.2 ≠ i by omega]
    have hlower : (xorSum i fun j => (if j = i then u j i else 0) ^^^ v j i) =
        xorSum i fun j => if i < j then u i j else if j < i then v j i else 0 :=
      xorSum_congr fun j hj => by simp [hj, show j ≠ i by omega, show ¬ i < j by omega]
    rw [pairSum_succ, hbelow, xorSum_succ, word_zero_xor]
    simp only [if_true, hlower, Nat.lt_irrefl, if_false, word_xor_zero]
  | succ d hd ih =>
    have hupper : (xorSum d fun j => (if j = i then u j d else 0) ^^^ (if d = i then v j d else 0)) =
        u i d := by
      rw [← xorSum_single hd fun j => u j d]
      exact xorSum_congr fun j _ => by simp [show d ≠ i by omega]
    rw [pairSum_succ, ih, xorSum_succ, hupper, if_pos (by omega)]

/-! ## The words of a fold over share pairs -/

/-- Words dealt to the entries of a list that are indexed by their position. -/
theorem zip_eq_map_index {α : Type} {l : List α} {index : α → Nat} {ws : List Word}
    (hix : l.map index = List.range l.length) (hl : l.length ≤ ws.length) :
    l.zip ws = l.map fun x => (x, ws.getD (index x) 0) := by
  refine List.ext_getElem (by simpa using hl) fun k hk _ => ?_
  have hkl : k < l.length := by simp at hk; omega
  have hk' : index l[k] = k := by
    have := List.getElem_map index (l := l) (i := k) (h := by simpa using hkl)
    rw [← this]
    simp [hix]
  simp [hk', List.getD_eq_getElem?_getD, show k < ws.length by omega]

/-- `pairIndex` is the position in the draw order (R162). -/
theorem iswPairs_index {d : Nat} (h : d ≤ 8) :
    ((iswPairs d).map fun p => pairIndex d p.1 p.2) = List.range (iswPairs d).length := by
  interval_cases d <;> decide

/-! ## ISW multiplication (R162) -/

/-- Share-wise AND, what an ISW multiplication starts from. -/
theorem share_shareAnd (a b : ShareVec) (i : Nat) :
    share (Vector.ofFn fun k : Fin 8 => a[k] &&& b[k]) i = share a i &&& share b i := by
  by_cases h : i < 8 <;> simp [share, h]

/-- What one pair XORs into share i of the product. -/
theorem share_iswPair (a b out : ShareVec) (p : (Nat × Nat) × Word) {i : Nat} (h8 : i < 8) :
    share (iswPair a b out p) i = share out i ^^^
      ((if p.1.1 = i then p.2 else 0) ^^^
        (if p.1.2 = i then
          ((share a p.1.1 &&& share b i) ^^^ p.2) ^^^ (share a i &&& share b p.1.1) else 0)) := by
  simp only [iswPair, share_xorShare]
  by_cases hp : p.1.1 = i <;> by_cases hq : p.1.2 = i <;> simp [hp, hq, h8, BitVec.xor_assoc]

/-- Every share of the product is the sum of R162. -/
theorem share_isw {d : Nat} (h8 : d ≤ 8) (a b : ShareVec) {ws : List Word}
    (hw : ws.length = iswDraws d) {i : Nat} (hi : i < d) :
    share (isw d a b ws) i = iswShare d a b ws i := by
  have hsum : iswShare d a b ws i = xorSum d fun j =>
      if j = i then share a i &&& share b i
      else if i < j then ws.getD (pairIndex d i j) 0
      else (share a j &&& share b i) ^^^ ws.getD (pairIndex d j i) 0 ^^^ (share a i &&& share b j) := by
    rw [iswShare, xorSum, xorAll, List.foldl_map]
  rw [isw, measure_foldl (share · i) fun out p _ => share_iswPair a b out p (by omega), share_shareAnd,
    zip_eq_map_index (iswPairs_index h8) (by rw [iswPairs_length h8, hw]), List.map_map, hsum]
  have hpairs := pairSum_at hi (fun p q => ws.getD (pairIndex d p q) 0) fun p q =>
    ((share a p &&& share b i) ^^^ ws.getD (pairIndex d p q) 0) ^^^ (share a i &&& share b p)
  rw [pairSum] at hpairs
  refine (congrArg _ hpairs).trans ?_
  conv_lhs => rw [← xorSum_single hi fun _ => share a i &&& share b i, ← xorSum_xor]
  refine xorSum_congr fun j _ => ?_
  obtain hlt | rfl | hgt := Nat.lt_trichotomy i j
  · simp [hlt, show j ≠ i by omega]
  · simp
  · simp [hgt, show j ≠ i by omega, show ¬ i < j by omega]

/-- The value of the product is the AND of the values, whatever the random words (R162). -/
theorem unmask_isw {d : Nat} (h8 : d ≤ 8) (a b : ShareVec) {ws : List Word}
    (hw : ws.length = iswDraws d) :
    unmask d (isw d a b ws) = unmask d a &&& unmask d b := by
  have hstep : ∀ out, ∀ p ∈ (iswPairs d).zip ws, unmask d (iswPair a b out p) = unmask d out ^^^
      ((share a p.1.1 &&& share b p.1.2) ^^^ (share a p.1.2 &&& share b p.1.1)) := fun out p hp => by
    obtain ⟨hpq, hq⟩ : p.1.1 < p.1.2 ∧ p.1.2 < d := iswPairs_mem (List.of_mem_zip hp).1
    exact unmask_iswPair h8 a b out (i := p.1.1) p.2 (by omega) hq
  rw [isw, measure_foldl (unmask d) hstep, unmask_eq_xorSum, unmask_eq_xorSum, unmask_eq_xorSum,
    xorSum_and_xorSum, xorSum_congr fun i _ => share_shareAnd a b i, pairSum]
  conv_rhs => rw [← List.map_fst_zip (l₁ := iswPairs d) (l₂ := ws) (by rw [iswPairs_length h8, hw])]
  rw [List.map_map]
  rfl

/-- The factors may be swapped (R162). -/
theorem isw_comm (d : Nat) (a b : ShareVec) (ws : List Word) : isw d a b ws = isw d b a ws := by
  have hpair : iswPair a b = iswPair b a := by
    funext out p
    refine congrArg (xorShare (xorShare out p.1.1 p.2) p.1.2) ?_
    rw [BitVec.and_comm (share a _), BitVec.and_comm (share a _)]
    ac_rfl
  simp only [isw, hpair, BitVec.and_comm]

/-! ## Refreshes (R163, R166) -/

/-- One randomisation block of a refresh: word i goes into share i and into the share `dist` above it,
modulo D. -/
def refreshBlock (d dist : Nat) (s : ShareVec) (ws : List Word) : ShareVec :=
  (((List.range d).map fun i => (i, (i + dist) % d)).zip ws).foldl
    (fun s p => xorShare (xorShare s p.1.1 p.2) p.1.2 p.2) s

/-- Below order 4 a refresh is one block. -/
theorem refresh_of_lt {d : Nat} (h : d < 4) (s : ShareVec) (ws : List Word) :
    refresh d s ws = refreshBlock d 1 s ws := by
  simp [refresh, refreshPairs, refreshBlock, h]

/-- From order 4 on a refresh is two blocks, with D words each. -/
theorem refresh_of_ge {d : Nat} (h : 4 ≤ d) (s : ShareVec) {ws : List Word} (hw : d ≤ ws.length) :
    refresh d s ws = refreshBlock d 3 (refreshBlock d 1 s (ws.take d)) (ws.drop d) := by
  have hpairs : refreshPairs d = ((List.range d).map fun i => (i, (i + 1) % d)) ++
      (List.range d).map fun i => (i, (i + 3) % d) := by
    simp [refreshPairs, Nat.not_lt.mpr h]
  rw [refresh, hpairs, ← List.take_append_drop d ws, List.zip_append (by simpa using hw),
    List.foldl_append, List.take_append_drop]
  rfl

/-- The share whose upper neighbour at distance `dist` is share i. -/
theorem neighbour_eq_iff {d dist i j : Nat} (hdist : dist ≤ d) (hi : i < d) (hj : j < d) :
    (j + dist) % d = i ↔ j = (i + d - dist) % d := by
  have hmod : ∀ x, x < 2 * d → x % d = if x < d then x else x - d := fun x hx => by
    split
    · exact Nat.mod_eq_of_lt ‹_›
    · rw [Nat.mod_eq_sub_mod (by omega), Nat.mod_eq_of_lt (by omega)]
  rw [hmod _ (by omega), hmod _ (by omega)]
  split <;> split <;> omega

/-- In a block share i takes its own word and that of the share `dist` below it. -/
theorem share_refreshBlock {d dist : Nat} (h8 : d ≤ 8) (hdist : dist ≤ d) (s : ShareVec)
    {ws : List Word} (hw : d ≤ ws.length) {i : Nat} (hi : i < d) :
    share (refreshBlock d dist s ws) i =
      share s i ^^^ (ws.getD i 0 ^^^ ws.getD ((i + d - dist) % d) 0) := by
  have hstep : ∀ (out : ShareVec) (p : (Nat × Nat) × Word),
      share (xorShare (xorShare out p.1.1 p.2) p.1.2 p.2) i =
        share out i ^^^ ((if p.1.1 = i then p.2 else 0) ^^^ (if p.1.2 = i then p.2 else 0)) :=
    fun out p => by
      simp only [share_xorShare]
      by_cases hp : p.1.1 = i <;> by_cases hq : p.1.2 = i <;>
        simp [hp, hq, show i < 8 by omega]
  have hsum : (xorSum d fun j =>
      (if j = i then ws.getD j 0 else 0) ^^^ (if (j + dist) % d = i then ws.getD j 0 else 0)) =
        ws.getD i 0 ^^^ ws.getD ((i + d - dist) % d) 0 := by
    rw [xorSum_xor, xorSum_single hi,
      xorSum_congr fun j hj => if_congr (neighbour_eq_iff hdist hi hj) rfl rfl,
      xorSum_single (Nat.mod_lt _ (by omega))]
  rw [refreshBlock, measure_foldl (share · i) fun out p _ => hstep out p,
    zip_eq_map_index (index := Prod.fst) (by simp [Function.comp_def]) (by simpa using hw),
    List.map_map, List.map_map]
  exact congrArg _ hsum

/-- Every share of a refreshed sharing is that of R163. -/
theorem share_refresh {d : Nat} (h2 : 2 ≤ d) (h8 : d ≤ 8) (s : ShareVec) {ws : List Word}
    (hw : ws.length = refreshDraws d) {i : Nat} (hi : i < d) :
    share (refresh d s ws) i = refreshShare d s ws i := by
  unfold refreshDraws at hw
  by_cases h4 : d < 4
  · rw [if_pos h4] at hw
    rw [refresh_of_lt h4, share_refreshBlock h8 (by omega) s hw.ge hi]
    simp [refreshShare, h4]
  · rw [if_neg h4] at hw
    have hj : ∀ dist, (i + d - dist) % d < d := fun dist => Nat.mod_lt _ (by omega)
    rw [refresh_of_ge (by omega) s (by omega),
      share_refreshBlock h8 (by omega) _ (by rw [List.length_drop]; omega) hi,
      share_refreshBlock h8 (by omega) s (by rw [List.length_take]; omega) hi]
    simp [refreshShare, h4, List.getD_eq_getElem?_getD, hi, hj]

/-- A refresh keeps the value, whatever the random words (R163). -/
theorem unmask_refresh {d : Nat} (h2 : 2 ≤ d) (h8 : d ≤ 8) (s : ShareVec) (ws : List Word) :
    unmask d (refresh d s ws) = unmask d s := by
  have hstep : ∀ out, ∀ p ∈ (refreshPairs d).zip ws,
      unmask d (xorShare (xorShare out p.1.1 p.2) p.1.2 p.2) = unmask d out ^^^ 0 := fun out p hp => by
    obtain ⟨-, hi, hj⟩ : p.1.1 ≠ p.1.2 ∧ p.1.1 < d ∧ p.1.2 < d :=
      refreshPairs_mem h2 h8 (List.of_mem_zip hp).1
    rw [unmask_refreshStep h8 out p.2 hi hj, word_xor_zero]
  rw [refresh, measure_foldl (unmask d) hstep, xorAll_map_zero fun _ _ => rfl, word_xor_zero]

/-- The shares of a lightweight refresh before the last is completed, and the XOR of the words so far. -/
def lightFold (d : Nat) (s : ShareVec) (ws : List Word) : ShareVec × Word :=
  ((List.range (d - 1)).zip ws).foldl (fun q p => (xorShare q.1 p.1 p.2, q.2 ^^^ p.2)) (s, 0)

theorem lightRefresh_eq (d : Nat) (s : ShareVec) (ws : List Word) :
    lightRefresh d s ws = xorShare (lightFold d s ws).1 (d - 1) (lightFold d s ws).2 := rfl

section
variable {d : Nat} (h8 : d ≤ 8) (s : ShareVec) {ws : List Word} (hw : ws.length = d - 1)
include hw

/-- The accumulated word is the XOR of all the drawn words. -/
theorem lightFold_acc : (lightFold d s ws).2 = xorAll ws := by
  rw [lightFold, measure_foldl Prod.snd (c := Prod.snd) fun _ _ _ => rfl,
    List.map_snd_zip (by simp [hw]), word_zero_xor]

include h8

/-- Every share but the last takes its own word. -/
theorem lightFold_share {i : Nat} (hi : i < d) :
    share (lightFold d s ws).1 i = share s i ^^^ if i + 1 = d then 0 else ws.getD i 0 := by
  have hstep : ∀ (q : ShareVec × Word), ∀ p ∈ (List.range (d - 1)).zip ws,
      share (xorShare q.1 p.1 p.2) i = share q.1 i ^^^ if p.1 = i then p.2 else 0 := fun q p _ => by
    rw [share_xorShare]
    by_cases hp : p.1 = i <;> simp [hp, show i < 8 by omega]
  rw [lightFold, measure_foldl (fun q : ShareVec × Word => share q.1 i) hstep,
    zip_eq_map_index (index := id) (by simp) (by simp [hw]), List.map_map]
  refine congrArg _ ?_
  by_cases hlast : i + 1 = d
  · rw [if_pos hlast]
    refine xorAll_map_zero fun j hj => if_neg ?_
    have := List.mem_range.mp hj
    show ¬ j = i
    omega
  · rw [if_neg hlast]
    exact xorSum_single (by omega) fun j => ws.getD j 0

theorem lightFold_unmask : unmask d (lightFold d s ws).1 = unmask d s ^^^ xorAll ws := by
  have hstep : ∀ (q : ShareVec × Word), ∀ p ∈ (List.range (d - 1)).zip ws,
      unmask d (xorShare q.1 p.1 p.2) = unmask d q.1 ^^^ p.2 := fun q p hp => by
    have : p.1 < d - 1 := List.mem_range.mp (List.of_mem_zip hp).1
    exact unmask_xorShare q.1 p.2 (by omega) (by omega)
  rw [lightFold, measure_foldl (fun q : ShareVec × Word => unmask d q.1) hstep,
    List.map_snd_zip (by simp [hw])]

/-- Every share of a lightly refreshed sharing is that of R166. -/
theorem share_lightRefresh {i : Nat} (hi : i < d) :
    share (lightRefresh d s ws) i = lightRefreshShare d s ws i := by
  rw [lightRefresh_eq, share_xorShare, lightFold_share h8 s hw hi, lightFold_acc s hw, lightRefreshShare]
  by_cases hlast : i + 1 = d
  · simp [hlast, show d - 1 = i by omega, show i < 8 by omega, xorAll]
  · simp [hlast, show d - 1 ≠ i by omega]

/-- A lightweight refresh keeps the value: the last share cancels the other shares' words (R166). -/
theorem unmask_lightRefresh (h1 : 1 ≤ d) : unmask d (lightRefresh d s ws) = unmask d s := by
  rw [lightRefresh_eq, unmask_xorShare _ _ (by omega) (by omega), lightFold_unmask h8 s hw,
    lightFold_acc s hw, BitVec.xor_assoc, BitVec.xor_self]
  exact word_xor_zero _

end

/-- Share i of a fresh sharing is the i-th word (R167). -/
theorem share_freshShares (ws : List Word) {i : Nat} (h8 : i < 8) :
    share (freshShares ws) i = ws.getD i 0 := by
  simp [share_of_lt _ h8, freshShares, List.getD_eq_getElem?_getD]

/-! ## The value a command leaves in its destination -/

theorem WroteV.congr {d : Nat} {r : VReg} {f g : Nat → Word} {a b : Lane} (h : WroteV d r f a b)
    (hfg : ∀ i, i < d → i < 8 → f i = g i) : WroteV d r g a b := by
  intro q i
  rw [h q i]
  by_cases hi : q = r ∧ i.val < d
  · rw [if_pos hi, if_pos hi, hfg i.val hi.2 i.isLt]
  · rw [if_neg hi, if_neg hi]

/-- The destination's value is that of the sharing written. -/
theorem unmask_writeOne (d : Nat) (r : VReg) (new : ShareVec) (lane : Lane) :
    unmask d (lane.writeGroup d r [new]).v[r] = unmask d new := by
  rw [writeOne_v, if_pos rfl, unmask_mergeShares]

/-! ## A ready block runs a command that has no check of its own -/

theorem exec_of_ready {i : Instr} {s : State} (h : s.Ready) (ho : operandBad i = false)
    (hc : checksOf i s = {}) : exec i s = .next (countCommand (bodyOf i s)) := by
  obtain ⟨hf, hv⟩ := h
  refine exec_of_pass hf ?_
  rw [← firstFault_eq_expected, firstFault_eq_none, ho, hc]
  exact ⟨rfl, fun _ => hv, nofun, rfl, rfl, rfl⟩

theorem eq_of_exec_ready {i : Instr} {s t : State} (h : s.Ready) (ho : operandBad i = false)
    (hc : checksOf i s = {}) (ht : exec i s = .next t) : t = countCommand (bodyOf i s) :=
  Host.Outcome.next.inj (ht.symm.trans (exec_of_ready h ho hc))

theorem State.Ready.order_range {s : State} (h : s.Ready) (hi : s.Inv) : 2 ≤ s.order ∧ s.order ≤ 8 :=
  (hi.configured h.2).1

/-- A command that changes every lane and draws nothing. -/
theorem mapLanes_changes {R : Lane → Lane → Prop} {f : Lane → Lane} (hR : ∀ a, R a (f a)) (s : State) :
    countCommand (s.mapLanes f) =
        { s with lanes := (countCommand (s.mapLanes f)).lanes, cmdCount := s.cmdCount + 1 } ∧
      LaneWise R s (countCommand (s.mapLanes f)) :=
  ⟨rfl, forall₂_map_self hR s.lanes⟩

/-- A command that draws and then changes the share-vector file of every lane. -/
theorem drawThen_drewAndWrote {k : Nat} {f : Lane → List Word → Lane} {s : State}
    {R : Lane → List Word → Lane → Prop} (hv : ∀ c ws, f c ws = { c with v := (f c ws).v })
    (hR : ∀ a c ws, c = { a with core := c.core, tape := c.tape } → ws.length = k → R a ws (f c ws)) :
    DrewAndWrote k R s (countCommand (drawThen Config.prng k f s)) := by
  have hs := drawWords_same Config.prng k s
  have hcount : (drawWords Config.prng k s).1.cmdCount = s.cmdCount := by rw [hs.shared]
  refine ⟨?_, ?_, hs.nl, drawWords_length _ k s, fun l a c ws ha hc hws => ?_⟩
  · rw [← hcount]
    rfl
  · have hl : (drawWords Config.prng k s).1.lanes.length = s.nl := hs.nl
    simp [State.nl, drawThen_eq, hl]
  · obtain ⟨c', ws', hc', hws', hlen, hca, hb⟩ := drawThen_lane Config.prng k f s ha
    obtain rfl : c = c' := Option.some.inj (hc.symm.trans hc')
    obtain rfl : ws = ws' := Option.some.inj (hws.symm.trans hws')
    refine ⟨hlen, f c ws, hb, ?_, hR a c ws hca hlen⟩
    rw [hv, hca]

/-- What such a command leaves in every lane, read off the lane and its words. -/
theorem drawThen_laneWise {P : Prng} {k : Nat} {f : Lane → List Word → Lane} {R : Lane → Lane → Prop}
    {s : State}
    (hR : ∀ a c ws, c = { a with core := c.core, tape := c.tape } → ws.length = k → R a (f c ws)) :
    LaneWise R s (countCommand (drawThen P k f s)) := by
  have hlen : (drawThen P k f s).lanes.length = s.lanes.length := by
    have hl : (drawWords P k s).1.lanes.length = s.nl := (drawWords_same P k s).nl
    simp [drawThen_eq, hl, State.nl]
  refine List.forall₂_iff_get.mpr ⟨hlen.symm, fun l hl hl' => ?_⟩
  obtain ⟨c, ws, -, -, hw, hca, hb⟩ := drawThen_lane P k f s (List.getElem?_eq_getElem hl)
  obtain ⟨_, hbl⟩ := List.getElem?_eq_some_iff.mp hb
  exact (congrArg (R s.lanes[l]) hbl).mpr (hR _ c ws hca hw)

/-- A command that draws and then writes words 0..D-1 of one register, from the share-vector file. -/
theorem drawThen_writeOne_drewAndWrote {k : Nat} {r : VReg} {s : State}
    {new : Vector ShareVec 16 → List Word → ShareVec} {g : Vector ShareVec 16 → List Word → Nat → Word}
    (h : ∀ v ws, ws.length = k → ∀ i, i < s.order → i < 8 → share (new v ws) i = g v ws i) :
    DrewAndWrote k (fun a ws b => WroteV s.order r (g a.v ws) a b) s
      (countCommand (drawThen Config.prng k
        (fun lane ws => lane.writeGroup s.order r [new lane.v ws]) s)) :=
  drawThen_drewAndWrote (fun c ws => writeGroup_frame s.order r _ c) fun a c ws hca hw => by
    have hv : c.v = a.v := by rw [hca]
    have hwrote := (writeOne_wrote s.order r (new c.v ws) c).congr (h c.v ws hw)
    unfold WroteV at hwrote ⊢
    rwa [hv] at hwrote ⊢

/-- The value such a command leaves in its destination. -/
theorem drawThen_writeOne_value {P : Prng} {k : Nat} {r : VReg} {s : State}
    {new : Vector ShareVec 16 → List Word → ShareVec} {g : Vector ShareVec 16 → Word}
    (h : ∀ v ws, ws.length = k → unmask s.order (new v ws) = g v) :
    LaneWise (fun a b => unmask s.order b.v[r] = g a.v) s
      (countCommand (drawThen P k (fun lane ws => lane.writeGroup s.order r [new lane.v ws]) s)) :=
  drawThen_laneWise fun a c ws hca hw => by
    rw [unmask_writeOne, h c.v ws hw, hca]

/-! ## The commands -/

/-- Settles O38: share by share from the write of the destination; the value from `unmask_shareXor`. -/
theorem saddXorsShares : Obligations.SaddXorsShares := by
  intro vd va vb s hr
  refine ⟨_, exec_of_ready hr rfl rfl, mapLanes_changes (fun a => ⟨rfl, ?_, ?_⟩) s⟩
  · exact (writeOne_wrote s.order vd _ a).congr fun i _ _ => share_shareXor _ _ i
  · rw [unmask_writeOne, unmask_shareXor]

/-- Settles O39: share 0 is below the order, so the word goes into the value. -/
theorem spubInjectsIntoShareZero : Obligations.SpubInjectsIntoShareZero := by
  intro vd va xk s hr hinv
  obtain ⟨h2, -⟩ := hr.order_range hinv
  refine ⟨_, exec_of_ready hr rfl rfl, mapLanes_changes (fun a => ⟨rfl, ?_, ?_⟩) s⟩
  · refine (writeOne_wrote s.order vd _ a).congr fun i _ _ => ?_
    rw [share_xorShare]
    by_cases hi : i = 0
    · simp [hi]
    · rw [if_neg (by omega), if_neg hi]
  · rw [unmask_writeOne, unmask_xorShare _ _ (by omega) (by omega)]

/-- Settles O40. -/
theorem smovCopiesShares : Obligations.SmovCopiesShares := by
  intro vd va s hr
  exact ⟨_, exec_of_ready hr rfl rfl,
    mapLanes_changes (fun a => ⟨rfl, writeOne_wrote s.order vd _ a⟩) s⟩

/-- Settles O41: `share_isw` on the words of the draws. -/
theorem smulIsIswProduct : Obligations.SmulIsIswProduct := by
  intro vd va vb s hr hinv
  obtain ⟨-, h8⟩ := hr.order_range hinv
  exact ⟨_, exec_of_ready hr rfl rfl, drawThen_writeOne_drewAndWrote
    (new := fun v ws => isw s.order v[va] v[vb] ws) (g := fun v ws => iswShare s.order v[va] v[vb] ws)
    fun v ws hw i hi _ => share_isw h8 v[va] v[vb] hw hi⟩

/-- Settles O42: `unmask_isw` on the words of the draws. -/
theorem smulMultipliesValues : Obligations.SmulMultipliesValues := by
  intro vd va vb s t hr hinv ht
  obtain ⟨-, h8⟩ := hr.order_range hinv
  obtain rfl := eq_of_exec_ready hr rfl rfl ht
  exact drawThen_writeOne_value (new := fun v ws => isw s.order v[va] v[vb] ws)
    (g := fun v => unmask s.order v[va] &&& unmask s.order v[vb])
    fun v ws hw => unmask_isw h8 v[va] v[vb] hw

/-- Settles O43: the product itself is symmetric. -/
theorem smulIsSymmetric : Obligations.SmulIsSymmetric := by
  intro vd va vb s hr _
  rw [exec_of_ready hr rfl rfl, exec_of_ready hr rfl rfl]
  simp only [bodyOf, smulBody, isw_comm]

/-- Settles O44: `share_refresh` on the words of the draws. -/
theorem srefRefreshesShares : Obligations.SrefRefreshesShares := by
  intro vd va s hr hinv
  obtain ⟨h2, h8⟩ := hr.order_range hinv
  exact ⟨_, exec_of_ready hr rfl rfl, drawThen_writeOne_drewAndWrote
    (new := fun v ws => refresh s.order v[va] ws) (g := fun v ws => refreshShare s.order v[va] ws)
    fun v ws hw i hi _ => share_refresh h2 h8 v[va] hw hi⟩

/-- Settles O45: `share_lightRefresh` on the words of the draws. -/
theorem slrefResharesLightly : Obligations.SlrefResharesLightly := by
  intro vd va s hr hinv
  obtain ⟨-, h8⟩ := hr.order_range hinv
  exact ⟨_, exec_of_ready hr rfl rfl, drawThen_writeOne_drewAndWrote
    (new := fun v ws => lightRefresh s.order v[va] ws)
    (g := fun v ws => lightRefreshShare s.order v[va] ws)
    fun v ws hw i hi _ => share_lightRefresh h8 v[va] hw hi⟩

/-- Settles O46: each refresh XORs every word into two shares, or its words and their XOR. -/
theorem refreshesKeepTheValue : Obligations.RefreshesKeepTheValue := by
  intro vd va s t hr hinv ht
  obtain ⟨h2, h8⟩ := hr.order_range hinv
  obtain ht | ht := ht <;> obtain rfl := eq_of_exec_ready hr rfl rfl ht
  · exact drawThen_writeOne_value (new := fun v ws => refresh s.order v[va] ws)
      (g := fun v => unmask s.order v[va])
      fun v ws _ => unmask_refresh h2 h8 v[va] ws
  · exact drawThen_writeOne_value (new := fun v ws => lightRefresh s.order v[va] ws)
      (g := fun v => unmask s.order v[va])
      fun v ws hw => unmask_lightRefresh h8 v[va] hw (by omega)

/-- Settles O47: the drawn words are the shares. -/
theorem sfreshDrawsEveryShare : Obligations.SfreshDrawsEveryShare := by
  intro vd s hr _
  exact ⟨_, exec_of_ready hr rfl rfl, drawThen_writeOne_drewAndWrote
    (new := fun _ ws => freshShares ws) (g := fun _ ws i => ws.getD i 0)
    fun _ ws _ _ _ h8 => share_freshShares ws h8⟩

end Sys2Proof.Machine

/-! Proofs about the PRNG (spec/42_prng.md): the refill (R203), the draw (R201, R202, R205), single draws
against requests (R207), RINIT, RGET and RSTEP (R208-R210), and what does not reach the PRNG (R200). -/

namespace Sys2Proof.Machine

/-! ## The refill (R203) -/

/-- What a refill does to one lane: two PRNG steps, with 8 words read into the tape after each. -/
def refillLane (P : Prng) (a : Lane) : Lane :=
  let first := P.perm a.core
  let second := P.perm first
  { a with
    core := second
    tape := Vector.ofFn fun k =>
      let step := if k.val < 8 then first else second
      step[P.ratePos[k.val % 8]'(Nat.mod_lt _ (by decide))] }

theorem refill_lanes (P : Prng) (s : State) :
    (refill P s).lanes = s.lanes.map (refillLane P) := by
  simp only [refill, extractHalf, State.mapLanes_lanes, stepCores_lanes, List.map_map]
  refine List.map_congr_left fun a _ => ?_
  simp only [Function.comp_apply, refillLane, Lane.mk.injEq, true_and, and_true]
  refine Vector.ext fun k hk => ?_
  simp only [Vector.getElem_ofFn]
  by_cases h : k < 8
  · simp [h, show k / 8 = 0 by omega]
  · simp [h, show k / 8 = 1 by omega]

/-- A refill, field by field. -/
theorem refill_eq (P : Prng) (s : State) :
    refill P s = { s with
      lanes := s.lanes.map (refillLane P), cursor := 0, permCount := s.permCount + 2 } := by
  have hp : (refill P s).permCount = s.permCount + 2 := BitVec.add_assoc s.permCount 1 1
  rw [← refill_lanes, ← hp]
  rfl

/-- Settles O25: a refill does `refillLane` to every lane. -/
theorem refillWritesTheTape : Obligations.RefillWritesTheTape := by
  intro P s t
  have ht : t = _ := refill_eq P s
  rw [ht]
  refine ⟨rfl, forall₂_map_self (fun a => ⟨rfl, fun j => ?_⟩) s.lanes⟩
  have h8 : ¬ 8 + j.val < 8 := by omega
  have hmod : (8 + j.val) % 8 = j.val := by omega
  simp [refillLane, h8, hmod, Nat.mod_eq_of_lt j.isLt]

/-! ## The draw (R201, R202, R205) -/

/-- The tape a draw reads is there already. -/
theorem readyTape_of_left (P : Prng) {s : State} (hr : s.status.prngRun = true)
    (hc : s.cursor.toNat < 16) : readyTape P s = s := by
  rw [readyTape, ensureRunning_of_run P hr, refillAtEnd_of_left P hc]

/-- A draw at the end of the tape refills it. -/
theorem readyTape_of_end (P : Prng) {s : State} (hr : s.status.prngRun = true)
    (hc : 16 ≤ s.cursor.toNat) : readyTape P s = refill P s := by
  rw [readyTape, ensureRunning_of_run P hr, refillAtEnd_of_end P hc]

/-- A draw from an uninitialized PRNG seeds it and fills the tape. -/
theorem readyTape_of_uninit (P : Prng) {s : State} (hr : s.status.prngRun = false) :
    readyTape P s = refill P (seedPrng P s) := by
  rw [readyTape, ensureRunning_of_uninit P hr, refillAtEnd_of_end P (by simp)]

theorem cursorAfterRefill_of_left {s : State} (hr : s.status.prngRun = true)
    (hc : s.cursor.toNat < 16) : cursorAfterRefill s = s.cursor.toNat := by
  simp [cursorAfterRefill, hr, hc]

theorem cursorAfterRefill_of_end {s : State} (hc : 16 ≤ s.cursor.toNat) : cursorAfterRefill s = 0 := by
  simp [cursorAfterRefill, hc]

theorem cursorAfterRefill_of_uninit {s : State} (hr : s.status.prngRun = false) :
    cursorAfterRefill s = 0 := by
  simp [cursorAfterRefill, hr]

/-- A draw moves CURSOR of the tape it reads. -/
theorem draw_state (P : Prng) (n : Nat) (s : State) :
    (draw P n s).1 =
      { readyTape P s with cursor := BitVec.ofNat 5 (cursorAfterRefill s + n) } := by
  rw [← readyTape_cursor_eq P s, BitVec.ofNat_add, BitVec.ofNat_toNat, BitVec.setWidth_eq]
  rfl

theorem draw_cursor (P : Prng) {n : Nat} {s : State} (hn : cursorAfterRefill s + n ≤ 16) :
    (draw P n s).1.cursor.toNat = cursorAfterRefill s + n := by
  rw [draw_state]
  exact Nat.mod_eq_of_lt (by omega)

@[simp] theorem draw_run (P : Prng) (n : Nat) (s : State) : (draw P n s).1.status.prngRun = true :=
  readyTape_run P s

/-- The words of a draw stand on the tape it leaves, or are zeros (R205). -/
theorem draw_words (P : Prng) (n : Nat) (s : State) :
    (draw P n s).2 = (draw P n s).1.lanes.map fun b => (List.range n).map fun k =>
      if s.cfg.rngDis then 0 else b.tapeWord (cursorAfterRefill s + k) := by
  rw [← readyTape_cursor_eq P s, ← (readyTape_same P s).cfg]
  rfl

/-- Settles O26: the three cases are those of the tape a draw reads. -/
theorem drawHandsOutTapeWords : Obligations.DrawHandsOutTapeWords := by
  intro s n _ _ hn r seeded
  refine ⟨fun hr hc => ?_, fun hr hc => ?_, fun hr => ?_, draw_cursor _ hn, draw_words _ n s⟩
  · refine (draw_state _ n s).trans ?_
    rw [readyTape_of_left _ hr hc, cursorAfterRefill_of_left hr hc]
  · refine (draw_state _ n s).trans ?_
    rw [readyTape_of_end _ hr hc.ge, cursorAfterRefill_of_end hc.ge, Nat.zero_add]
  · refine (draw_state _ n s).trans ?_
    rw [readyTape_of_uninit _ hr, cursorAfterRefill_of_uninit hr, Nat.zero_add]
    rfl

/-! ## Single draws -/

/-- The refills one draw makes. -/
def refillsOfDraw (s : State) : Nat := if s.status.prngRun = true ∧ s.cursor.toNat < 16 then 0 else 1

theorem draw_permCount (P : Prng) (n : Nat) (s : State) :
    (draw P n s).1.permCount = s.permCount + BitVec.ofNat 32 (2 * refillsOfDraw s) := by
  rw [draw_state]
  cases hr : s.status.prngRun with
  | false => simp [readyTape_of_uninit P hr, refill_eq, refillsOfDraw, hr]
  | true =>
    by_cases hc : s.cursor.toNat < 16
    · simp [readyTape_of_left P hr hc, refillsOfDraw, hr, hc]
    · simp [readyTape_of_end P hr (Nat.not_lt.mp hc), refill_eq, refillsOfDraw, hc]

/-- What the next draw does after one that took word `c` of the tape. -/
theorem next_draw_of_run {t : State} {c : Nat} (hr : t.status.prngRun = true)
    (hc : t.cursor.toNat = c + 1) (hlt : c < 16) :
    cursorAfterRefill t = (c + 1) % 16 ∧ refillsOfDraw t = (c + 1) / 16 := by
  simp only [cursorAfterRefill, refillsOfDraw, hr, hc, Bool.true_and, decide_eq_true_eq, true_and]
  split <;> omega

/-- After a single draw the next one starts a word further on, or at the head of a new tape. -/
theorem next_draw (P : Prng) (s : State) :
    cursorAfterRefill (draw P 1 s).1 = (cursorAfterRefill s + 1) % 16 ∧
      refillsOfDraw (draw P 1 s).1 = (cursorAfterRefill s + 1) / 16 :=
  next_draw_of_run (draw_run P 1 s) (draw_cursor P (cursorAfterRefill_lt s)) (cursorAfterRefill_lt s)

theorem drawWords_succ_cursor (P : Prng) (k : Nat) (s : State) :
    (drawWords P (k + 1) s).1.cursor.toNat = (cursorAfterRefill s + k) % 16 + 1 := by
  induction k generalizing s with
  | zero =>
    have hlt := cursorAfterRefill_lt s
    rw [drawWords, drawWords, draw_cursor P hlt, Nat.add_zero (cursorAfterRefill s),
      Nat.mod_eq_of_lt hlt]
  | succ k ih =>
    rw [drawWords, ih, (next_draw P s).1]
    omega

theorem drawWords_succ_run (P : Prng) (k : Nat) (s : State) :
    (drawWords P (k + 1) s).1.status.prngRun = true := by
  induction k generalizing s with
  | zero => exact draw_run P 1 s
  | succ k ih => exact ih _

theorem drawWords_succ_permCount (P : Prng) (k : Nat) (s : State) :
    (drawWords P (k + 1) s).1.permCount =
      s.permCount + BitVec.ofNat 32 (2 * ((cursorAfterRefill s + k) / 16 + refillsOfDraw s)) := by
  induction k generalizing s with
  | zero =>
    rw [drawWords, drawWords, draw_permCount, Nat.add_zero, Nat.div_eq_of_lt (cursorAfterRefill_lt s),
      Nat.zero_add]
  | succ k ih =>
    obtain ⟨hc, hr⟩ := next_draw P s
    rw [drawWords, ih, draw_permCount, BitVec.add_assoc, ← BitVec.ofNat_add, hc, hr]
    congr 2
    omega

/-- With RNG_DIS = 1 a draw hands out zeros (R205). -/
theorem draw_disabled (P : Prng) (n : Nat) {s : State} (hd : s.cfg.rngDis = true) {ws : List Word}
    (h : ws ∈ (draw P n s).2) : ∀ w ∈ ws, w = 0 := by
  rw [draw_words, List.mem_map] at h
  obtain ⟨b, -, rfl⟩ := h
  simp [hd]

/-- With RNG_DIS = 1 single draws hand out zeros (R205). -/
theorem drawWords_disabled (P : Prng) (k : Nat) {s : State} (hd : s.cfg.rngDis = true) {ws : List Word}
    (h : ws ∈ (drawWords P k s).2) : ∀ w ∈ ws, w = 0 := by
  induction k generalizing s ws with
  | zero =>
    obtain ⟨_, -, rfl⟩ := List.mem_map.mp h
    simp
  | succ k ih =>
    simp only [drawWords, List.mem_iff_getElem, List.length_zipWith, List.getElem_zipWith] at h
    obtain ⟨l, hl, rfl⟩ := h
    intro w hw
    obtain hw | hw := List.mem_append.mp hw
    · exact draw_disabled P 1 hd (List.getElem_mem _) w hw
    · exact ih (by rw [(draw_same P 1 s).cfg, hd]) (List.getElem_mem _) w hw

/-- Settles O27: CURSOR and PERM_COUNT by induction over the draws. -/
theorem drawsChangeOnlyThePrng : Obligations.DrawsChangeOnlyThePrng := by
  intro s k _ hk r c0 refills
  obtain ⟨k, rfl⟩ : ∃ j, k = j + 1 := ⟨k - 1, by omega⟩
  have hs : SameButPrng s r.1 := drawWords_same Config.prng _ s
  have hcursor : r.1.cursor = BitVec.ofNat 5 ((c0 + (k + 1) - 1) % 16 + 1) := by
    refine BitVec.eq_of_toNat_eq ?_
    rw [drawWords_succ_cursor, BitVec.toNat_ofNat]
    exact (Nat.mod_eq_of_lt (by omega)).symm
  have hperm : r.1.permCount = s.permCount + BitVec.ofNat 32 (2 * refills) :=
    drawWords_succ_permCount Config.prng k s
  have hrun : r.1.status.prngRun = true := drawWords_succ_run Config.prng k s
  refine ⟨?_, hs.lanes, drawWords_length _ _ s, fun ws hws =>
    ⟨drawWords_each _ _ s hws, fun hd => drawWords_disabled _ _ hd hws⟩⟩
  have hshared := hs.shared
  rw [hcursor, hperm, hrun] at hshared
  exact hshared

/-! ## Single draws are one request (R207) -/

theorem zipWith_append_nil (xs : List (List Word)) {l : List Lane} (h : xs.length = l.length) :
    List.zipWith (· ++ ·) xs (l.map fun _ => []) = xs := by
  refine List.ext_getElem (by simp [h]) fun k _ _ => ?_
  simp

theorem drawWords_one (P : Prng) (s : State) : drawWords P 1 s = draw P 1 s := by
  have h : (draw P 1 s).2.length = (draw P 1 s).1.lanes.length :=
    (draw_words_length P 1 s).trans (draw_same P 1 s).nl.symm
  rw [drawWords, drawWords, zipWith_append_nil _ h]

/-- A request is its first word and a request for the rest, when the rest is on the same tape. -/
theorem draw_succ (P : Prng) (n : Nat) {s : State} (hc : cursorAfterRefill s + 1 < 16) :
    draw P (n + 1) s = ((draw P n (draw P 1 s).1).1,
      List.zipWith (· ++ ·) (draw P 1 s).2 (draw P n (draw P 1 s).1).2) := by
  have hcur : (draw P 1 s).1.cursor.toNat = cursorAfterRefill s + 1 := draw_cursor P hc.le
  have hready : readyTape P (draw P 1 s).1 = (draw P 1 s).1 :=
    readyTape_of_left P (draw_run P 1 s) (hcur ▸ hc)
  have hc0 : cursorAfterRefill (draw P 1 s).1 = cursorAfterRefill s + 1 :=
    (next_draw P s).1.trans (Nat.mod_eq_of_lt hc)
  have hlanes : ∀ m, (draw P m s).1.lanes = (readyTape P s).lanes := fun _ => rfl
  refine Prod.ext ?_ ?_
  · rw [draw_state, draw_state P n, hready, hc0, draw_state P 1, Nat.add_assoc, Nat.add_comm 1 n]
  · rw [draw_words, draw_words P 1, draw_words P n, draw_state P n, hready, hc0, (draw_same P 1 s).cfg,
      hlanes, hlanes, List.zipWith_map, List.zipWith_self]
    refine List.map_congr_left fun b _ => ?_
    simp only [List.range_succ_eq_map, List.range_zero, List.map_nil, List.map_cons, List.map_map,
      List.singleton_append, Nat.add_assoc, Nat.add_comm 1]
    rfl

theorem drawWords_eq_draw (P : Prng) {n : Nat} {s : State} (h1 : 1 ≤ n)
    (hn : cursorAfterRefill s + n ≤ 16) : drawWords P n s = draw P n s := by
  induction n, h1 using Nat.le_induction generalizing s with
  | base => exact drawWords_one P s
  | succ n h1 ih =>
    have hc : cursorAfterRefill s + 1 < 16 := by omega
    have hc0 := (next_draw P s).1.trans (Nat.mod_eq_of_lt hc)
    rw [draw_succ P n hc, drawWords, ih (s := (draw P 1 s).1) (by omega)]

/-- Settles O28: the first word starts the request, the rest is on the same tape. -/
theorem singleDrawsAreOneRequest : Obligations.SingleDrawsAreOneRequest :=
  fun _ _ _ h1 hn => drawWords_eq_draw Config.prng h1 hn

/-! ## RINIT (R208) -/

/-- An UNINIT block holds the zeros RINIT writes. -/
theorem rinitBody_of_uninit {s : State} (h : s.Inv) (hr : s.status.prngRun = false) :
    rinitBody s = s := by
  obtain ⟨hc, hz⟩ := h.uninit hr
  have hl : (rinitBody s).lanes = s.lanes := by
    refine (List.map_congr_left fun a ha => ?_).trans (List.map_id _)
    have hza := hz a ha
    obtain ⟨v, x, seed, core, tape, tk⟩ := a
    obtain ⟨rfl, rfl⟩ := hza
    rfl
  calc rinitBody s
      = { s with
          lanes := (rinitBody s).lanes, cursor := 0, status := { s.status with prngRun := false } } := rfl
    _ = s := by rw [hl, ← hc, ← hr]

/-- Settles O30: what RINIT writes is what an UNINIT block holds. -/
theorem rinitReturnsToUninit : Obligations.RinitReturnsToUninit := by
  intro s hr
  have he : exec .rinit s = .next (countCommand (rinitBody s)) := exec_of_ready hr rfl rfl
  refine ⟨⟨_, he, rfl, forall₂_map_self (fun a => ?_) s.lanes⟩, fun hinv hu => ?_⟩
  · rfl
  · rw [he, rinitBody_of_uninit hinv hu]
    rfl

/-! ## RGET (R209) -/

/-- RGET with operands in range meets E_TAPE or nothing on a ready block. -/
theorem expectedFault_rget {s : State} (h : s.Ready) {xk : XReg} {n : Imm} (h1 : 1 ≤ n.val)
    (h16 : n.val ≤ 16) (hx : xk.val + n.val ≤ 16) :
    expectedFault (.rget xk n) s = if 16 < cursorAfterRefill s + n.val then some .tape else none := by
  obtain ⟨-, hv⟩ := h
  have ho : operandBad (.rget xk n) = false := by
    rw [operandBad_eq_not_wf]
    simp [Instr.wf, h1, h16, hx]
  rw [← firstFault_eq_expected, ho]
  simp [firstFault, checksOf, hv]

/-- RGET runs where the tape has its words. -/
theorem exec_rget {s : State} (h : s.Ready) {xk : XReg} {n : Imm} (h1 : 1 ≤ n.val)
    (h16 : n.val ≤ 16) (hx : xk.val + n.val ≤ 16) (hn : cursorAfterRefill s + n.val ≤ 16) :
    exec (.rget xk n) s = .next (countCommand (rgetBody Config.prng xk n.val s)) :=
  exec_of_pass h.1 (by rw [expectedFault_rget h h1 h16 hx, if_neg (Nat.not_lt.mpr hn)])

/-- RGET changes the shared registers as its draw does. -/
theorem rgetBody_shared (P : Prng) (xk : XReg) (n : Nat) (s : State) :
    countCommand (rgetBody P xk n s) =
      { (draw P n s).1 with
        lanes := (rgetBody P xk n s).lanes, cmdCount := s.cmdCount + 1 } := by
  have hcount : (draw P n s).1.cmdCount = s.cmdCount := by rw [(draw_same P n s).shared]
  rw [← hcount]
  rfl

/-- A write of public words changes X only. -/
theorem writePublic_frame (k : XReg) (ws : List Word) (a : Lane) :
    a.writePublic k ws = { a with x := (a.writePublic k ws).x } := rfl

/-- The public registers after a write of consecutive words. -/
theorem writePublic_x (k : XReg) (ws : List Word) (a : Lane) (j : XReg) :
    (a.writePublic k ws).x[j] =
      if k.val ≤ j.val ∧ j.val < k.val + ws.length then ws.getD (j.val - k.val) 0 else a.x[j] := by
  simp only [Lane.writePublic, Fin.getElem_fin, Vector.getElem_ofFn]
  by_cases hk : k.val ≤ j.val
  · by_cases hj : j.val < k.val + ws.length
    · simp [hk, hj, show j.val - k.val < ws.length by omega]
    · simp [hk, hj, show ws.length ≤ j.val - k.val by omega]
  · simp [hk]

/-- Lane l of a relation between the lanes before and after. -/
theorem forall₂_getElem? {R : Lane → Lane → Prop} {xs ys : List Lane} (h : List.Forall₂ R xs ys) {l : Nat}
    {a b : Lane} (ha : xs[l]? = some a) (hb : ys[l]? = some b) : R a b := by
  obtain ⟨hx, rfl⟩ := List.getElem?_eq_some_iff.mp ha
  obtain ⟨hy, rfl⟩ := List.getElem?_eq_some_iff.mp hb
  exact (List.forall₂_iff_get.mp h).2 l hx hy

/-- Settles O31: the words written are those of the draw, lane by lane. -/
theorem rgetFillsPublicRegisters : Obligations.RgetFillsPublicRegisters := by
  intro xk n s hr _ h1 h16 hx
  refine ⟨fun hn => ?_, fun hn => ?_⟩
  · exact exec_of_fault hr.1 (by rw [expectedFault_rget hr h1 h16 hx, if_pos hn])
  intro r
  have hs : SameButPrng s r.1 := draw_same Config.prng n.val s
  have hlen : r.2.length = s.nl := draw_words_length Config.prng n.val s
  refine ⟨_, exec_rget hr h1 h16 hx hn, rgetBody_shared Config.prng xk n.val s,
    (rgetBody_body Config.prng xk n.val s).keepsConfig.nl, hs.nl, hlen, fun l a c ws ha hc hws => ?_⟩
  have hw : ws.length = n.val := draw_words_each Config.prng n.val s (List.mem_of_getElem? hws)
  have hca : c = { a with core := c.core, tape := c.tape } := forall₂_getElem? hs.lanes ha hc
  refine ⟨hw, c.writePublic xk ws, ?_, ?_, fun j => ?_⟩
  · exact (List.getElem?_zipWith ..).trans (by rw [hc, hws])
  · rw [writePublic_frame, hca]
  · rw [writePublic_x, hw, hca]

/-- A draw that refills starts at the head of the tape. -/
theorem cursorAfterRefill_of_refill {s : State} (h : refillsOfDraw s = 1) : cursorAfterRefill s = 0 := by
  have hn : ¬ (s.status.prngRun = true ∧ s.cursor.toNat < 16) := fun hc => by
    simp [refillsOfDraw, hc] at h
  rw [cursorAfterRefill, if_neg (by simpa using hn)]

/-- A request for all 16 words that needs a refill makes one and uses up its tape. -/
theorem exec_rget_full {s : State} (h : s.Ready) (hr : refillsOfDraw s = 1) :
    ∃ t, exec (.rget 0 16) s = .next t ∧ t.Ready ∧ refillsOfDraw t = 1 ∧
      t.permCount = s.permCount + 2 ∧ t.cursor = 16 ∧ t.cmdCount = s.cmdCount + 1 := by
  have hc := cursorAfterRefill_of_refill hr
  have hcur : (draw Config.prng 16 s).1.cursor = 16 := by rw [draw_state, hc]; rfl
  have hst : (draw Config.prng 16 s).1.status = { s.status with prngRun := true } := by
    rw [(draw_same Config.prng 16 s).shared, draw_run]
  have hperm := draw_permCount Config.prng 16 s
  rw [hr] at hperm
  refine ⟨_, exec_rget h (by decide) (by decide) (by decide) (by rw [hc]; decide), ?_⟩
  rw [show (16 : Imm).val = 16 from rfl, rgetBody_shared]
  refine ⟨?_, ?_, hperm, hcur, rfl⟩
  · unfold State.Ready
    rw [hst]
    exact h
  · simp [refillsOfDraw, hcur]

/-- Settles O29: neither request has a word left on the tape, and each uses up a tape. -/
theorem twoFullRequestsRefillTwice : Obligations.TwoFullRequestsRefillTwice := by
  intro s _ hr hu
  obtain ⟨t, ht, hrt, hrefill, htp, -, htc⟩ := exec_rget_full hr (by simp [refillsOfDraw, hu])
  obtain ⟨u, hu, -, -, hup, huc, hucount⟩ := exec_rget_full hrt hrefill
  refine ⟨t, u, ht, hu, htp, ?_, huc, ?_⟩
  · rw [hup, htp, BitVec.add_assoc]
    rfl
  · rw [hucount, htc, BitVec.add_assoc]
    rfl

/-! ## RSTEP (R210) -/

/-- RSTEP, field by field. -/
theorem rstepBody_eq (P : Prng) (s : State) :
    rstepBody P s = { s with
      lanes := s.lanes.map fun a =>
        { a with core := P.perm (if s.status.prngRun then a.core else P.seedInit a.seed) }
      permCount := s.permCount + 1
      cursor := if s.status.prngRun then s.cursor else 16
      status := { s.status with prngRun := true } } := by
  cases hr : s.status.prngRun with
  | true =>
    have hs : { s.status with prngRun := true } = s.status := by rw [← hr]
    rw [rstepBody, ensureRunning_of_run P hr, hs]
    rfl
  | false =>
    rw [rstepBody, ensureRunning_of_uninit P hr]
    simp [stepCores, seedPrng]

/-- Settles O32: RSTEP is `rstepBody_eq` and the count. -/
theorem rstepAdvancesTheCore : Obligations.RstepAdvancesTheCore := by
  intro s hr
  have he : exec .rstep s = .next (countCommand (rstepBody Config.prng s)) := exec_of_ready hr rfl rfl
  rw [rstepBody_eq] at he
  refine ⟨_, he, rfl, forall₂_map_self (fun a => ?_) s.lanes⟩
  rfl

/-! ## What the PRNG does not read (R200, R205)

`s.prngView` blanks V, X, TK and RNG_DIS. Every command leaves blocks of equal view with equal view. -/

/-- The banked registers the PRNG does not read. -/
def unreadByPrng : List Target := [.v, .x, .tk]

/-- The lane with V, X and TK blanked. -/
def Lane.prngView (a : Lane) : Lane :=
  { resetLane with seed := a.seed, core := a.core, tape := a.tape }

/-- The block with V, X and TK of every lane and RNG_DIS blanked. -/
def State.prngView (s : State) : State :=
  { s with lanes := s.lanes.map Lane.prngView, cfg := { s.cfg with rngDis := false } }

theorem LaneWithin.prngView {a b : Lane} (h : LaneWithin unreadByPrng a b) :
    b.prngView = a.prngView := by
  simp [Lane.prngView, unreadByPrng, h.seed, h.core, h.tape]

/-- Lanes have the same view exactly when they differ in V, X and TK only. -/
theorem Lane.prngView_eq_iff {a b : Lane} :
    b.prngView = a.prngView ↔ b = { a with v := b.v, x := b.x, tk := b.tk } := by
  cases a
  cases b
  simp [Lane.prngView]

theorem map_prngView_eq_iff {xs ys : List Lane} :
    ys.map Lane.prngView = xs.map Lane.prngView ↔
      List.Forall₂ (fun a b : Lane => b = { a with v := b.v, x := b.x, tk := b.tk }) xs ys := by
  simp only [← Lane.prngView_eq_iff]
  rw [eq_comm, ← List.forall₂_eq_eq_eq, List.forall₂_map_left_iff, List.forall₂_map_right_iff]
  simp only [eq_comm]

/-- Blocks have the same view exactly when they differ in V, X, TK and RNG_DIS only. -/
theorem prngView_eq_iff {s t : State} :
    t.prngView = s.prngView ↔
      t = { s with lanes := t.lanes, cfg := { s.cfg with rngDis := t.cfg.rngDis } } ∧
        LaneWise (fun a b => b = { a with v := b.v, x := b.x, tk := b.tk }) s t := by
  rw [LaneWise, ← map_prngView_eq_iff]
  obtain ⟨_, ⟨_, _, _⟩, _⟩ := s
  obtain ⟨_, ⟨_, _, _⟩, _⟩ := t
  simp only [State.prngView, State.mk.injEq, Cfg.mk.injEq, and_true, true_and]
  exact and_comm

/-! ### Operations that write V, X or TK only -/

theorem mapLanes_prngView {f : Lane → Lane} (hf : ∀ a, LaneWithin unreadByPrng a (f a)) (s : State) :
    (s.mapLanes f).prngView = s.prngView := by
  simp [State.prngView, State.mapLanes, fun a => (hf a).prngView]

theorem zipLanes_prngView {f : Lane → List Word → Lane}
    (hf : ∀ a ws, LaneWithin unreadByPrng a (f a ws)) (s : State) {ws : List (List Word)}
    (hl : ws.length = s.nl) : (s.zipLanes f ws).prngView = s.prngView := by
  have h := map_prngView_eq_iff.mpr ((forall₂_zipWith_self hf hl).imp fun _ _ hab =>
    Lane.prngView_eq_iff.mp hab.prngView)
  simp [State.prngView, State.zipLanes, h]

/-! ### The PRNG -/

@[simp] theorem seedPrng_prngView (P : Prng) (s : State) :
    seedPrng P s.prngView = (seedPrng P s).prngView := by
  simp [State.prngView, seedPrng, Lane.prngView]

@[simp] theorem stepCores_prngView (P : Prng) (s : State) :
    stepCores P s.prngView = (stepCores P s).prngView := by
  simp [State.prngView, stepCores, Lane.prngView]

@[simp] theorem extractHalf_prngView (P : Prng) (h : Nat) (s : State) :
    extractHalf P h s.prngView = (extractHalf P h s).prngView := by
  simp [State.prngView, extractHalf, State.mapLanes, Lane.prngView]

@[simp] theorem refill_prngView (P : Prng) (s : State) :
    refill P s.prngView = (refill P s).prngView := by
  simp only [refill, stepCores_prngView, extractHalf_prngView]
  rfl

@[simp] theorem ensureRunning_prngView (P : Prng) (s : State) :
    ensureRunning P s.prngView = (ensureRunning P s).prngView := by
  cases hr : s.status.prngRun with
  | true => rw [ensureRunning_of_run P hr, ensureRunning_of_run P (s := s.prngView) hr]
  | false =>
    rw [ensureRunning_of_uninit P hr, ensureRunning_of_uninit P (s := s.prngView) hr, seedPrng_prngView]

@[simp] theorem readyTape_prngView (P : Prng) (s : State) :
    readyTape P s.prngView = (readyTape P s).prngView := by
  rw [readyTape, readyTape, ensureRunning_prngView]
  by_cases hc : 16 ≤ (ensureRunning P s).cursor.toNat
  · rw [refillAtEnd_of_end P hc, refillAtEnd_of_end P (s := (ensureRunning P s).prngView) hc,
      refill_prngView]
  · rw [Nat.not_le] at hc
    rw [refillAtEnd_of_left P hc, refillAtEnd_of_left P (s := (ensureRunning P s).prngView) hc]

theorem draw_prngView (P : Prng) (n : Nat) (s : State) :
    (draw P n s.prngView).1 = (draw P n s).1.prngView := by
  simp only [draw, readyTape_prngView]
  rfl

theorem drawWords_prngView (P : Prng) (k : Nat) (s : State) :
    (drawWords P k s.prngView).1 = (drawWords P k s).1.prngView := by
  induction k generalizing s with
  | zero => rfl
  | succ k ih => rw [drawWords, drawWords, draw_prngView, ih]

/-- The words drawn do not reach the PRNG: they go to V or X. -/
theorem drawThen_prngView (P : Prng) (k : Nat) {f : Lane → List Word → Lane}
    (hf : ∀ a ws, LaneWithin unreadByPrng a (f a ws)) (s : State) :
    (drawThen P k f s).prngView = (drawWords P k s.prngView).1 := by
  rw [drawWords_prngView]
  exact zipLanes_prngView hf _ (by rw [drawWords_length, (drawWords_same P k s).nl])

theorem rgetBody_prngView (P : Prng) (xk : XReg) (n : Nat) (s : State) :
    (rgetBody P xk n s).prngView = (draw P n s.prngView).1 := by
  rw [rgetBody_eq, draw_prngView]
  exact zipLanes_prngView (fun a ws => (writePublic_within xk ws a).mono (by simp [unreadByPrng])) _
    (by rw [draw_words_length, (draw_same P n s).nl])

theorem rinitBody_prngView (s : State) : rinitBody s.prngView = (rinitBody s).prngView := by
  simp [State.prngView, rinitBody, Lane.prngView]

/-! ### The datapath -/

theorem writeGroup_unread (d base : Nat) (new : List ShareVec) (a : Lane) :
    LaneWithin unreadByPrng a (a.writeGroup d base new) :=
  (writeGroup_within d base new a).mono (by simp [unreadByPrng])

/-- An Sbox layer leaves the PRNG as its draws do. -/
theorem sboxLayer_prngView (P : Prng) (r : VReg) (ref : Bool) (s : State) :
    (sboxLayer P r ref s).prngView = (drawWords P (sboxDraws s.prngView.order ref) s.prngView).1 :=
  drawThen_prngView P _ (fun a _ => writeGroup_unread _ _ _ a) s

theorem linearHalf_prngView (s : State) : (linearHalf s).prngView = advanceRc s.prngView := by
  have hl : (lboxLayer s).prngView = s.prngView := mapLanes_prngView (fun a => writeGroup_unread _ _ _ a) s
  have hi : (injectRc (lboxLayer s)).prngView = (lboxLayer s).prngView :=
    mapLanes_prngView (fun a => writeGroup_unread _ _ _ a) _
  rw [← hl, ← hi]
  rfl

theorem minitBody_prngView (s : State) :
    (minitBody s).prngView = { s.prngView with
      rc := 0x08, off := 0x924, status := { s.status with dpInit := true } } := by
  simp [minitBody, State.prngView, Lane.prngView]

theorem mkeyBody_prngView (s : State) :
    (mkeyBody s).prngView = { s.prngView with off := s.off >>> 2 } := by
  simp [mkeyBody, State.prngView, Lane.prngView]

section
variable {s s' : State}

theorem minitBody_prngView_congr (h : s.prngView = s'.prngView) :
    (minitBody s).prngView = (minitBody s').prngView := by
  have hs : s.status = s'.status := (congrArg State.status h :)
  rw [minitBody_prngView, minitBody_prngView, h, hs]

theorem mkeyBody_prngView_congr (h : s.prngView = s'.prngView) :
    (mkeyBody s).prngView = (mkeyBody s').prngView := by
  have ho : s.off = s'.off := (congrArg State.off h :)
  rw [mkeyBody_prngView, mkeyBody_prngView, h, ho]

theorem sboxLayer_prngView_congr (P : Prng) (r : VReg) (ref : Bool) (h : s.prngView = s'.prngView) :
    (sboxLayer P r ref s).prngView = (sboxLayer P r ref s').prngView := by
  rw [sboxLayer_prngView, sboxLayer_prngView, h]

theorem linearHalf_prngView_congr (h : s.prngView = s'.prngView) :
    (linearHalf s).prngView = (linearHalf s').prngView := by
  rw [linearHalf_prngView, linearHalf_prngView, h]

theorem setEarly_prngView_congr (b : Bool) (h : s.prngView = s'.prngView) :
    (setEarly b s).prngView = (setEarly b s').prngView :=
  congrArg (setEarly b) h

theorem mpermRounds_prngView_congr (P : Prng) (m : ExitMarker) (n r : Nat)
    (h : s.prngView = s'.prngView) :
    (mpermRounds P m n r s).prngView = (mpermRounds P m n r s').prngView := by
  induction n generalizing r s s' with
  | zero => exact h
  | succ n ih =>
    have h1 := sboxLayer_prngView_congr P 0 true h
    have h2 := sboxLayer_prngView_congr P 0 false (linearHalf_prngView_congr h1)
    simp only [mpermRounds]
    split
    · exact setEarly_prngView_congr true h1
    · split
      · exact setEarly_prngView_congr true h2
      · exact ih _ (mkeyBody_prngView_congr (linearHalf_prngView_congr h2))

theorem mpermBody_prngView_congr (P : Prng) (h : s.prngView = s'.prngView) :
    (mpermBody P s).prngView = (mpermBody P s').prngView := by
  have hm : s.exit = s'.exit := (congrArg State.exit h :)
  have hn : s.rounds = s'.rounds := (congrArg State.rounds h :)
  rw [mpermBody, mpermBody, hm, hn]
  exact mpermRounds_prngView_congr P _ _ _ (setEarly_prngView_congr false (minitBody_prngView_congr h))

/-- A command that writes one group of share-vectors and draws nothing. -/
theorem mapLanes_writeGroup_prngView_congr {d d' base : Nat} {new new' : Lane → List ShareVec}
    (h : s.prngView = s'.prngView) :
    (s.mapLanes fun a => a.writeGroup d base (new a)).prngView =
      (s'.mapLanes fun a => a.writeGroup d' base (new' a)).prngView := by
  rw [mapLanes_prngView fun a => writeGroup_unread d base _ a,
    mapLanes_prngView fun a => writeGroup_unread d' base _ a, h]

/-- A command that draws, as many words as the order says, and writes one group of share-vectors. -/
theorem drawThen_writeGroup_prngView_congr {P : Prng} (k : Nat → Nat) {d d' base : Nat}
    {new new' : Lane → List Word → List ShareVec} (h : s.prngView = s'.prngView) :
    (drawThen P (k s.order) (fun a ws => a.writeGroup d base (new a ws)) s).prngView =
      (drawThen P (k s'.order) (fun a ws => a.writeGroup d' base (new' a ws)) s').prngView := by
  have ho : s.order = s'.order := (congrArg State.order h :)
  rw [drawThen_prngView P _ fun a _ => writeGroup_unread d base _ a,
    drawThen_prngView P _ fun a _ => writeGroup_unread d' base _ a, h, ho]

/-! ### Commands -/

/-- The execution of any command leaves blocks of equal view with equal view. -/
theorem bodyOf_prngView_congr (i : Instr) (h : s.prngView = s'.prngView) :
    (bodyOf i s).prngView = (bodyOf i s').prngView := by
  cases i with
  | nop => exact h
  | sadd | spub | smov | slbox =>
    exact mapLanes_writeGroup_prngView_congr h
  | smul => exact drawThen_writeGroup_prngView_congr iswDraws h
  | sref => exact drawThen_writeGroup_prngView_congr refreshDraws h
  | slref => exact drawThen_writeGroup_prngView_congr (· - 1) h
  | sfresh => exact drawThen_writeGroup_prngView_congr id h
  | ssbox => exact sboxLayer_prngView_congr _ _ _ h
  | minit => exact minitBody_prngView_congr h
  | mhalf => exact linearHalf_prngView_congr (sboxLayer_prngView_congr _ _ _ h)
  | mkey => exact mkeyBody_prngView_congr h
  | mperm => exact mpermBody_prngView_congr _ h
  | rinit =>
    rw [bodyOf, ← rinitBody_prngView, ← rinitBody_prngView, h]
  | rget =>
    rw [bodyOf, rgetBody_prngView, rgetBody_prngView, h]
  | rstep =>
    rw [bodyOf, rstepBody, rstepBody, ← stepCores_prngView, ← stepCores_prngView, ← ensureRunning_prngView,
      ← ensureRunning_prngView, h]

/-- Blocks of equal view meet the same checks, and a command leaves them with equal view. -/
theorem exec_prngView_congr {i : Instr} {t t' : State} (h : s.prngView = s'.prngView)
    (he : exec i s = .next t) (he' : exec i s' = .next t') : t.prngView = t'.prngView := by
  have hfault : s.status.fault = s'.status.fault := congrArg (·.status.fault) h
  have hexp : expectedFault i s = expectedFault i s' := (congrArg (expectedFault i) h :)
  obtain ⟨hf, rfl⟩ | ⟨e, hf, hx, rfl⟩ | ⟨hf, hx, rfl⟩ := exec_cases he
  · rw [exec_of_faulted (hfault ▸ hf)] at he'
    cases he'
    exact h
  · rw [exec_of_fault (hfault ▸ hf) (hexp ▸ hx)] at he'
    cases he'
    exact congrArg (·.withFault e (encode i)) h
  · rw [exec_of_pass (hfault ▸ hf) (hexp ▸ hx)] at he'
    cases he'
    exact congrArg countCommand (bodyOf_prngView_congr i h)

end

/-- Settles O33: the twins are the blocks of equal view, and CFG keeps the RNG_DIS of each. -/
theorem prngIgnoresSharesAndDisableFlag : Obligations.PrngIgnoresSharesAndDisableFlag := by
  intro i s s' t dis twin hs hl he
  have hdis : s'.cfg.rngDis = dis := by rw [hs]
  have hview : s'.prngView = s.prngView := prngView_eq_iff.mpr ⟨by rw [hdis]; exact hs, hl⟩
  obtain ⟨t', he'⟩ := exec_next i s'
  have ht := prngView_eq_iff.mp (exec_prngView_congr hview he' he)
  rw [(exec_keepsControl he').cfg, hdis] at ht
  exact ⟨t', he', ht⟩

end Sys2Proof.Machine

/-! Proofs about the masked permutation datapath (spec/43_mperm.md): Lbox and the round constants (R241,
R244), the Sbox layer (R243), what each step leaves in every share and in the unmasked values (R245-R249),
and MPERM as its steps, with its early exit, its draws and its unmasked result (R250-R253). -/

namespace Sys2Proof.Machine

/-! ## Lbox and the round constants (R241, R244) -/

theorem getLsbD_rotr (x : Word) {c i : Nat} (hc : c < 32) (hi : i < 32) :
    (rotr x c).getLsbD i = x.getLsbD ((i + c) % 32) := by
  rw [rotr_eq_rotateRight x hc, BitVec.getLsbD_rotateRight, Nat.mod_eq_of_lt hc]
  by_cases h : i < 32 - c
  · simp [h, Nat.add_comm i, Nat.mod_eq_of_lt (show c + i < 32 by omega)]
  · have hmod : (i + c) % 32 = i - (32 - c) := by
      rw [Nat.mod_eq_sub_mod (by omega), Nat.mod_eq_of_lt (by omega)]
      omega
    simp [h, hi, hmod]

theorem rotr_xor (x y : Word) {c : Nat} (hc : c < 32) : rotr (x ^^^ y) c = rotr x c ^^^ rotr y c :=
  BitVec.eq_of_getLsbD_eq fun i hi => by simp [getLsbD_rotr _ hc hi]

/-- A word made of two words, linear over XOR. -/
def XorLinear (f : Word → Word → Word) : Prop :=
  ∀ x y x' y' : Word, f (x ^^^ x') (y ^^^ y') = f x y ^^^ f x' y'

section
variable {f g : Word → Word → Word}

theorem XorLinear.fst : XorLinear fun x _ => x := fun _ _ _ _ => rfl

theorem XorLinear.snd : XorLinear fun _ y => y := fun _ _ _ _ => rfl

theorem XorLinear.xor (hf : XorLinear f) (hg : XorLinear g) : XorLinear fun x y => f x y ^^^ g x y :=
  fun x y x' y' => by
    simp only [hf x y, hg x y]
    ac_rfl

theorem XorLinear.rotate (hf : XorLinear f) {c : Nat} (hc : c < 32) :
    XorLinear fun x y => rotr (f x y) c := fun x y x' y' => by
  simp only [hf x y, rotr_xor _ _ hc]

theorem XorLinear.zero (hf : XorLinear f) : f 0 0 = 0 := by
  have h := hf 0 0 0 0
  rwa [BitVec.xor_self, BitVec.xor_self] at h

/-- A linear function applied share by share; past the eighth share both sides are 0. -/
theorem XorLinear.share_ofFn (hf : XorLinear f) (x y : ShareVec) (i : Nat) :
    share (Vector.ofFn fun k : Fin 8 => f x[k] y[k]) i = f (share x i) (share y i) := by
  by_cases h : i < 8
  · simp [share, h]
  · rw [share_of_ge _ (by omega), share_of_ge x (by omega), share_of_ge y (by omega), hf.zero]

/-- A linear function of the shares of two sharings shares that function of their values. -/
theorem XorLinear.unmask (hf : XorLinear f) {x y z : ShareVec}
    (h : ∀ i, share z i = f (share x i) (share y i)) (d : Nat) :
    unmask d z = f (unmask d x) (unmask d y) := by
  induction d with
  | zero => exact hf.zero.symm
  | succ d ih => rw [unmask_succ, unmask_succ, unmask_succ, ih, h, hf]

end

/-- Both words of Lbox, built up line by line as in R244. -/
theorem lbox_linear : XorLinear (fun x y => (lbox x y).1) ∧ XorLinear (fun x y => (lbox x y).2) := by
  have ha : XorLinear fun x _ => _ := .xor .fst (.rotate .fst (by decide : 12 < 32))
  have hb : XorLinear fun _ y => _ := .xor .snd (.rotate .snd (by decide : 12 < 32))
  have ha := ha.xor (ha.rotate (by decide : 3 < 32)) |>.xor (.rotate .fst (by decide : 17 < 32))
  have hb := hb.xor (hb.rotate (by decide : 3 < 32)) |>.xor (.rotate .snd (by decide : 17 < 32))
  have hc := ha.xor (ha.rotate (by decide : 31 < 32))
  have hd := hb.xor (hb.rotate (by decide : 31 < 32))
  exact ⟨ha.xor (hd.rotate (by decide : 26 < 32)) |>.xor (hc.rotate (by decide : 15 < 32)),
    hb.xor (hc.rotate (by decide : 25 < 32)) |>.xor (hd.rotate (by decide : 15 < 32))⟩

theorem share_lboxFst (x y : ShareVec) (i : Nat) :
    share (lboxFst x y) i = (lbox (share x i) (share y i)).1 :=
  lbox_linear.1.share_ofFn x y i

theorem share_lboxSnd (x y : ShareVec) (i : Nat) :
    share (lboxSnd x y) i = (lbox (share x i) (share y i)).2 :=
  lbox_linear.2.share_ofFn x y i

theorem unmask_lboxFst (d : Nat) (x y : ShareVec) :
    unmask d (lboxFst x y) = (lbox (unmask d x) (unmask d y)).1 :=
  lbox_linear.1.unmask (share_lboxFst x y) d

theorem unmask_lboxSnd (d : Nat) (x y : ShareVec) :
    unmask d (lboxSnd x y) = (lbox (unmask d x) (unmask d y)).2 :=
  lbox_linear.2.unmask (share_lboxSnd x y) d

/-- Settles O51: each line of Lbox is linear in the lines before it. -/
theorem lboxIsLinear : Obligations.LboxIsLinear :=
  ⟨fun x y x' y' => Prod.ext (lbox_linear.1 x y x' y') (lbox_linear.2 x y x' y'),
    fun x _ _ hc hi => getLsbD_rotr x hc hi⟩

/-- Settles O52: sixteen values of a closed iteration. -/
theorem roundConstantsCycle : Obligations.RoundConstantsCycle := by
  unfold Obligations.RoundConstantsCycle
  decide

/-! ## Groups of registers (R126, R160) -/

section
variable {d base n : Nat} {f g : Nat → Nat → Word} {a b c : Lane}

theorem WroteGroup.congr (h : WroteGroup d base n f a b)
    (hfg : ∀ k i, k < n → i < d → f k i = g k i) : WroteGroup d base n g a b := by
  intro q i
  rw [h q i]
  split
  · obtain ⟨_, hq, hi⟩ := ‹_ ∧ _ ∧ _›
    exact hfg _ _ (by omega) hi
  · rfl

/-- The second write of a group replaces the first. -/
theorem WroteGroup.trans (h : WroteGroup d base n f a b) (k : WroteGroup d base n g b c) :
    WroteGroup d base n g a c := by
  intro q i
  rw [k q i]
  split
  · rfl
  · rw [h q i, if_neg ‹_›]

end

/-- Four registers written, word by word. -/
theorem writeQuad_wrote {d : Nat} {f : Nat → Nat → Word} (r : VReg) {q : Quad} (a : Lane)
    (h : ∀ i, i < d → share q.a i = f 0 i ∧ share q.b i = f 1 i ∧ share q.c i = f 2 i ∧
      share q.d i = f 3 i) :
    WroteGroup d r.val 4 f a (a.writeQuad d r q) := by
  refine (writeGroup_wrote d r.val [q.a, q.b, q.c, q.d] a).congr fun k i hk hi => ?_
  obtain ⟨h0, h1, h2, h3⟩ := h i hi
  match k, hk with
  | 0, _ => exact h0
  | 1, _ => exact h1
  | 2, _ => exact h2
  | 3, _ => exact h3

/-- The four registers read back: words 0..D-1 are those written. -/
theorem quadAt_writeQuad (d : Nat) {r : VReg} (hr : r.val ≤ 12) (q : Quad) (a : Lane) :
    (a.writeQuad d r q).quadAt r =
      { a := mergeShares d q.a (a.quadAt r).a, b := mergeShares d q.b (a.quadAt r).b,
        c := mergeShares d q.c (a.quadAt r).c, d := mergeShares d q.d (a.quadAt r).d } := by
  have hk : ∀ k, k < 4 → (regAbove r k).val = r.val + k := fun k hk => Nat.mod_eq_of_lt (by omega)
  simp only [Lane.quadAt, Lane.writeQuad, writeGroup_v, hk 1 (by decide), hk 2 (by decide),
    hk 3 (by decide)]
  simp

/-- The values of four share-vectors, with RC and OFF: the unmasked reading of R253. -/
def Quad.clyde (d : Nat) (rc : BitVec 8) (off : Word) (q : Quad) : Clyde where
  a := unmask d q.a
  b := unmask d q.b
  c := unmask d q.c
  d := unmask d q.d
  rc := rc
  off := off

/-- The values of four registers are those of the sharings written. -/
theorem clyde_writeQuad (d : Nat) {r : VReg} (hr : r.val ≤ 12) (rc : BitVec 8) (off : Word) (q : Quad)
    (a : Lane) : ((a.writeQuad d r q).quadAt r).clyde d rc off = q.clyde d rc off := by
  simp only [quadAt_writeQuad d hr, Quad.clyde, unmask_mergeShares]

/-! ## The masked Sbox layer (R243) -/

/-- Only as many words are dealt as there are share pairs to take them. -/
theorem zip_append_of_length {α : Type} {l : List α} {ws : List Word} (h : l.length = ws.length)
    (rest : List Word) : l.zip (ws ++ rest) = l.zip ws := by
  simpa using List.zip_append (r₁ := []) (r₂ := rest) h

/-- A multiplication takes its own words and no more. -/
theorem isw_append {d : Nat} (h8 : d ≤ 8) (a b : ShareVec) {ws : List Word}
    (hw : ws.length = iswDraws d) (rest : List Word) : isw d a b (ws ++ rest) = isw d a b ws := by
  rw [isw, zip_append_of_length (by rw [iswPairs_length h8, hw]), isw]

/-- A refresh takes its own words and no more. -/
theorem refresh_append {d : Nat} (h8 : d ≤ 8) (s : ShareVec) {ws : List Word}
    (hw : ws.length = refreshDraws d) (rest : List Word) :
    refresh d s (ws ++ rest) = refresh d s ws := by
  rw [refresh, zip_append_of_length (by rw [refreshPairs_length h8, hw]), refresh]

theorem exists_append_of_length {n m : Nat} {ws : List Word} (h : ws.length = n + m) :
    ∃ u v, ws = u ++ v ∧ u.length = n ∧ v.length = m :=
  ⟨ws.take n, ws.drop n, (List.take_append_drop n ws).symm, by simp [h], by simp [h]⟩

/-- The masked Sbox layer hands its words to the gadgets in the order of R243. -/
theorem maskedSbox_shares {d : Nat} (h8 : d ≤ 8) (q : Quad) (ref : Bool) {ws : List Word}
    (hw : ws.length = sboxDraws d ref) :
    SboxShares d ref q ws (maskedSbox d q ref ws).a (maskedSbox d q ref ws).b
      (maskedSbox d q ref ws).c (maskedSbox d q ref ws).d := by
  have hsum : ws.length = iswDraws d + ((if ref then refreshDraws d else 0) +
      (iswDraws d + (iswDraws d + iswDraws d))) := by
    rw [hw, sboxDraws]
    omega
  obtain ⟨w1, rest, rfl, h1, hrest⟩ := exists_append_of_length hsum
  obtain ⟨wr, rest, rfl, hr, hrest⟩ := exists_append_of_length hrest
  obtain ⟨w2, rest, rfl, h2, hrest⟩ := exists_append_of_length hrest
  obtain ⟨w3, w4, rfl, h3, h4⟩ := exists_append_of_length hrest
  refine ⟨w1, wr, w2, w3, w4, rfl, h1, h2, h3, h4, hr, ?_⟩
  cases ref with
  | false =>
    obtain rfl := List.length_eq_zero_iff.mp hr
    simp [maskedSbox, isw_append h8, h1, h2, h3]
  | true =>
    have hr : wr.length = refreshDraws d := hr
    simp [maskedSbox, isw_append h8, refresh_append h8, h1, hr, h2, h3]

/-- The values of the four results are the unmasked Sbox of the values (R245). -/
theorem SboxShares.clyde {d : Nat} (h2 : 2 ≤ d) (h8 : d ≤ 8) {ref : Bool} {q : Quad} {ws : List Word}
    {y0 y1 y2 y3 : ShareVec} (h : SboxShares d ref q ws y0 y1 y2 y3) (rc : BitVec 8) (off : Word) :
    (Quad.mk y0 y1 y2 y3).clyde d rc off = clydeSbox (q.clyde d rc off) := by
  obtain ⟨w1, wr, w2, w3, w4, -, hl1, hl2, hl3, hl4, -, hy1, hy0, hy3, hy2⟩ := h
  have hplain := unmask_isw h8 q.a q.b hl1
  have v1 : unmask d y1 = (unmask d q.a &&& unmask d q.b) ^^^ unmask d q.c := by
    rw [hy1]
    split
    · rw [unmask_refresh h2 h8, unmask_shareXor, hplain]
    · rw [unmask_shareXor, hplain]
  have v0 : unmask d y0 = (unmask d q.d &&& unmask d q.a) ^^^ unmask d q.b := by
    rw [hy0, unmask_shareXor, unmask_isw h8 _ _ hl2]
  have v3 : unmask d y3 = (unmask d y1 &&& unmask d q.d) ^^^ unmask d q.a := by
    rw [hy3, unmask_shareXor, unmask_isw h8 _ _ hl3]
  have v2 : unmask d y2 = (unmask d y0 &&& unmask d y1) ^^^ unmask d q.d := by
    rw [hy2, unmask_shareXor, unmask_isw h8 _ _ hl4]
  simp only [Quad.clyde, clydeSbox, v3, v2, v1, v0]

theorem clyde_maskedSbox {d : Nat} (h2 : 2 ≤ d) (h8 : d ≤ 8) (q : Quad) (ref : Bool) {ws : List Word}
    (hw : ws.length = sboxDraws d ref) (rc : BitVec 8) (off : Word) :
    (maskedSbox d q ref ws).clyde d rc off = clydeSbox (q.clyde d rc off) :=
  (maskedSbox_shares h8 q ref hw).clyde h2 h8 rc off

/-! ## SSBOX and SLBOX (R245, R246) -/

theorem ssbox_operands {vd : VReg} {n : Imm} (hvd : vd.val ≤ 12) (hn : n.val ≤ 1) :
    operandBad (.ssbox vd n) = false := by
  rw [operandBad_eq_not_wf]
  simp [Instr.wf, hvd, hn]

/-- A draw leaves the four registers of a lane alone. -/
theorem quadAt_of_prng {a c : Lane} (h : c = { a with core := c.core, tape := c.tape }) (r : VReg) :
    c.quadAt r = a.quadAt r := by
  rw [h]
  rfl

/-- A group written to a lane whose CORE and TAPE the draws have changed. -/
theorem WroteGroup.of_prng {d base n : Nat} {f : Nat → Nat → Word} {a b c : Lane}
    (h : WroteGroup d base n f c b) (hc : c = { a with core := c.core, tape := c.tape }) :
    WroteGroup d base n f a b := by
  have hv : c.v = a.v := by rw [hc]
  intro q i
  rw [h q i, hv]

/-- Settles O48: `maskedSbox_shares` on the words of the draws, and the write of the four registers. -/
theorem ssboxRunsTheSboxLayer : Obligations.SsboxRunsTheSboxLayer := by
  intro vd n s hr hinv hvd hn
  obtain ⟨-, h8⟩ := hr.order_range hinv
  refine ⟨_, exec_of_ready hr (ssbox_operands hvd hn) rfl,
    drawThen_drewAndWrote (fun _ _ => writeGroup_frame _ _ _ _) fun a c ws hca hw => ?_⟩
  rw [quadAt_of_prng hca]
  exact ⟨_, _, _, _, maskedSbox_shares h8 (a.quadAt vd) _ hw,
    (writeQuad_wrote vd c fun i _ => ⟨rfl, rfl, rfl, rfl⟩).of_prng hca⟩

/-- The values a masked Sbox layer leaves in its four registers. -/
theorem sboxLayer_values (P : Prng) {r : VReg} (hr : r.val ≤ 12) (ref : Bool) {s : State}
    (h2 : 2 ≤ s.order) (h8 : s.order ≤ 8) (rc : BitVec 8) (off : Word) :
    LaneWise (fun a b => (b.quadAt r).clyde s.order rc off =
      clydeSbox ((a.quadAt r).clyde s.order rc off)) s (countCommand (sboxLayer P r ref s)) :=
  drawThen_laneWise fun a c ws hca hw => by
    rw [clyde_writeQuad _ hr, clyde_maskedSbox h2 h8 _ _ hw, quadAt_of_prng hca]

/-- Settles O49: the values written are those of `SboxShares.clyde`. -/
theorem ssboxComputesTheSbox : Obligations.SsboxComputesTheSbox := by
  intro vd n s t hr hinv hvd hn ht
  obtain ⟨h2, h8⟩ := hr.order_range hinv
  obtain rfl := eq_of_exec_ready hr (ssbox_operands hvd hn) rfl ht
  refine (sboxLayer_values Config.prng hvd _ h2 h8 0 0).imp fun a b h => ?_
  simp only [Quad.clyde, clydeSbox, Lane.quadAt, Clyde.mk.injEq] at h
  obtain ⟨ha, hb, hc, hd, -, -⟩ := h
  exact ⟨ha, hb, hc, hd⟩

/-- Settles O50: Lbox acts share by share, and being linear it acts on the values too. -/
theorem slboxAppliesLboxToShares : Obligations.SlboxAppliesLboxToShares := by
  intro vd va s hr hvd hva
  have ho : operandBad (.slbox vd va) = false := by
    rw [operandBad_eq_not_wf]
    simp [Instr.wf, hvd, hva]
  have hk : (regAbove vd 1).val = vd.val + 1 := Nat.mod_eq_of_lt (by omega)
  refine ⟨_, exec_of_ready hr ho rfl, mapLanes_changes (fun a => ⟨rfl, ?_, ?_⟩) s⟩
  · refine (writeGroup_wrote s.order vd [_, _] a).congr fun k i hk _ => ?_
    match k, hk with
    | 0, _ => exact share_lboxFst _ _ i
    | 1, _ => exact share_lboxSnd _ _ i
  · simp only [writeGroup_v, hk]
    simp [unmask_mergeShares, unmask_lboxFst, unmask_lboxSnd]

/-! ## MINIT, MHALF and MKEY, lane by lane (R247-R249) -/

/-- The share-vectors, XORed register by register. -/
def Quad.xor (p q : Quad) : Quad where
  a := shareXor p.a q.a
  b := shareXor p.b q.b
  c := shareXor p.c q.c
  d := shareXor p.d q.d

/-- Lbox on the first pair and on the second. -/
def Quad.lboxPairs (q : Quad) : Quad where
  a := lboxFst q.a q.b
  b := lboxSnd q.a q.b
  c := lboxFst q.c q.d
  d := lboxSnd q.c q.d

/-- What a half-round does to a lane after its Sbox layer. -/
def linearLane (d : Nat) (rc : BitVec 8) (a : Lane) : Lane :=
  let b := a.writeQuad d 0 (a.quadAt 0).lboxPairs
  b.writeQuad d 0 ((b.quadAt 0).addPublic fun c => rcBit rc c)

/-- What MKEY does to a lane with schedule entry `e`. -/
def mkeyLane (d e : Nat) (a : Lane) : Lane :=
  a.writeQuad d 0 (((a.quadAt 0).xor (a.quadAt 4)).addPublic fun c => a.tweakWord e c)

/-- The expanded tweak of a lane (R240). -/
def Lane.expandedTweak (a : Lane) : Vector (Vector Word 4) 3 := tweakExpand a.x[4] a.x[5] a.x[6] a.x[7]

/-- What MINIT does to a lane. -/
def minitLane (d : Nat) (a : Lane) : Lane :=
  { a with tk := a.expandedTweak }.writeQuad d 0
    ((a.quadAt 4).addPublic fun c => a.expandedTweak[0][c] ^^^ a.x[Fin.ofNat 16 c.val])

theorem linearHalf_eq (s : State) :
    linearHalf s = advanceRc (s.mapLanes (linearLane s.order s.rc)) := by
  simp only [linearHalf, lboxLayer, injectRc, State.mapLanes, List.map_map]
  rfl

theorem mkeyBody_eq (s : State) :
    mkeyBody s =
      { s.mapLanes (mkeyLane s.order ((s.off >>> 2) &&& 3).toNat) with off := s.off >>> 2 } := rfl

theorem minitBody_eq (s : State) :
    minitBody s = { s.mapLanes (minitLane s.order) with
      rc := 0x08, off := 0x924, status := { s.status with dpInit := true } } := rfl

theorem share_xorShare_first (s : ShareVec) (w : Word) (i : Nat) :
    share (xorShare s 0 w) i = share s i ^^^ (if i = 0 then w else 0) := by
  rw [share_xorShare]
  by_cases h : i = 0
  · simp [h]
  · rw [if_neg (by omega), if_neg h, word_xor_zero]

/-- The injected bit of RC, as a number (R242). -/
theorem rcBit_eq (rc : BitVec 8) (c : Fin 4) :
    rcBit rc c = BitVec.ofNat 32 (rc.toNat / 2 ^ (3 - c.val) % 2) := by
  refine BitVec.eq_of_toNat_eq ?_
  have h := Nat.mod_eq_of_lt (show rc.toNat < 4294967296 by omega)
  simp [rcBit, Nat.shiftRight_eq_div_pow, h]
  omega

/-- Share i of cipher lane c after Lbox and the constant injection (R242, R244). -/
def linearShare (rc : BitVec 8) (y : Quad) (c i : Nat) : Word :=
  let p := lbox (share y.a i) (share y.b i)
  let q := lbox (share y.c i) (share y.d i)
  (if c = 0 then p.1 else if c = 1 then p.2 else if c = 2 then q.1 else q.2) ^^^
    (if i = 0 then BitVec.ofNat 32 (rc.toNat / 2 ^ (3 - c) % 2) else 0)

/-- A group write after a write of the same group is the one that shows. -/
theorem WroteGroup.after_writeQuad {d : Nat} {r : VReg} {f : Nat → Nat → Word} {q : Quad} {a b : Lane}
    (h : WroteGroup d r.val 4 f (a.writeQuad d r q) b) : WroteGroup d r.val 4 f a b :=
  (writeGroup_wrote d r.val [q.a, q.b, q.c, q.d] a).trans h

theorem linearLane_wrote (d : Nat) (rc : BitVec 8) (a : Lane) :
    WroteGroup d 0 4 (linearShare rc (a.quadAt 0)) a (linearLane d rc a) := by
  refine (writeQuad_wrote 0 _ fun i hi => ?_).after_writeQuad
  have h : (0 : VReg).val ≤ 12 := by decide
  simp only [quadAt_writeQuad d h, Quad.addPublic, Quad.lboxPairs, share_xorShare_first,
    share_mergeShares _ _ hi, share_lboxFst, share_lboxSnd, rcBit_eq]
  exact ⟨rfl, rfl, rfl, rfl⟩

/-- The values after Lbox and the constant injection (R248). -/
theorem linearLane_values {d : Nat} (h1 : 1 ≤ d) (rc : BitVec 8) (off : Word) (a : Lane) :
    ((linearLane d rc a).quadAt 0).clyde d (lfsrNext rc) off =
      clydeLinear ((a.quadAt 0).clyde d rc off) := by
  have h : (0 : VReg).val ≤ 12 := by decide
  rw [linearLane, clyde_writeQuad d h, quadAt_writeQuad d h]
  simp only [Quad.clyde, clydeLinear, Quad.addPublic, Quad.lboxPairs,
    unmask_xorShare _ _ (show 0 < d from h1) (by decide), unmask_mergeShares, unmask_lboxFst, unmask_lboxSnd]

/-- The key of a lane, unmasked (R32). -/
def Lane.key (d : Nat) (a : Lane) : Fin 4 → Word := fun c => unmask d a.v[Fin.ofNat 16 (4 + c.val)]

/-- The tweak schedule of a lane (R39). -/
def Lane.schedule (a : Lane) : Fin 3 → Fin 4 → Word := fun e c => a.tk[e][c]

theorem tweakWord_of_lt (a : Lane) {e : Nat} (he : e < 3) (c : Fin 4) :
    a.tweakWord e c = a.schedule (Fin.ofNat 3 e) c := by
  simp [Lane.tweakWord, Lane.schedule, he, Nat.mod_eq_of_lt he]

/-- The values after the key and tweak addition (R249). -/
theorem mkeyLane_values {d : Nat} (h1 : 1 ≤ d) (rc : BitVec 8) {off : Word}
    (he : ((off >>> 2) &&& 3).toNat < 3) (a : Lane) :
    ((mkeyLane d ((off >>> 2) &&& 3).toNat a).quadAt 0).clyde d rc (off >>> 2) =
      clydeKey (a.key d) a.schedule ((a.quadAt 0).clyde d rc off) := by
  rw [mkeyLane, clyde_writeQuad d (by decide)]
  simp only [Quad.clyde, clydeKey, Quad.addPublic, Quad.xor, tweakWord_of_lt a he,
    unmask_xorShare _ _ (show 0 < d from h1) (by decide), unmask_shareXor]
  rfl

/-- The values after the state is loaded (R247). -/
theorem minitLane_values {d : Nat} (h1 : 1 ≤ d) (rc : BitVec 8) (off : Word) (a : Lane) :
    ((minitLane d a).quadAt 0).clyde d rc off =
      { a := a.key d 0 ^^^ a.expandedTweak[0][0] ^^^ a.x[0]
        b := a.key d 1 ^^^ a.expandedTweak[0][1] ^^^ a.x[1]
        c := a.key d 2 ^^^ a.expandedTweak[0][2] ^^^ a.x[2]
        d := a.key d 3 ^^^ a.expandedTweak[0][3] ^^^ a.x[3]
        rc := rc
        off := off } := by
  rw [minitLane, clyde_writeQuad d (by decide)]
  simp only [Quad.clyde, Quad.addPublic, unmask_xorShare _ _ (show 0 < d from h1) (by decide),
    BitVec.xor_assoc]
  rfl

/-- Share i of cipher lane c after MINIT (R247). -/
def loadShare (a : Lane) (c i : Nat) : Word :=
  share a.v[Fin.ofNat 16 (4 + c)] i ^^^
    (if i = 0 then a.x[Fin.ofNat 16 (4 + c)] ^^^ a.x[Fin.ofNat 16 c] else 0)

theorem minitLane_wrote (d : Nat) (a : Lane) : WroteGroup d 0 4 (loadShare a) a (minitLane d a) := by
  refine fun q i => writeQuad_wrote (f := loadShare a) 0 { a with tk := a.expandedTweak }
    (fun i _ => ?_) q i
  simp only [Quad.addPublic, share_xorShare_first]
  exact ⟨rfl, rfl, rfl, rfl⟩

/-- Settles O53: the key is copied share by share, and the public words go into share zero. -/
theorem minitLoadsTheState : Obligations.MinitLoadsTheState := fun s hr _ =>
  ⟨_, exec_of_ready hr rfl rfl, rfl,
    forall₂_map_self (fun a => ⟨rfl, rfl, minitLane_wrote s.order a⟩) s.lanes⟩

/-- The schedule entry MKEY adds is one of 0, 1, 2 (R249). -/
theorem scheduleEntry_lt {off : Word} (h : off ∈ scheduleValues) : ((off >>> 2) &&& 3).toNat < 3 := by
  simp only [scheduleValues, List.mem_cons, List.not_mem_nil, or_false] at h
  obtain rfl | rfl | rfl | rfl | rfl | rfl | rfl := h <;> decide

section
variable {s : State} (hr : s.Ready) (hd : s.status.dpInit = true)
include hr hd

/-- A half-round meets no check on a ready block with an initialised datapath (R248). -/
theorem exec_mhalf {n : Imm} (hn : n.val ≤ 1) :
    exec (.mhalf n) s = .next (countCommand (mhalfBody Config.prng (n.val == 1) s)) := by
  refine exec_of_pass hr.1 ?_
  simp [expectedFault, hr.2, hd, Nat.not_lt.mpr hn]

/-- A key addition meets no check while the schedule has entries left (R249). -/
theorem exec_mkey (ho : s.off ≠ 0) : exec .mkey s = .next (countCommand (mkeyBody s)) := by
  refine exec_of_pass hr.1 ?_
  simpa [expectedFault, hr.2, hd] using ho

end

/-- Settles O55: every value of OFF names an entry 0, 1 or 2, so the entry read is one of TK's three. -/
theorem mkeyAddsKeyAndTweak : Obligations.MkeyAddsKeyAndTweak := by
  intro s hr hinv hd ho
  have he := scheduleEntry_lt hinv.off
  refine ⟨_, Fin.ofNat 3 ((s.off >>> 2) &&& 3).toNat, exec_mkey hr hd ho, rfl, ?_,
    forall₂_map_self (fun a => ⟨rfl, writeQuad_wrote 0 a fun i _ => ?_⟩) s.lanes⟩
  · change ((s.off >>> 2) &&& 3).toNat % 3 = (s.off >>> 2).toNat % 4
    rw [Nat.mod_eq_of_lt he, BitVec.toNat_and]
    exact Nat.and_two_pow_sub_one_eq_mod _ 2
  · simp only [Quad.addPublic, share_xorShare_first, share_shareXor, tweakWord_of_lt a he]
    exact ⟨rfl, rfl, rfl, rfl⟩

theorem sboxLayer_order (P : Prng) (r : VReg) (ref : Bool) (s : State) :
    (sboxLayer P r ref s).order = s.order :=
  (drawWords_same P _ s).order

theorem sboxLayer_rc (P : Prng) (r : VReg) (ref : Bool) (s : State) :
    (sboxLayer P r ref s).rc = s.rc :=
  (sboxLayer_within P r ref s).rc (by simp [drawTargets])

theorem sboxLayer_off (P : Prng) (r : VReg) (ref : Bool) (s : State) :
    (sboxLayer P r ref s).off = s.off :=
  (sboxLayer_within P r ref s).off (by simp [drawTargets])

theorem sboxLayer_dpInit (P : Prng) (r : VReg) (ref : Bool) (s : State) :
    (sboxLayer P r ref s).status.dpInit = s.status.dpInit := by
  change (drawWords P (sboxDraws s.order ref) s).1.status.dpInit = _
  rw [(drawWords_same P _ s).shared]

/-- What MHALF does to a lane with its drawn words (R248). -/
def mhalfLane (d : Nat) (rc : BitVec 8) (ref : Bool) (a : Lane) (ws : List Word) : Lane :=
  linearLane d rc (a.writeQuad d 0 (maskedSbox d (a.quadAt 0) ref ws))

/-- Words 0..D-1 of the four registers after MHALF: the Sbox layer, then Lbox and the constant. -/
theorem mhalfLane_wrote (d : Nat) (rc : BitVec 8) (ref : Bool) (a : Lane) (ws : List Word) :
    WroteGroup d 0 4 (linearShare rc (maskedSbox d (a.quadAt 0) ref ws)) a (mhalfLane d rc ref a ws) := by
  refine ((linearLane_wrote d rc _).congr fun k i _ hi => ?_).after_writeQuad (r := 0)
  simp only [linearShare, quadAt_writeQuad d (show (0 : VReg).val ≤ 12 by decide),
    share_mergeShares _ _ hi]

/-- A half-round draws first and then changes the lanes: its words all go to the Sbox layer. -/
theorem mhalfBody_eq (P : Prng) (ref : Bool) (s : State) :
    mhalfBody P ref s =
      { drawThen P (sboxDraws s.order ref) (mhalfLane s.order s.rc ref) s with rc := lfsrNext s.rc } := by
  rw [mhalfBody, linearHalf_eq, sboxLayer_order, sboxLayer_rc, advanceRc, State.mapLanes_rc, sboxLayer_rc]
  simp only [sboxLayer, drawThen_eq, State.mapLanes, List.map_zipWith]
  rfl

/-- A lane that keeps all but V is the old one with its new V. -/
theorem LaneWithin.frame {a b : Lane} (h : LaneWithin [.v] a b) : b = { a with v := b.v } := by
  cases b
  simp [← h.seed, ← h.x (by simp), ← h.tk (by simp), ← h.core (by simp), ← h.tape (by simp)]

theorem mhalfLane_within (d : Nat) (rc : BitVec 8) (ref : Bool) (a : Lane) (ws : List Word) :
    LaneWithin [.v] a (mhalfLane d rc ref a ws) :=
  (writeQuad_within d 0 _ a).trans ((writeQuad_within d 0 _ _).trans (writeQuad_within d 0 _ _))

/-- Settles O54: the linear part of the half-round joins the write that follows the draws. -/
theorem mhalfIsOneHalfRound : Obligations.MhalfIsOneHalfRound := by
  intro n s hr hinv hd hn
  obtain ⟨-, h8⟩ := hr.order_range hinv
  refine ⟨_, exec_mhalf hr hd hn, by rw [mhalfBody_eq]; rfl, ?_⟩
  have hrc : (drawWords Config.prng (sboxDraws s.order (n.val == 1)) s).1.rc = s.rc := by
    rw [(drawWords_same _ _ s).shared]
  have ht : { countCommand (mhalfBody Config.prng (n.val == 1) s) with rc := s.rc } =
      countCommand (drawThen Config.prng (sboxDraws s.order (n.val == 1))
        (mhalfLane s.order s.rc (n.val == 1)) s) := by
    rw [mhalfBody_eq, drawThen_eq, ← hrc]
    rfl
  rw [ht]
  refine drawThen_drewAndWrote (fun c ws => (mhalfLane_within _ _ _ c ws).frame) fun a c ws hca hw => ?_
  have hs := maskedSbox_shares h8 (c.quadAt 0) (n.val == 1) hw
  rw [quadAt_of_prng hca] at hs
  exact ⟨_, _, _, _, hs, quadAt_of_prng hca 0 ▸ (mhalfLane_wrote s.order s.rc _ c ws).of_prng hca⟩

/-! ## The steps on unmasked words (R253) -/

/-- The unmasked reading of a lane's state (R253). -/
def State.clyde (s : State) (a : Lane) : Clyde := (a.quadAt 0).clyde s.order s.rc s.off

/-- The shares outside words 0..d-1 of V0..V3, the key among them, are the same in both lanes. -/
def KeepsOutside (d : Nat) (a b : Lane) : Prop :=
  ∀ (q : VReg) (i : Fin 8), (4 ≤ q.val ∨ d ≤ i.val) → b.v[q][i] = a.v[q][i]

theorem WroteGroup.outside {d : Nat} {f : Nat → Nat → Word} {a b : Lane} (h : WroteGroup d 0 4 f a b) :
    KeepsOutside d a b := fun q i hq => by
  rw [h q i, if_neg (by omega)]

theorem KeepsOutside.key {d : Nat} {a b : Lane} (h : KeepsOutside d a b) : b.key d = a.key d := by
  funext c
  have hc : (Fin.ofNat 16 (4 + c.val)).val = 4 + c.val := Nat.mod_eq_of_lt (by omega)
  refine unmask_congr fun i _ => ?_
  by_cases h8 : i < 8
  · rw [share_of_lt _ h8, share_of_lt _ h8]
    exact h _ ⟨i, h8⟩ (.inl (by omega))
  · rw [share_of_ge _ (by omega), share_of_ge _ (by omega)]

/-- A function of the cipher state that may use the unmasked key and the tweak schedule. -/
abbrev ClydeStep := (Fin 4 → Word) → (Fin 3 → Fin 4 → Word) → Clyde → Clyde

/-- From lane `a` of `s` to lane `b` of `t` the unmasked state goes through `F`, and the key and the
schedule stay. -/
structure LaneComputes (F : ClydeStep) (s t : State) (a b : Lane) : Prop where
  v : KeepsOutside s.order a b
  tk : b.tk = a.tk
  clyde : t.clyde b = F (a.key s.order) a.schedule (s.clyde a)

/-- Every lane goes through `F`, and the order stays. -/
structure Computes (F : ClydeStep) (s t : State) : Prop where
  order : t.order = s.order
  lanes : LaneWise (LaneComputes F s t) s t

section
variable {F G : ClydeStep} {s t u : State}

theorem Computes.refl (s : State) : Computes (fun _ _ z => z) s s :=
  ⟨rfl, List.forall₂_same.mpr fun _ _ => ⟨fun _ _ _ => rfl, rfl, rfl⟩⟩

theorem Computes.trans (h : Computes F s t) (k : Computes G t u) :
    Computes (fun key tk z => G key tk (F key tk z)) s u := by
  refine ⟨k.order.trans h.order, forall₂_comp (fun {a b c} hab hbc => ?_) h.lanes k.lanes⟩
  obtain ⟨hv, htk, hz⟩ := hbc
  rw [h.order] at hv hz
  have hs : b.schedule = a.schedule := by
    unfold Lane.schedule
    rw [hab.tk]
  refine ⟨fun q i hq => (hv q i hq).trans (hab.v q i hq), htk.trans hab.tk, ?_⟩
  rw [hz, hab.clyde, hab.v.key, hs]

theorem Computes.early (h : Computes F s t) (b : Bool) : Computes F s (setEarly b t) :=
  ⟨h.order, h.lanes.imp fun _ _ ⟨hv, htk, hz⟩ => ⟨hv, htk, hz⟩⟩

/-- The masked Sbox layer is the unmasked Sbox. -/
theorem sboxLayer_computes (P : Prng) (ref : Bool) (h2 : 2 ≤ s.order) (h8 : s.order ≤ 8) :
    Computes (fun _ _ => clydeSbox) s (sboxLayer P 0 ref s) := by
  refine ⟨sboxLayer_order P 0 ref s, drawThen_laneWise (R := LaneComputes _ s (sboxLayer P 0 ref s))
    fun a c ws hca hw => ⟨?_, ?_, ?_⟩⟩
  · exact ((writeGroup_wrote s.order 0 [_, _, _, _] c).of_prng hca).outside
  · rw [Lane.writeQuad_tk, hca]
  · rw [State.clyde, sboxLayer_order, sboxLayer_rc, sboxLayer_off, clyde_writeQuad _ (by decide),
      clyde_maskedSbox h2 h8 _ _ hw, quadAt_of_prng hca]
    rfl

/-- The rest of a half-round is its unmasked reading. -/
theorem linearHalf_computes (h1 : 1 ≤ s.order) :
    Computes (fun _ _ => clydeLinear) s (linearHalf s) := by
  rw [linearHalf_eq]
  exact ⟨rfl, forall₂_map_self (fun a => ⟨(linearLane_wrote s.order s.rc a).outside,
    ((writeQuad_within s.order 0 _ a).trans (writeQuad_within s.order 0 _ _)).tk (by simp),
    linearLane_values h1 s.rc s.off a⟩) s.lanes⟩

/-- The key addition is its unmasked reading. -/
theorem mkeyBody_computes (h1 : 1 ≤ s.order) (ho : s.off ∈ scheduleValues) :
    Computes clydeKey s (mkeyBody s) := by
  rw [mkeyBody_eq]
  exact ⟨rfl, forall₂_map_self (fun a => ⟨(writeGroup_wrote s.order 0 [_, _, _, _] a).outside,
    (writeQuad_within s.order 0 _ a).tk (by simp),
    mkeyLane_values h1 s.rc (scheduleEntry_lt ho) a⟩) s.lanes⟩

end

theorem State.InvConfigured.order_range {s : State} (h : s.InvConfigured) : 2 ≤ s.order ∧ s.order ≤ 8 :=
  (h.inv.configured h.cfgValid).1

/-! ## The rounds of MPERM (R250) -/

/-- One double round and its key addition: MROUND (R129). -/
def roundBody (P : Prng) (s : State) : State := mkeyBody (mhalfBody P false (mhalfBody P true s))

section
variable (P : Prng) {m : ExitMarker} {n r : Nat} (s : State)

/-- The marker names the first half-round of this round. -/
theorem mpermRounds_first (hm : m.en = true ∧ m.round.toNat = r) (hh : m.half = false) :
    mpermRounds P m (n + 1) r s = setEarly true (sboxLayer P 0 true s) := by
  simp [mpermRounds, ExitMarker.meets, hm, hh]

/-- The marker names the second half-round of this round. -/
theorem mpermRounds_second (hm : m.en = true ∧ m.round.toNat = r) (hh : m.half = true) :
    mpermRounds P m (n + 1) r s = setEarly true (sboxLayer P 0 false (mhalfBody P true s)) := by
  simp [mpermRounds, ExitMarker.meets, hm, hh, mhalfBody]

/-- The marker names no half-round of this round. -/
theorem mpermRounds_pass (hm : ¬ (m.en = true ∧ m.round.toNat = r)) :
    mpermRounds P m (n + 1) r s = mpermRounds P m n (r + 1) (roundBody P s) := by
  have hmeets : ∀ half, m.meets r half = false := fun half => by
    simp only [ExitMarker.meets, Bool.and_eq_false_iff, beq_eq_false_iff_ne]
    by_cases he : m.en = true
    · exact .inl (.inr fun hr => hm ⟨he, hr⟩)
    · exact .inl (.inl (by simpa using he))
  simp [mpermRounds, hmeets, roundBody, mhalfBody]

/-- Rounds before the one the marker names run in full. -/
theorem mpermRounds_add {k : Nat} (hm : m.en = true → r + k ≤ m.round.toNat) :
    mpermRounds P m (k + n) r s = mpermRounds P m n (r + k) ((roundBody P)^[k] s) := by
  induction k generalizing r s with
  | zero => simp
  | succ k ih =>
    have hpass : ¬ (m.en = true ∧ m.round.toNat = r) := fun ⟨he, hr⟩ => by
      have := hm he
      omega
    have hrest : m.en = true → r + 1 + k ≤ m.round.toNat := fun he => by
      have := hm he
      omega
    rw [show k + 1 + n = k + n + 1 by omega, mpermRounds_pass P s hpass, ih _ hrest,
      Function.iterate_succ_apply, show r + 1 + k = r + (k + 1) by omega]

end

section
variable {s : State} (h : s.InvConfigured) (P : Prng)
include h

theorem mhalfBody_invConfigured (ref : Bool) : (mhalfBody P ref s).InvConfigured :=
  linearHalf_invConfigured (sboxLayer_invConfigured h P 0 ref)

theorem roundBody_invConfigured : (roundBody P s).InvConfigured :=
  mkeyBody_invConfigured (mhalfBody_invConfigured (mhalfBody_invConfigured h P true) P false)

theorem mhalfBody_computes (ref : Bool) :
    Computes (fun _ _ z => clydeLinear (clydeSbox z)) s (mhalfBody P ref s) := by
  obtain ⟨h2, h8⟩ := h.order_range
  obtain ⟨h2', -⟩ := (sboxLayer_invConfigured h P 0 ref).order_range
  exact (sboxLayer_computes P ref h2 h8).trans (linearHalf_computes (by omega))

theorem roundBody_computes :
    Computes (fun key tk z => clydeKey key tk (clydeLinear (clydeSbox (clydeLinear (clydeSbox z))))) s
      (roundBody P s) := by
  have h1 := mhalfBody_invConfigured h P true
  have h2 := mhalfBody_invConfigured h1 P false
  have hd := h2.order_range
  exact ((mhalfBody_computes h P true).trans (mhalfBody_computes h1 P false)).trans
    (mkeyBody_computes (by omega) h2.inv.off)

/-- The rounds of MPERM are the unmasked rounds (R253). -/
theorem mpermRounds_computes (m : ExitMarker) (n r : Nat) :
    Computes (fun key tk => clydeRounds m key tk n r) s (mpermRounds P m n r s) := by
  induction n generalizing r s with
  | zero => exact .refl s
  | succ n ih =>
    simp only [clydeRounds]
    by_cases hm : m.en = true ∧ m.round.toNat = r
    · obtain ⟨h2, h8⟩ := h.order_range
      have h1 := mhalfBody_invConfigured h P true
      cases hh : m.half with
      | false =>
        rw [mpermRounds_first P s hm hh]
        simp only [hm, and_self, if_true]
        exact (sboxLayer_computes P true h2 h8).early true
      | true =>
        rw [mpermRounds_second P s hm hh]
        simp only [hm, and_self, if_true, Bool.true_eq_false, if_false]
        exact ((mhalfBody_computes h P true).trans
          (sboxLayer_computes P false h1.order_range.1 h1.order_range.2)).early true
    · rw [mpermRounds_pass P s hm]
      simp only [hm, if_false]
      exact (roundBody_computes h P).trans (ih (roundBody_invConfigured h P) (r + 1))

/-- What MPERM leaves of every lane: the expanded tweak, the shares outside V0..V3, and the unmasked
encryption (R240, R250, R253). -/
theorem mpermBody_lanes :
    LaneWise (fun a b => b.tk = a.expandedTweak ∧ KeepsOutside s.order a b ∧
      (mpermBody P s).clyde b = clydeEncrypt s.rounds s.exit (a.key s.order)
        (fun c => a.x[Fin.ofNat 16 c.val]) (fun c => a.x[Fin.ofNat 16 (4 + c.val)])) s (mpermBody P s) := by
  have hm := h.of_body (minitBody_body s) (minitBody_inv h)
  have he := hm.of_body (setEarly_body false _) (setEarly_inv hm.inv rfl false)
  have hrounds := mpermRounds_computes he P s.exit s.rounds 0
  have hload : LaneWise (fun a b => b = minitLane s.order a) s (setEarly false (minitBody s)) := by
    rw [minitBody_eq]
    exact forall₂_map_self (R := fun a b => b = minitLane s.order a) (fun _ => rfl) s.lanes
  refine forall₂_comp (fun {a b c} hab hbc => ?_) hload hrounds.lanes
  obtain ⟨hv, htk, hz⟩ := hbc
  have hout := (minitLane_wrote s.order a).outside
  subst hab
  refine ⟨htk.trans (Lane.writeQuad_tk _ _ _ _), fun q i hq => (hv q i hq).trans (hout q i hq), ?_⟩
  obtain ⟨h2, -⟩ := h.order_range
  have hkey : (minitLane s.order a).key (setEarly false (minitBody s)).order = a.key s.order := hout.key
  have hstart : (setEarly false (minitBody s)).clyde (minitLane s.order a) = _ :=
    minitLane_values (show 1 ≤ s.order by omega) 0x08 0x924 a
  rw [hkey, hstart] at hz
  exact hz

end

/-- An MPERM whose marker, if any, names one of its rounds meets no check (R250). -/
theorem exec_mperm {s : State} (hr : s.Ready) (hm : s.exit.en = true → s.exit.round.toNat < s.rounds) :
    exec .mperm s = .next (countCommand (mpermBody Config.prng s)) := by
  refine exec_of_pass hr.1 ?_
  simpa [expectedFault, hr.2] using hm

/-- Settles O59: `mpermBody_lanes`, whose induction over the rounds takes each step to its unmasked reading. -/
theorem mpermComputesTheUnmaskedCipher : Obligations.MpermComputesTheUnmaskedCipher := by
  intro s t hr hinv hm ht
  obtain rfl := Host.Outcome.next.inj (ht.symm.trans (exec_mperm hr hm))
  have hbody : BodyChanges s (mpermBody Config.prng s) := bodyOf_changes .mperm s
  have ho : (mpermBody Config.prng s).order = s.order := by
    rw [hbody.shared]
    rfl
  refine (mpermBody_lanes ⟨hinv, hr.2⟩ Config.prng).imp fun a b ⟨_, _, hz⟩ => ?_
  rw [State.clyde, ho] at hz
  exact ⟨congrArg Clyde.a hz, congrArg Clyde.b hz, congrArg Clyde.c hz, congrArg Clyde.d hz,
    congrArg Clyde.rc hz, congrArg Clyde.off hz⟩

/-! ## What draws do not read: CMD_COUNT, RC, OFF, DP_INIT and EARLY -/

/-- The registers and STATUS bits outside the lanes that commands write and no draw reads. -/
structure Control where
  cmdCount : Word := 0
  rc : BitVec 8 := 0
  off : Word := 0
  dpInit : Bool := false
  early : Bool := false

/-- `s` with those registers at the values of `c`. -/
def State.withControl (c : Control) (s : State) : State :=
  { s with
    cmdCount := c.cmdCount, rc := c.rc, off := c.off
    status := { s.status with dpInit := c.dpInit, early := c.early } }

section
variable (P : Prng) (c : Control) (s : State)

theorem ensureRunning_withControl :
    ensureRunning P (s.withControl c) = (ensureRunning P s).withControl c := by
  cases hr : s.status.prngRun with
  | true => rw [ensureRunning_of_run P hr, ensureRunning_of_run P (s := s.withControl c) hr]
  | false =>
    rw [ensureRunning_of_uninit P hr, ensureRunning_of_uninit P (s := s.withControl c) hr]
    rfl

theorem refillAtEnd_withControl :
    refillAtEnd P (s.withControl c) = (refillAtEnd P s).withControl c := by
  by_cases hc : 16 ≤ s.cursor.toNat
  · rw [refillAtEnd_of_end P hc, refillAtEnd_of_end P (s := s.withControl c) hc]
    rfl
  · rw [Nat.not_le] at hc
    rw [refillAtEnd_of_left P hc, refillAtEnd_of_left P (s := s.withControl c) hc]

theorem draw_withControl (n : Nat) :
    draw P n (s.withControl c) = ((draw P n s).1.withControl c, (draw P n s).2) := by
  have h : readyTape P (s.withControl c) = (readyTape P s).withControl c := by
    rw [readyTape, ensureRunning_withControl, refillAtEnd_withControl, readyTape]
  simp only [draw, h]
  rfl

theorem drawWords_withControl (k : Nat) :
    drawWords P k (s.withControl c) = ((drawWords P k s).1.withControl c, (drawWords P k s).2) := by
  induction k generalizing s with
  | zero => rfl
  | succ k ih => simp only [drawWords, draw_withControl, ih]

theorem sboxLayer_withControl (r : VReg) (ref : Bool) :
    sboxLayer P r ref (s.withControl c) = (sboxLayer P r ref s).withControl c := by
  have ho : (s.withControl c).order = s.order := rfl
  simp only [sboxLayer, drawThen_eq, ho, drawWords_withControl]
  rfl

end

/-! ## MPERM as its steps (R250, R251)

The run of the commands and the run of MPERM differ in CMD_COUNT and EARLY at every step, and in nothing
else. -/

/-- `s` with other CMD_COUNT and EARLY. -/
def State.relabel (n : Word) (b : Bool) (s : State) : State :=
  s.withControl { cmdCount := n, rc := s.rc, off := s.off, dpInit := s.status.dpInit, early := b }

section
variable (P : Prng) (n : Word) (b : Bool) (s : State)

theorem sboxLayer_relabel (r : VReg) (ref : Bool) :
    sboxLayer P r ref (s.relabel n b) = (sboxLayer P r ref s).relabel n b := by
  simp only [State.relabel, sboxLayer_withControl, sboxLayer_rc, sboxLayer_off, sboxLayer_dpInit]

theorem mhalfBody_relabel (ref : Bool) :
    mhalfBody P ref (s.relabel n b) = (mhalfBody P ref s).relabel n b := by
  rw [mhalfBody, sboxLayer_relabel, linearHalf_eq, mhalfBody, linearHalf_eq]
  rfl

theorem mkeyBody_relabel : mkeyBody (s.relabel n b) = (mkeyBody s).relabel n b := rfl

theorem roundBody_relabel : roundBody P (s.relabel n b) = (roundBody P s).relabel n b := by
  rw [roundBody, mhalfBody_relabel, mhalfBody_relabel, mkeyBody_relabel, roundBody]

theorem countCommand_relabel : countCommand (s.relabel n b) = s.relabel (n + 1) b := rfl

end

/-- A ready block with an initialised datapath that has done `j` key additions since MINIT: OFF is the
schedule shifted `j` times (R249). -/
structure State.AtRound (j : Nat) (s : State) : Prop where
  ready : s.Ready
  dpInit : s.status.dpInit = true
  off : s.off = (0x924 : Word) >>> (2 * j)

/-- OFF is not 0 before the sixth key addition (R249). -/
theorem State.AtRound.off_ne_zero {j : Nat} {s : State} (h : s.AtRound j) (hj : j < 6) : s.off ≠ 0 := by
  rw [h.off]
  interval_cases j <;> decide

theorem BodyChanges.ready {s t : State} (h : BodyChanges s t) (hr : s.Ready) : t.Ready := by
  rw [h.shared]
  exact hr

/-- MINIT starts the schedule (R247). -/
theorem minitBody_atRound {s : State} (hr : s.Ready) : (minitBody s).AtRound 0 :=
  ⟨(minitBody_body s).ready hr, rfl, rfl⟩

section
variable {j : Nat} {s : State}

theorem State.AtRound.relabel (h : s.AtRound j) (n : Word) (b : Bool) : (s.relabel n b).AtRound j :=
  ⟨h.ready, h.dpInit, h.off⟩

theorem State.AtRound.half (h : s.AtRound j) (P : Prng) (ref : Bool) :
    (mhalfBody P ref s).AtRound j :=
  ⟨((sboxLayer_body P 0 ref s).trans (linearHalf_body _)).ready h.ready,
    (linearHalf_within _).dpKept ((sboxLayer_within P 0 ref s).dpKept h.dpInit),
    (sboxLayer_off P 0 ref s).trans h.off⟩

theorem State.AtRound.round (h : s.AtRound j) (P : Prng) : (roundBody P s).AtRound (j + 1) := by
  have h2 := (h.half P true).half P false
  refine ⟨(mkeyBody_body _).ready h2.ready, h2.dpInit, ?_⟩
  change (mhalfBody P false (mhalfBody P true s)).off >>> 2 = _
  rw [h2.off, ← BitVec.shiftRight_add, Nat.mul_succ]

theorem State.AtRound.rounds (h : s.AtRound j) (P : Prng) (k : Nat) :
    ((roundBody P)^[k] s).AtRound (j + k) := by
  induction k generalizing j s with
  | zero => exact h
  | succ k ih =>
    rw [show j + (k + 1) = j + 1 + k by omega]
    exact ih (h.round P)

/-! ### The commands of MROUND (R129) -/

theorem runCommands_cons {i : Instr} {s t : State} (h : exec i s = .next t) (is : List Instr) :
    runCommands (i :: is) s = runCommands is t := by
  simp only [runCommands, h]

/-- The refresh flag of a command as the field N holds it (R127). -/
theorem flag_range {i : Imm} {ref : Bool} (hi : i.val = ref.toNat) : i.val ≤ 1 ∧ (i.val == 1) = ref := by
  cases ref <;> simp [hi]

theorem exec_mhalf_relabel (h : s.AtRound j) {i : Imm} {ref : Bool} (hi : i.val = ref.toNat) (n : Word)
    (b : Bool) : exec (.mhalf i) (s.relabel n b) =
      .next ((mhalfBody Config.prng ref s).relabel (n + 1) b) := by
  have hl := h.relabel n b
  obtain ⟨hle, hflag⟩ := flag_range hi
  rw [exec_mhalf hl.ready hl.dpInit hle, hflag, mhalfBody_relabel, countCommand_relabel]

theorem exec_mkey_relabel (h : s.AtRound j) (hj : j < 6) (n : Word) (b : Bool) :
    exec .mkey (s.relabel n b) = .next ((mkeyBody s).relabel (n + 1) b) := by
  have hl := h.relabel n b
  rw [exec_mkey hl.ready hl.dpInit (hl.off_ne_zero hj), mkeyBody_relabel, countCommand_relabel]

theorem exec_ssbox_relabel (h : s.AtRound j) {i : Imm} {ref : Bool} (hi : i.val = ref.toNat) (n : Word)
    (b : Bool) : exec (.ssbox 0 i) (s.relabel n b) =
      .next ((sboxLayer Config.prng 0 ref s).relabel (n + 1) b) := by
  obtain ⟨hle, hflag⟩ := flag_range hi
  rw [exec_of_ready (h.relabel n b).ready (ssbox_operands (by decide) hle) rfl, bodyOf, hflag,
    sboxLayer_relabel, countCommand_relabel]

/-- `k` times MROUND is `k` rounds, each of three commands. -/
theorem runCommands_mrounds (h : s.AtRound j) {k : Nat} (hk : j + k ≤ 6) (n : Word) (b : Bool)
    (is : List Instr) :
    ∃ n', runCommands ((List.replicate k pseudoMround).flatten ++ is) (s.relabel n b) =
      runCommands is (((roundBody Config.prng)^[k] s).relabel n' b) := by
  induction k generalizing j s n with
  | zero => exact ⟨n, rfl⟩
  | succ k ih =>
    have h1 := h.half Config.prng true
    have h2 := h1.half Config.prng false
    obtain ⟨n', hn⟩ := ih (h.round Config.prng) (by omega) (n + 1 + 1 + 1)
    refine ⟨n', .trans ?_ hn⟩
    change runCommands
      (.mhalf 1 :: .mhalf 0 :: .mkey :: ((List.replicate k pseudoMround).flatten ++ is)) _ = _
    rw [runCommands_cons (exec_mhalf_relabel (ref := true) h rfl n b),
      runCommands_cons (exec_mhalf_relabel (ref := false) h1 rfl _ b),
      runCommands_cons (exec_mkey_relabel h2 (by omega) _ b), roundBody]

end

section
variable {s : State}

/-- MINIT and then `k` times MROUND. -/
theorem runCommands_minit_mrounds (hr : s.Ready) {k : Nat} (hk : k ≤ 6) (is : List Instr) :
    ∃ n, runCommands (.minit :: ((List.replicate k pseudoMround).flatten ++ is)) s =
      runCommands is (((roundBody Config.prng)^[k] (minitBody s)).relabel n s.status.early) := by
  obtain ⟨n, hn⟩ := runCommands_mrounds (minitBody_atRound hr) (k := k) (by omega) (s.cmdCount + 1)
    s.status.early is
  exact ⟨n, (runCommands_cons (exec_of_ready hr rfl rfl) _).trans hn⟩

/-- MPERM up to the round its marker names, or to its end. -/
theorem mpermBody_rounds (P : Prng) {k n : Nat} (hk : k + n = s.rounds)
    (hm : s.exit.en = true → k ≤ s.exit.round.toNat) :
    mpermBody P s =
      mpermRounds P s.exit n k (((roundBody P)^[k] (minitBody s)).relabel s.cmdCount false) := by
  have hcomm : Function.Commute (roundBody P)^[k] (State.relabel s.cmdCount false) :=
    Function.Commute.iterate_left (roundBody_relabel P s.cmdCount false) k
  rw [mpermBody, ← hk, mpermRounds_add P _ (by simpa using hm), Nat.zero_add, ← hcomm.eq]
  rfl

end

/-- Settles O56: the commands run in step with MPERM, apart from CMD_COUNT and EARLY. -/
theorem mpermIsItsSteps : Obligations.MpermIsItsSteps := by
  intro s hr hinv hm
  have hm' : s.exit.en = true → s.rounds ≤ s.exit.round.toNat := fun h => by simp [hm] at h
  obtain ⟨-, -, h6⟩ := hinv.configured hr.2
  obtain ⟨n, hn⟩ := runCommands_minit_mrounds hr h6 []
  rw [List.append_nil] at hn
  refine ⟨_, _, exec_mperm hr fun h => by simp [hm] at h, hn, ?_⟩
  rw [mpermBody_rounds Config.prng (Nat.add_zero _) hm']
  rfl

/-- Settles O57: as O56 up to the round the marker names, then the half-round it names. -/
theorem mpermStopsAtTheMarker : Obligations.MpermStopsAtTheMarker := by
  intro s hr hinv he hlt
  obtain ⟨-, -, h6⟩ := hinv.configured hr.2
  have hn : s.exit.round.toNat + (s.rounds - s.exit.round.toNat - 1 + 1) = s.rounds := by omega
  have hat := (minitBody_atRound hr).rounds Config.prng s.exit.round.toNat
  have hbody := mpermBody_rounds Config.prng hn fun _ => le_rfl
  cases hh : s.exit.half with
  | false =>
    obtain ⟨n, hn⟩ := runCommands_minit_mrounds hr (show s.exit.round.toNat ≤ 6 by omega) [.ssbox 0 1]
    rw [runCommands_cons (exec_ssbox_relabel (ref := true) hat rfl _ _)] at hn
    refine ⟨_, _, exec_mperm hr fun _ => hlt, hn, ?_⟩
    rw [hbody, mpermRounds_first Config.prng _ ⟨he, rfl⟩ hh, sboxLayer_relabel]
    rfl
  | true =>
    obtain ⟨n, hn⟩ := runCommands_minit_mrounds hr (show s.exit.round.toNat ≤ 6 by omega)
      [.mhalf 1, .ssbox 0 0]
    rw [runCommands_cons (exec_mhalf_relabel (ref := true) hat rfl _ _),
      runCommands_cons (exec_ssbox_relabel (ref := false) (hat.half _ _) rfl _ _)] at hn
    refine ⟨_, _, exec_mperm hr fun _ => hlt, hn, ?_⟩
    rw [hbody, mpermRounds_second Config.prng _ ⟨he, rfl⟩ hh, mhalfBody_relabel, sboxLayer_relabel]
    rfl

/-! ## The draws of MPERM (R252) -/

/-- `a + b` single draws are `a` and then `b`. -/
theorem drawWords_add (P : Prng) (a b : Nat) (s : State) :
    (drawWords P (a + b) s).1 = (drawWords P b (drawWords P a s).1).1 := by
  induction a generalizing s with
  | zero => simp [drawWords]
  | succ a ih =>
    rw [Nat.succ_add]
    exact ih _

/-- What draws read and write: the block without V, X, TK, RNG_DIS and the registers of `Control`. -/
def State.drawView (s : State) : State := s.prngView.withControl {}

theorem drawView_order (s : State) : s.drawView.order = s.order := rfl

theorem drawWords_drawView (P : Prng) (k : Nat) (s : State) :
    (drawWords P k s.drawView).1 = (drawWords P k s).1.drawView := by
  rw [State.drawView, drawWords_withControl, drawWords_prngView, State.drawView]

/-- Blocks of one configuration and equal view differ in V, X, TK and the registers of `Control` only. -/
theorem eq_of_drawView {t u : State} (h : t.drawView = u.drawView) (hc : t.cfg = u.cfg) :
    t = { u with
        lanes := t.lanes, cmdCount := t.cmdCount, rc := t.rc, off := t.off
        status := { u.status with dpInit := t.status.dpInit, early := t.status.early } } ∧
      LaneWise (fun a b => b = { a with v := b.v, x := b.x, tk := b.tk }) u t := by
  have hview : (t.withControl {}).prngView = (u.withControl {}).prngView := h
  obtain ⟨hshared, hlanes⟩ := prngView_eq_iff.mp hview
  have ht := congrArg
    (State.withControl ⟨t.cmdCount, t.rc, t.off, t.status.dpInit, t.status.early⟩) hshared
  have hcfg : (t.withControl {}).cfg = u.cfg := hc
  rw [hcfg] at ht
  exact ⟨ht, hlanes⟩

section
variable (P : Prng) (s : State)

/-- A half-round leaves the PRNG as its draws do. -/
theorem mhalfBody_drawView (ref : Bool) :
    (mhalfBody P ref s).drawView = (drawWords P (sboxDraws s.order ref) s.drawView).1 := by
  rw [mhalfBody, State.drawView, linearHalf_prngView, sboxLayer_prngView, State.drawView,
    drawWords_withControl]
  rfl

theorem mkeyBody_drawView : (mkeyBody s).drawView = s.drawView := by
  rw [State.drawView, mkeyBody_prngView]
  rfl

theorem minitBody_drawView : (minitBody s).drawView = s.drawView := by
  rw [State.drawView, minitBody_prngView]
  rfl

/-- The words of one round. -/
def roundDraws (d : Nat) : Nat := sboxDraws d true + sboxDraws d false

theorem roundBody_drawView :
    (roundBody P s).drawView = (drawWords P (roundDraws s.order) s.drawView).1 := by
  have ho : (mhalfBody P true s).order = s.order := sboxLayer_order P 0 true s
  rw [roundBody, mkeyBody_drawView, mhalfBody_drawView, ho, mhalfBody_drawView, ← drawWords_add, roundDraws]

theorem rounds_drawView (n : Nat) :
    ((roundBody P)^[n] s).drawView = (drawWords P (n * roundDraws s.order) s.drawView).1 := by
  induction n generalizing s with
  | zero => simp [drawWords]
  | succ n ih =>
    have ho : (roundBody P s).order = s.order := by
      have h := congrArg State.order (roundBody_drawView P s)
      rwa [(drawWords_same P _ _).order, drawView_order, drawView_order] at h
    rw [Function.iterate_succ_apply, ih, ho, roundBody_drawView, ← drawWords_add, Nat.succ_mul,
      Nat.add_comm]

end

/-- The number of words as R252 has it: D·(D-1) is even. -/
theorem roundDraws_eq (d : Nat) : roundDraws d = 4 * d * (d - 1) + if d < 4 then d else 2 * d := by
  have h : d * (d - 1) / 2 * 2 = d * (d - 1) := Nat.div_mul_cancel (Nat.even_mul_pred_self d).two_dvd
  simp only [roundDraws, sboxDraws, iswDraws, refreshDraws, Nat.mul_assoc, if_true]
  simp only [Bool.false_eq_true, if_false]
  omega

/-- Settles O58: MPERM leaves what a draw reads as its draws do, and the lanes as in `mpermBody_lanes`. -/
theorem mpermDrawsAndFrame : Obligations.MpermDrawsAndFrame := by
  intro s hr hinv hm d u
  have hm' : s.exit.en = true → s.rounds ≤ s.exit.round.toNat := fun h => by simp [hm] at h
  have hbody := mpermBody_rounds Config.prng (Nat.add_zero _) hm'
  have hdp := ((minitBody_atRound hr).rounds Config.prng s.rounds).dpInit
  have hsame : SameButPrng s u := drawWords_same Config.prng _ s
  have hchanges : BodyChanges s (mpermBody Config.prng s) := bodyOf_changes .mperm s
  have hwithin : Within _ s (mpermBody Config.prng s) := bodyOf_within .mperm s
  have hview : (mpermBody Config.prng s).drawView = u.drawView := by
    rw [hbody, ← drawWords_drawView, ← minitBody_drawView s, ← roundDraws_eq]
    exact rounds_drawView Config.prng (minitBody s) s.rounds
  have hcfg : (mpermBody Config.prng s).cfg = u.cfg := by rw [hchanges.shared, hsame.cfg]
  obtain ⟨hshared, hlanes⟩ := eq_of_drawView hview hcfg
  refine ⟨_, exec_mperm hr fun h => by simp [hm] at h, ?_, hchanges.lanes.length_eq.symm, hsame.nl,
    fun l a c ha hc => ?_⟩
  · refine (congrArg countCommand hshared).trans ?_
    have hcount : (mpermBody Config.prng s).cmdCount = s.cmdCount := by rw [hchanges.shared]
    have hstatus : (mpermBody Config.prng s).status.dpInit = true ∧
        (mpermBody Config.prng s).status.early = false := by
      rw [hbody]
      exact ⟨hdp, rfl⟩
    rw [hstatus.1, hstatus.2, countCommand, hcount]
    rfl
  · obtain ⟨hl, -⟩ := List.getElem?_eq_some_iff.mp ha
    have hb := List.getElem?_eq_getElem (hchanges.lanes.length_eq ▸ hl)
    obtain ⟨htk, hout, -⟩ := forall₂_getElem? (mpermBody_lanes ⟨hinv, hr.2⟩ Config.prng) ha hb
    have hx := (forall₂_getElem? hwithin.lanes ha hb).x (by simp [footprint, drawTargets])
    have hca := forall₂_getElem? hsame.lanes ha hc
    have hbc := forall₂_getElem? hlanes hc hb
    refine ⟨_, hb, ?_, hout⟩
    rw [htk, hx, hca] at hbc
    exact hbc

end Sys2Proof.Machine

/-! Proofs about the issue of commands (spec/44_system.md): a write of CMD runs the decoded command (R290),
NOP (R291), and the checks of a command word in their order with the count of a command that passes
(R292, R303, R304). -/

namespace Sys2Proof.Machine

/-! ## Issue(w) (R290) -/

theorem issue_of_faulted {w : Word} {s : State} (hf : s.status.fault = true) : issue w s = .next s := by
  simp [issue, hf]

theorem issue_of_command {w : Word} {s : State} {i : Instr} (hf : s.status.fault = false)
    (hd : decode w = .ok i) : issue w s = exec i s := by
  simp [issue, hf, hd]

/-- A write of CMD, at address 0x00C, is the issue of the word (R82, R290). -/
theorem step_write_cmd {s : State} {rest : List Access} {w : Word}
    (hp : s.port = .write 0x00C 32 w :: rest) (hf : s.status.fault = false) :
    step s = issue w { s with port := rest, reply := none } :=
  step_write_of_reg (r := .cmd) hp hf (by decide) (by decide)

/-- The access `withFetchWord` puts first writes the whole word. -/
theorem commandAccess_toNat (w : Word) : commandAccess 32 w.toNat = .write 0x00C 32 w := by
  rw [commandAccess, Nat.mod_eq_of_lt w.isLt, BitVec.ofNat_toNat, BitVec.setWidth_eq]

theorem withFetchWord_port (s : State) (w : Word) :
    (s.withFetchWord 32 w.toNat).port = .write 0x00C 32 w :: s.port :=
  congrArg (· :: s.port) (commandAccess_toNat w)

/-- Settles O5: the step is the issue of the word, and the word decodes. -/
theorem stepRunsTheDecodedCommand : Obligations.StepRunsTheDecodedCommand := by
  refine ⟨fun s rest w i hp hf hd => ?_, fun s w i hf hd => ?_, fun s => step_idle⟩
  · exact (step_write_cmd hp hf).trans (issue_of_command hf hd)
  · exact (step_write_cmd (withFetchWord_port s w) hf).trans (issue_of_command hf hd)

/-! ## The checks of a command and its count (R291, R292, R303, R304) -/

/-- NOP needs no configuration and has no operand, so no check applies to it (R291). -/
theorem expectedFault_nop (s : State) : expectedFault .nop s = none := by
  simp [expectedFault]

/-- Settles O37: NOP passes its checks, and its execution is the identity. -/
theorem nopOnlyCounts : Obligations.NopOnlyCounts := fun s hf =>
  exec_of_pass hf (expectedFault_nop s)

/-- The execution of a command raises no fault, and leaves ERR, ERRINFO and CMD_COUNT to its issue. -/
theorem BodyChanges.noFault {s t : State} (h : BodyChanges s t) :
    t.status.fault = s.status.fault ∧ t.status.err = s.status.err ∧ t.errinfo = s.errinfo ∧
      t.cmdCount = s.cmdCount := by
  rw [h.shared]
  exact ⟨rfl, rfl, rfl, rfl⟩

/-- Settles O12: a word is refused, is illegal or is its command; the command is refused, takes its first
fault, or runs and is counted. -/
theorem commandChecksInOrder : Obligations.CommandChecksInOrder := by
  refine ⟨fun w s => ⟨issue_of_faulted, issue_of_no_command, fun hf i => issue_of_command hf⟩,
    fun i s => ⟨exec_of_faulted, fun hf e => exec_of_fault hf, fun hf hp => ?_⟩⟩
  obtain ⟨hfault, herr, hinfo, hcount⟩ := (bodyOf_changes i s).noFault
  exact ⟨_, exec_of_pass hf hp, hfault.trans hf, herr, hinfo, congrArg (· + 1) hcount⟩

end Sys2Proof.Machine

/-! Proofs about exceptions (spec/60_exceptions.md): every access answers a next state (R290, R310, R330),
a step that faults changes the fault fields alone (R312), the checks of session construction (R301), and
the faulted block (R311, R313, R314). -/

namespace Sys2Proof.Machine

/-! ## Every access answers a next state (R290, R310, R330) -/

theorem issue_next (w : Word) (s : State) : ∃ t, issue w s = .next t := by
  unfold issue
  split
  · exact ⟨_, rfl⟩
  split
  · exact ⟨_, rfl⟩
  · exact exec_next _ s

/-- Of the register writes CMD alone runs a command; every other answers its next state outright. -/
theorem writeReg_next (addr : BitVec 12) (r : PortReg) (w : Word) (s : State) :
    ∃ t, writeReg addr r w s = .next t := by
  cases r with
  | cmd => exact issue_next w s
  | _ => exact ⟨_, rfl⟩

theorem portWrite_next (addr : BitVec 12) (bits : Nat) (w : Word) (s : State) :
    ∃ t, portWrite addr bits w s = .next t := by
  unfold portWrite
  split
  · exact ⟨_, rfl⟩
  split
  · exact ⟨_, rfl⟩
  · exact writeReg_next addr _ w s

theorem performAccess_next (a : Access) (s : State) : ∃ t, performAccess a s = .next t := by
  cases a with
  | write addr bits w => exact portWrite_next addr bits w { s with reply := none }
  | read | readV | writeV | reset => exact ⟨_, rfl⟩

/-- Settles O11: the step is an access performed in full, or the idle block. -/
theorem everyStepGoesOn : Obligations.EveryStepGoesOn := by
  intro s
  cases hp : s.port with
  | nil => exact ⟨s, step_idle hp⟩
  | cons a rest => rw [step_access hp]; exact performAccess_next a _

/-! ## Faults are precise (R310, R312) -/

/-- If `t` is faulted, it is `s` with a fault recorded, but for the word returned to the host. -/
def FaultsPrecisely (s t : State) : Prop :=
  t.status.fault = true →
    ∃ e info, e ≠ .none ∧ t = { s.withFault e info with reply := t.reply }

/-- A change that raises no fault is precise. -/
theorem FaultsPrecisely.of_ok {s t : State} (h : t.status.fault = false) : FaultsPrecisely s t :=
  fun ht => absurd ht (by simp [h])

/-- The words returned to the host are no part of the comparison. -/
theorem FaultsPrecisely.of_reply {s t : State} {reply : Option Word}
    (h : FaultsPrecisely { s with reply := reply } t) : FaultsPrecisely s t := h

theorem FaultsPrecisely.with_reply {s t : State} (h : FaultsPrecisely s t) (reply : Option Word) :
    FaultsPrecisely s { t with reply := reply } := fun hf => by
  obtain ⟨e, info, he, ht⟩ := h hf
  refine ⟨e, info, he, ?_⟩
  rw [ht]

section
variable {s t : State} (hf : s.status.fault = false)
include hf

theorem raiseFault_precise {code : ErrCode} (hc : code ≠ .none) (info : Word) :
    FaultsPrecisely s (raiseFault code info s) := by
  rw [raiseFault_of_ok hf]
  exact fun _ => ⟨code, info, hc, rfl⟩

theorem portFault_precise (addr : BitVec 12) : FaultsPrecisely s (portFault addr s) :=
  raiseFault_precise hf (by decide) _

/-- A command that runs raises no fault; one that does not takes the fault of its first check. -/
theorem exec_precise {i : Instr} (h : exec i s = .next t) : FaultsPrecisely s t := by
  obtain ⟨-, rfl⟩ | ⟨e, -, he, rfl⟩ | ⟨-, -, rfl⟩ := exec_cases h
  · exact .of_ok hf
  · exact fun _ => ⟨e, encode i, expectedFault_ne_none he, rfl⟩
  · obtain ⟨hfault, -⟩ := (bodyOf_changes i s).noFault
    exact .of_ok (hfault.trans hf)

theorem issue_precise {w : Word} (h : issue w s = .next t) : FaultsPrecisely s t := by
  cases hd : decode w with
  | ok i => exact exec_precise hf (issue_of_command hf hd ▸ h)
  | error e =>
    rw [issue_of_no_command hf (by simp [hd])] at h
    cases h
    exact fun _ => ⟨.illegal, w, by decide, rfl⟩

theorem cfgWrite_precise (w : Word) : FaultsPrecisely s (cfgWrite w s) := by
  unfold cfgWrite
  simp only
  split
  · exact raiseFault_precise hf (by decide) w
  split
  · exact raiseFault_precise hf (by decide) w
  split
  · exact raiseFault_precise hf (by decide) w
  · exact .of_ok hf

theorem laneSelWrite_precise (w : Word) : FaultsPrecisely s (laneSelWrite w s) := by
  unfold laneSelWrite
  simp only
  split
  · exact raiseFault_precise hf (by decide) w
  · exact .of_ok hf

theorem hostWriteV_precise (r : VReg) (i : Fin 8) (w : Word) :
    FaultsPrecisely s (hostWriteV r i w s) := by
  rw [hostWriteV_frame]
  exact .of_ok hf

theorem writeReg_precise {addr : BitVec 12} {r : PortReg} {w : Word}
    (h : writeReg addr r w s = .next t) : FaultsPrecisely s t := by
  cases r with
  | cmd => exact issue_precise hf h
  | cfg => cases h; exact cfgWrite_precise hf w
  | laneSel => cases h; exact laneSelWrite_precise hf w
  | v r i => cases h; exact hostWriteV_precise hf r i w
  | exit | x | seed => cases h; exact .of_ok hf
  | id | status | errinfo | cmdCount | permCount | rc | off | cursor | core | tape | tk =>
    cases h; exact portFault_precise hf addr

theorem portRead_precise (addr : BitVec 12) (bits : Nat) :
    FaultsPrecisely s (portRead addr bits s) := by
  unfold portRead
  split
  · exact .of_ok hf
  · exact (portFault_precise hf addr).with_reply _

theorem portWrite_precise {addr : BitVec 12} {bits : Nat} {w : Word}
    (h : portWrite addr bits w s = .next t) : FaultsPrecisely s t := by
  unfold portWrite at h
  rw [if_neg (by simp [hf])] at h
  split at h
  · cases h; exact portFault_precise hf addr
  · exact writeReg_precise hf h

theorem portWriteV_precise (r : VReg) (i : Fin 8) (w : Word) :
    FaultsPrecisely s (portWriteV r i w s) := by
  rw [portWriteV, if_neg (by simp [hf])]
  exact hostWriteV_precise hf r i w

theorem performAccess_precise {a : Access} (h : performAccess a s = .next t) :
    FaultsPrecisely s t := by
  cases a with
  | read addr bits => cases h; exact portRead_precise hf addr bits
  | write addr bits w => exact .of_reply (portWrite_precise (s := { s with reply := none }) hf h)
  | readV => cases h; exact .of_ok hf
  | writeV r i w =>
    cases h
    exact .of_reply (portWriteV_precise (s := { s with reply := none }) hf r i w)
  | reset => cases h; exact .of_ok rfl

end

/-- Settles O14: an idle block takes no fault, and every access is precise once it is off the queue. -/
theorem faultsArePrecise : Obligations.FaultsArePrecise := by
  intro s t hf h ht
  cases hp : s.port with
  | nil =>
    rw [step_idle hp] at h
    cases h
    exact absurd ht (by simp [hf])
  | cons a rest =>
    rw [step_access hp] at h
    exact performAccess_precise (s := { s with port := rest }) hf h ht

/-! ## Session construction (R40, R301) -/

/-- The written D, by division (R40). -/
theorem cfgOrder_toNat (w : Word) : (w.extractLsb' 0 4).toNat = w.toNat % 16 := by
  simp [extractLsb'_eq_div]

/-- The written RND, by division (R40). -/
theorem cfgRounds_toNat (w : Word) : (w.extractLsb' 4 4).toNat = w.toNat / 16 % 16 := by
  simp [extractLsb'_eq_div]

/-- The round count stored for a written one: 6 for a written 0 (R40). -/
theorem storedRounds_eq (rnd : BitVec 4) :
    (if rnd = 0 then 6 else rnd) = BitVec.ofNat 4 (if rnd.toNat = 0 then 6 else rnd.toNat) := by
  by_cases h : rnd = 0
  · rw [h]; rfl
  · have hn : rnd.toNat ≠ 0 := fun e => h (BitVec.eq_of_toNat_eq e)
    rw [if_neg h, if_neg hn, BitVec.ofNat_toNat, BitVec.setWidth_eq]

section
variable {s : State} {w : Word} (hv : s.status.cfgValid = false)
include hv

theorem cfgWrite_of_order (hd : w.toNat % 16 < 2 ∨ 8 < w.toNat % 16) :
    cfgWrite w s = raiseFault .cfgOrder w s := by
  simp only [cfgWrite, hv, cfgOrder_toNat, if_pos hd]
  rfl

theorem cfgWrite_of_rounds (h2 : 2 ≤ w.toNat % 16) (h8 : w.toNat % 16 ≤ 8)
    (hr : 6 < w.toNat / 16 % 16) : cfgWrite w s = raiseFault .cfgRounds w s := by
  have hd : ¬ (w.toNat % 16 < 2 ∨ 8 < w.toNat % 16) := by omega
  simp only [cfgWrite, hv, cfgOrder_toNat, cfgRounds_toNat, if_neg hd, if_pos hr]
  rfl

theorem cfgWrite_accepted (h2 : 2 ≤ w.toNat % 16) (h8 : w.toNat % 16 ≤ 8)
    (hr : w.toNat / 16 % 16 ≤ 6) :
    cfgWrite w s =
      { s with
        cfg := { d := BitVec.ofNat 4 (w.toNat % 16)
                 rnd := BitVec.ofNat 4 (if w.toNat / 16 % 16 = 0 then 6 else w.toNat / 16 % 16)
                 rngDis := decide (w.toNat / 256 % 2 = 1) }
        status := { s.status with cfgValid := true } } := by
  have hd : ¬ (w.toNat % 16 < 2 ∨ 8 < w.toNat % 16) := by omega
  have hr : ¬ 6 < w.toNat / 16 % 16 := by omega
  have horder : w.extractLsb' 0 4 = BitVec.ofNat 4 (w.toNat % 16) := by
    rw [← cfgOrder_toNat, BitVec.ofNat_toNat, BitVec.setWidth_eq]
  simp only [cfgWrite, hv, cfgOrder_toNat, cfgRounds_toNat, storedRounds_eq, if_neg hd, if_neg hr]
  rw [horder, getLsbD_eq_div]
  rfl

end

/-- Settles O15: address 0x004 is CFG, and an unfaulted block takes the fault of the write's first check. -/
theorem sessionConstruction : Obligations.SessionConstruction := by
  intro s rest w hp hf u d rnd
  have hstep : step s = .next (cfgWrite w u) :=
    step_write_of_reg (r := .cfg) hp hf (by decide) (by decide)
  have hfault (e : ErrCode) : raiseFault e w u = u.withFault e w := raiseFault_of_ok (s := u) hf e w
  simp only [hstep, ← hfault]
  refine ⟨fun hv => ?_, fun hv hd => ?_, fun hv h2 h8 hr => ?_, fun hv h2 h8 hr => ?_⟩
  · rw [cfgWrite_of_configured (s := u) hv]
  · rw [cfgWrite_of_order (s := u) hv hd]
  · rw [cfgWrite_of_rounds (s := u) hv h2 h8 hr]
  · rw [cfgWrite_accepted (s := u) hv h2 h8 hr]

/-! ## The faulted block (R311, R313, R314) -/

/-- A read that reaches no register returns 0, faulted or not (R302). -/
theorem portRead_refused_reply {addr : BitVec 12} {bits : Nat} (h : ReachesNoRegister addr bits)
    (s : State) : (portRead addr bits s).reply = some 0 := by
  rw [portRead, h.target_eq_none]

section
variable {s : State} (hf : s.status.fault = true)
include hf

/-- A read of a faulted block changes the word returned alone: the first fault is kept (R314). -/
theorem portRead_faulted (addr : BitVec 12) (bits : Nat) :
    portRead addr bits s = { s with reply := (portRead addr bits s).reply } := by
  unfold portRead
  split
  · rfl
  · rw [portFault, raiseFault_of_faulted hf]

theorem portWriteV_faulted (r : VReg) (i : Fin 8) (w : Word) : portWriteV r i w s = s := by
  rw [portWriteV, if_pos hf]

/-- Every access but reset leaves every register of a faulted block as it is (R311, R313). -/
theorem performAccess_faulted {a : Access} (ha : a ≠ .reset) :
    ∃ t, performAccess a s = .next t ∧ t = { s with reply := t.reply } := by
  cases a with
  | read addr bits => exact ⟨_, rfl, portRead_faulted hf addr bits⟩
  | write addr bits w => exact ⟨_, portWrite_faulted (s := { s with reply := none }) hf addr bits w, rfl⟩
  | readV => exact ⟨_, rfl, rfl⟩
  | writeV r i w =>
    have hw := portWriteV_faulted (s := { s with reply := none }) hf r i w
    exact ⟨_, congrArg Host.Outcome.next hw, rfl⟩
  | reset => exact absurd rfl ha

end

/-- Settles O13: the access leaves the registers alone, and a read returns its register's word or 0. -/
theorem faultedBlockIsFrozen : Obligations.FaultedBlockIsFrozen := by
  intro s a rest hf hp ha
  obtain ⟨t, hstep, hframe⟩ := performAccess_faulted (s := { s with port := rest }) hf ha
  refine ⟨t, (step_access hp).trans hstep, hframe, ?_⟩
  rintro addr bits rfl
  cases hstep
  refine ⟨fun h => portRead_refused_reply h _, ?_⟩
  rintro r rfl h4 hr
  exact congrArg State.reply (portRead_of_reg h4 hr { s with port := rest })

end Sys2Proof.Machine

/-! Proofs about reset and the ordering rules (spec/70_reset_and_hazards.md): what the reset input leaves
(R350, R351), that a SEED written while the PRNG runs waits for the next seeding (R362), and that MPERM
alone reads EXIT (R363). -/

namespace Sys2Proof.Machine

/-! ## The reset input (R313, R350, R351) -/

/-- Settles O8: the step is the reset of the block, whose queue holds the accesses after this one. -/
theorem resetInputRestoresReset : Obligations.ResetInputRestoresReset :=
  fun _ _ hp => step_access hp

/-! ## Who reads SEED and EXIT (R362, R363)

`s.withSeedExit f m` is the block with `f` applied to the SEED of every lane and `m` in EXIT. The seeding
step alone reads SEED and MPERM alone reads EXIT, so every other operation commutes with that change. -/

/-- The lane with `f` applied to its SEED. -/
def Lane.mapSeed (f : Vector Word 4 → Vector Word 4) (a : Lane) : Lane := { a with seed := f a.seed }

theorem writeGroup_mapSeed (f : Vector Word 4 → Vector Word 4) (d base : Nat) (new : List ShareVec)
    (a : Lane) : (a.mapSeed f).writeGroup d base new = (a.writeGroup d base new).mapSeed f := by
  simp only [Lane.mapSeed, Lane.writeGroup]

theorem writeQuad_mapSeed (f : Vector Word 4 → Vector Word 4) (d : Nat) (r : VReg) (q : Quad) (a : Lane) :
    (a.mapSeed f).writeQuad d r q = (a.writeQuad d r q).mapSeed f :=
  writeGroup_mapSeed f d r _ a

theorem writePublic_mapSeed (f : Vector Word 4 → Vector Word 4) (k : XReg) (new : List Word) (a : Lane) :
    (a.mapSeed f).writePublic k new = (a.writePublic k new).mapSeed f := by
  simp only [Lane.mapSeed, Lane.writePublic]

/-- The block with `f` applied to the SEED of every lane and `m` in EXIT. -/
def State.withSeedExit (f : Vector Word 4 → Vector Word 4) (m : ExitMarker) (s : State) : State :=
  { s with lanes := s.lanes.map (Lane.mapSeed f), exit := m }

@[simp] theorem withSeedExit_lanes (f : Vector Word 4 → Vector Word 4) (m : ExitMarker) (s : State) :
    (s.withSeedExit f m).lanes = s.lanes.map (Lane.mapSeed f) := rfl

@[simp] theorem withSeedExit_order (f : Vector Word 4 → Vector Word 4) (m : ExitMarker) (s : State) :
    (s.withSeedExit f m).order = s.order := rfl

theorem withSeedExit_id (m : ExitMarker) (s : State) : s.withSeedExit id m = { s with exit := m } := by
  have h : Lane.mapSeed id = id := rfl
  simp [State.withSeedExit, h]

/-- `f` leaves every SEED alone unless the PRNG runs, so no draw can tell it was applied (R362). -/
def State.SeedHidden (f : Vector Word 4 → Vector Word 4) (s : State) : Prop :=
  s.status.prngRun = false → f = id

theorem State.SeedHidden.of_run {f : Vector Word 4 → Vector Word 4} {s : State}
    (hr : s.status.prngRun = true) : s.SeedHidden f := fun h => absurd hr (by simp [h])

/-- An operation that does not stop the PRNG leaves SEED hidden. -/
theorem State.SeedHidden.of_within {f : Vector Word 4 → Vector Word 4} {F : List Target} {s t : State}
    (h : s.SeedHidden f) (hw : Within F s t) (hF : .runClear ∉ F) : t.SeedHidden f := fun ht =>
  h (by_contra fun hs => by
    rw [Bool.not_eq_false] at hs
    exact absurd (hw.runClear hF hs) (by simp [ht]))

section
variable {f : Vector Word 4 → Vector Word 4} {m : ExitMarker} {s : State}

theorem mapLanes_withSeedExit {g : Lane → Lane} (hg : ∀ a, g (a.mapSeed f) = (g a).mapSeed f) :
    (s.withSeedExit f m).mapLanes g = (s.mapLanes g).withSeedExit f m := by
  simp [State.withSeedExit, State.mapLanes, hg]

theorem zipLanes_withSeedExit {g : Lane → List Word → Lane}
    (hg : ∀ a ws, g (a.mapSeed f) ws = (g a ws).mapSeed f) (ws : List (List Word)) :
    (s.withSeedExit f m).zipLanes g ws = (s.zipLanes g ws).withSeedExit f m := by
  simp [State.withSeedExit, State.zipLanes, List.zipWith_map_left, List.map_zipWith, hg]

/-- A command that writes one group of share-vectors, from registers other than SEED. -/
theorem mapLanes_writeGroup_withSeedExit {d base : Nat} {new : Lane → List ShareVec}
    (hn : ∀ a, new (a.mapSeed f) = new a) :
    ((s.withSeedExit f m).mapLanes fun a => a.writeGroup d base (new a)) =
      (s.mapLanes fun a => a.writeGroup d base (new a)).withSeedExit f m :=
  mapLanes_withSeedExit fun a => by rw [hn, writeGroup_mapSeed]

/-! ### The PRNG -/

theorem stepCores_withSeedExit (P : Prng) :
    stepCores P (s.withSeedExit f m) = (stepCores P s).withSeedExit f m := by
  simp [State.withSeedExit, stepCores, Lane.mapSeed]

theorem extractHalf_withSeedExit (P : Prng) (h : Nat) :
    extractHalf P h (s.withSeedExit f m) = (extractHalf P h s).withSeedExit f m :=
  mapLanes_withSeedExit fun _ => rfl

theorem refill_withSeedExit (P : Prng) :
    refill P (s.withSeedExit f m) = (refill P s).withSeedExit f m := by
  simp only [refill, stepCores_withSeedExit, extractHalf_withSeedExit]
  rfl

/-- The seeding step is the one reader of SEED, and a running PRNG skips it (R201, R202). -/
theorem ensureRunning_withSeedExit (P : Prng) (h : s.SeedHidden f) :
    ensureRunning P (s.withSeedExit f m) = (ensureRunning P s).withSeedExit f m := by
  cases hr : s.status.prngRun with
  | true => rw [ensureRunning_of_run P hr, ensureRunning_of_run P (s := s.withSeedExit f m) hr]
  | false =>
    obtain rfl := h hr
    rw [ensureRunning_of_uninit P hr, ensureRunning_of_uninit P (s := s.withSeedExit id m) hr,
      withSeedExit_id, withSeedExit_id]
    rfl

theorem refillAtEnd_withSeedExit (P : Prng) :
    refillAtEnd P (s.withSeedExit f m) = (refillAtEnd P s).withSeedExit f m := by
  by_cases hc : 16 ≤ s.cursor.toNat
  · rw [refillAtEnd_of_end P hc, refillAtEnd_of_end P (s := s.withSeedExit f m) hc, refill_withSeedExit]
  · rw [Nat.not_le] at hc
    rw [refillAtEnd_of_left P hc, refillAtEnd_of_left P (s := s.withSeedExit f m) hc]

theorem draw_withSeedExit (P : Prng) (n : Nat) (h : s.SeedHidden f) :
    draw P n (s.withSeedExit f m) = ((draw P n s).1.withSeedExit f m, (draw P n s).2) := by
  have ht : readyTape P (s.withSeedExit f m) = (readyTape P s).withSeedExit f m := by
    rw [readyTape, ensureRunning_withSeedExit P h, refillAtEnd_withSeedExit, readyTape]
  simp only [draw, ht, withSeedExit_lanes, List.map_map]
  rfl

theorem drawWords_withSeedExit (P : Prng) (k : Nat) (h : s.SeedHidden f) :
    drawWords P k (s.withSeedExit f m) = ((drawWords P k s).1.withSeedExit f m, (drawWords P k s).2) := by
  induction k generalizing s with
  | zero => simp only [drawWords, withSeedExit_lanes, List.map_map, Function.comp_def]
  | succ k ih =>
    have hd : (draw P 1 s).1.SeedHidden f := .of_run (draw_run P 1 s)
    simp only [drawWords, draw_withSeedExit P 1 h, ih hd]

/-- A command that draws and then writes one group of share-vectors, from registers other than SEED. -/
theorem drawThen_withSeedExit (P : Prng) (k : Nat) {d base : Nat} {new : Lane → List Word → List ShareVec}
    (hn : ∀ a ws, new (a.mapSeed f) ws = new a ws) (h : s.SeedHidden f) :
    drawThen P k (fun a ws => a.writeGroup d base (new a ws)) (s.withSeedExit f m) =
      (drawThen P k (fun a ws => a.writeGroup d base (new a ws)) s).withSeedExit f m := by
  simp only [drawThen, drawWords_withSeedExit P k h]
  exact zipLanes_withSeedExit (fun a ws => by rw [hn, writeGroup_mapSeed]) _

theorem rgetBody_withSeedExit (P : Prng) (xk : XReg) (n : Nat) (h : s.SeedHidden f) :
    rgetBody P xk n (s.withSeedExit f m) = (rgetBody P xk n s).withSeedExit f m := by
  rw [rgetBody_eq, draw_withSeedExit P n h, rgetBody_eq]
  exact zipLanes_withSeedExit (fun a ws => writePublic_mapSeed f xk ws a) _

theorem rinitBody_withSeedExit : rinitBody (s.withSeedExit f m) = (rinitBody s).withSeedExit f m := by
  simp [State.withSeedExit, rinitBody, Lane.mapSeed]

/-! ### The datapath -/

theorem sboxLayer_withSeedExit (P : Prng) (r : VReg) (ref : Bool) (h : s.SeedHidden f) :
    sboxLayer P r ref (s.withSeedExit f m) = (sboxLayer P r ref s).withSeedExit f m :=
  drawThen_withSeedExit P _ (fun _ _ => rfl) h

theorem lboxLayer_withSeedExit : lboxLayer (s.withSeedExit f m) = (lboxLayer s).withSeedExit f m := by
  unfold lboxLayer
  exact mapLanes_withSeedExit fun a => writeQuad_mapSeed f _ _ _ a

theorem injectRc_withSeedExit : injectRc (s.withSeedExit f m) = (injectRc s).withSeedExit f m := by
  unfold injectRc
  exact mapLanes_withSeedExit fun a => writeQuad_mapSeed f _ _ _ a

theorem advanceRc_withSeedExit : advanceRc (s.withSeedExit f m) = (advanceRc s).withSeedExit f m := rfl

theorem linearHalf_withSeedExit :
    linearHalf (s.withSeedExit f m) = (linearHalf s).withSeedExit f m := by
  rw [linearHalf, lboxLayer_withSeedExit, injectRc_withSeedExit, advanceRc_withSeedExit, linearHalf]

theorem mhalfBody_withSeedExit (P : Prng) (ref : Bool) (h : s.SeedHidden f) :
    mhalfBody P ref (s.withSeedExit f m) = (mhalfBody P ref s).withSeedExit f m := by
  rw [mhalfBody, sboxLayer_withSeedExit P 0 ref h, linearHalf_withSeedExit, mhalfBody]

theorem minitBody_withSeedExit : minitBody (s.withSeedExit f m) = (minitBody s).withSeedExit f m := by
  have hl (a : Lane) : minitLane s.order (a.mapSeed f) = (minitLane s.order a).mapSeed f :=
    writeQuad_mapSeed f _ _ _ { a with tk := a.expandedTweak }
  rw [minitBody_eq, withSeedExit_order, mapLanes_withSeedExit hl, minitBody_eq]
  rfl

theorem mkeyBody_withSeedExit : mkeyBody (s.withSeedExit f m) = (mkeyBody s).withSeedExit f m := by
  have hl (e : Nat) (a : Lane) : mkeyLane s.order e (a.mapSeed f) = (mkeyLane s.order e a).mapSeed f :=
    writeQuad_mapSeed f _ _ _ a
  rw [mkeyBody_eq, withSeedExit_order, mapLanes_withSeedExit (hl _), mkeyBody_eq]
  rfl

/-- The rounds of MPERM go by the marker MPERM started with, `m'`, not by EXIT. -/
theorem mpermRounds_withSeedExit (P : Prng) (m' : ExitMarker) (n r : Nat) (h : s.SeedHidden f) :
    mpermRounds P m' n r (s.withSeedExit f m) = (mpermRounds P m' n r s).withSeedExit f m := by
  induction n generalizing r s with
  | zero => rfl
  | succ n ih =>
    have h1 := h.of_within (sboxLayer_within P 0 true s) (by simp [drawTargets])
    have h1' := h1.of_within (linearHalf_within _) (by simp)
    have h2 := h1'.of_within (sboxLayer_within P 0 false _) (by simp [drawTargets])
    have h2' := h2.of_within (linearHalf_within _) (by simp)
    have h3 := h2'.of_within (mkeyBody_within _) (by simp)
    simp only [mpermRounds, sboxLayer_withSeedExit P 0 true h, linearHalf_withSeedExit,
      sboxLayer_withSeedExit P 0 false h1', mkeyBody_withSeedExit, ih _ h3]
    split
    · rfl
    · split <;> rfl

/-- MPERM reads EXIT once, so it commutes with a change that leaves EXIT alone (R363). -/
theorem mpermBody_withSeedExit (P : Prng) (h : s.SeedHidden f) :
    mpermBody P (s.withSeedExit f s.exit) = (mpermBody P s).withSeedExit f s.exit := by
  have hs : (setEarly false (minitBody s)).SeedHidden f := h
  rw [mpermBody, minitBody_withSeedExit]
  exact mpermRounds_withSeedExit P s.exit s.rounds 0 hs

/-! ### Commands -/

/-- A command's execution commutes with a change of hidden SEED and, but for MPERM, of EXIT. -/
theorem bodyOf_withSeedExit {i : Instr} (h : s.SeedHidden f) (hm : i = .mperm → m = s.exit) :
    bodyOf i (s.withSeedExit f m) = (bodyOf i s).withSeedExit f m := by
  cases i with
  | nop => rfl
  | sadd | spub | smov | slbox => exact mapLanes_writeGroup_withSeedExit fun _ => rfl
  | smul | sref | slref | sfresh => exact drawThen_withSeedExit _ _ (fun _ _ => rfl) h
  | ssbox => exact sboxLayer_withSeedExit _ _ _ h
  | minit => exact minitBody_withSeedExit
  | mhalf => exact mhalfBody_withSeedExit _ _ h
  | mkey => exact mkeyBody_withSeedExit
  | mperm => obtain rfl := hm rfl; exact mpermBody_withSeedExit _ h
  | rinit => exact rinitBody_withSeedExit
  | rget => exact rgetBody_withSeedExit _ _ _ h
  | rstep =>
    rw [bodyOf, rstepBody, ensureRunning_withSeedExit _ h, stepCores_withSeedExit, rstepBody]

/-- No check reads SEED, and that of MPERM alone reads EXIT (R303). -/
theorem expectedFault_withSeedExit {i : Instr} (hm : i = .mperm → m = s.exit) :
    expectedFault i (s.withSeedExit f m) = expectedFault i s := by
  cases i with
  | mperm => obtain rfl := hm rfl; rfl
  | _ => rfl

/-- A command commutes with a change of hidden SEED and, but for MPERM, of EXIT. -/
theorem exec_withSeedExit {i : Instr} {t : State} (h : s.SeedHidden f) (hm : i = .mperm → m = s.exit)
    (he : exec i s = .next t) : exec i (s.withSeedExit f m) = .next (t.withSeedExit f m) := by
  have hx : expectedFault i (s.withSeedExit f m) = expectedFault i s := expectedFault_withSeedExit hm
  obtain ⟨hf, rfl⟩ | ⟨e, hf, hx', rfl⟩ | ⟨hf, hx', rfl⟩ := exec_cases he
  · exact exec_of_faulted (s := t.withSeedExit f m) hf
  · exact exec_of_fault (s := s.withSeedExit f m) hf (hx.trans hx')
  · rw [exec_of_pass (s := s.withSeedExit f m) hf (hx.trans hx'), bodyOf_withSeedExit h hm]
    rfl

end

/-- Settles O35: a new EXIT with every SEED as it is commutes with every command but MPERM. -/
theorem onlyMpermReadsExit : Obligations.OnlyMpermReadsExit := by
  intro i s t m hi he
  have h := exec_withSeedExit (f := id) (m := m) (fun _ => rfl) (fun hp => absurd hp hi) he
  rwa [withSeedExit_id, withSeedExit_id] at h

/-! ## Blocks that differ in SEED only (R362) -/

/-- The block with every SEED blanked. -/
def State.withoutSeed (s : State) : State := s.withSeedExit (fun _ => Vector.replicate 4 0) s.exit

theorem map_mapSeed_const_eq_iff {z : Vector Word 4} {xs ys : List Lane} :
    xs.map (Lane.mapSeed fun _ => z) = ys.map (Lane.mapSeed fun _ => z) ↔
      List.Forall₂ (fun a b : Lane => b = { a with seed := b.seed }) xs ys := by
  have hlane (a b : Lane) :
      a.mapSeed (fun _ => z) = b.mapSeed (fun _ => z) ↔ b = { a with seed := b.seed } := by
    cases a
    cases b
    simp [Lane.mapSeed, eq_comm]
  rw [← List.forall₂_eq_eq_eq, List.forall₂_map_left_iff, List.forall₂_map_right_iff]
  simp only [hlane]

/-- Blocks are the same without SEED exactly when they differ in SEED only. -/
theorem withoutSeed_eq_iff {s t : State} :
    s.withoutSeed = t.withoutSeed ↔
      t = { s with lanes := t.lanes } ∧ LaneWise (fun a b => b = { a with seed := b.seed }) s t := by
  rw [LaneWise, ← map_mapSeed_const_eq_iff (z := Vector.replicate 4 0)]
  cases s
  cases t
  simp only [State.withoutSeed, State.withSeedExit, State.mk.injEq, true_and, eq_comm]
  exact and_comm

/-- A command on a running block does without SEED what it does with it. -/
theorem exec_withoutSeed {i : Instr} {s t : State} (hr : s.status.prngRun = true)
    (he : exec i s = .next t) : exec i s.withoutSeed = .next t.withoutSeed := by
  rw [State.withoutSeed, State.withoutSeed, (exec_keepsControl he).exit]
  exact exec_withSeedExit (.of_run hr) (fun _ => rfl) he

/-- Settles O34: the twins are the blocks that are the same without SEED. -/
theorem seedWaitsForTheNextSeeding : Obligations.SeedWaitsForTheNextSeeding := by
  intro i s s' t hr twin hs hl he
  have hr' : s'.status.prngRun = true := by rw [hs]; exact hr
  have hsame : s.withoutSeed = s'.withoutSeed := withoutSeed_eq_iff.mpr ⟨hs, hl⟩
  obtain ⟨t', he'⟩ := exec_next i s'
  have ht := (exec_withoutSeed hr he).symm.trans (hsame ▸ exec_withoutSeed hr' he')
  exact ⟨t', he', withoutSeed_eq_iff.mp (Host.Outcome.next.inj ht)⟩

end Sys2Proof.Machine
